-- ==== Sys2Proof/Word.lean ====
section
/-! DEFINITION. The words of the core: bytes, lanes, coefficient words and command words.

`spec/00_scope.md` R12 (lanes), R13 (bytes); `spec/10_state.md` R31 (coefficient words); `spec/30_encoding.md`
R81 (command words). -/

namespace Sys2Proof

/-- A byte, an integer in `[0, 255]` (R13). -/
abbrev Byte := BitVec 8

/-- A lane, an unsigned 64-bit value (R12, R22). -/
abbrev Lane := BitVec 64

/-- A coefficient word of the ports `CIN` and `COUT`: 32 bits in two's complement (R31). Its integer value is
`BitVec.toInt`. -/
abbrev Coeff := BitVec 32

/-- A command word (R81). -/
abbrev CmdWord := BitVec 32

end Sys2Proof
end

