-- ==== Sys2Proof/Config.lean ====
section
/-! DEFINITION. What one build of the core fixes: the scheme parameters and the secret-key order, and the one value
the spec leaves open.

`spec/00_scope.md` R7, R10; `spec/10_state.md` R30; `spec/44_packing_keys.md` header (`TOY`). -/

namespace Sys2Proof

/-- The scheme parameters, synthesis-time constants of a build (R7), under the spec's own names. -/
structure Params where
  /-- "the scheme's prime" -/
  Q : Nat
  /-- length of a coefficient vector -/
  N : Nat
  /-- "power-of-two rounding precision" -/
  D : Nat
  /-- number of rows of `t0`, `t1`, `s2`, `h` -/
  K : Nat
  /-- number of rows of `s1`, `z` -/
  L : Nat
  /-- "secret-key coefficient range" -/
  ETA : Nat
  /-- bound for "signature masking" -/
  GAMMA1 : Nat
  /-- "decomposition granularity" -/
  GAMMA2 : Nat
  /-- capacity of the hint index buffer -/
  OMEGA : Nat
  /-- bytes of the "seed" and of the "key-seed" -/
  SEEDBYTES : Nat
  /-- bytes of the "public-hash" -/
  TRBYTES : Nat
  /-- bytes of the "challenge hash" -/
  CTILDEBYTES : Nat
  deriving DecidableEq, Repr

/-- The order of the fields of the packed secret key (R10, R96, R234). -/
inductive SkOrder where
  /-- `SK_ORDER = DOC`, "the value for this hardware" (R10). -/
  | doc
  /-- `SK_ORDER = FIPS204`, the other value R10 allows. -/
  | fips204
  deriving DecidableEq, Repr

/-- One build of the core: everything R30 calls read-only configuration. -/
structure Build where
  params : Params
  skOrder : SkOrder
  deriving DecidableEq, Repr

namespace Config

/-- The ML-DSA-44 column of R7 (`P44` of the spec's test vectors). -/
def mldsa44 : Params :=
  { Q := 8380417, N := 256, D := 13, K := 4, L := 4, ETA := 2, GAMMA1 := 131072, GAMMA2 := 95232,
    OMEGA := 80, SEEDBYTES := 32, TRBYTES := 64, CTILDEBYTES := 32 }

/-- The ML-DSA-65 column of R7 (`P65`). -/
def mldsa65 : Params :=
  { Q := 8380417, N := 256, D := 13, K := 6, L := 5, ETA := 4, GAMMA1 := 524288, GAMMA2 := 261888,
    OMEGA := 55, SEEDBYTES := 32, TRBYTES := 64, CTILDEBYTES := 48 }

/-- The ML-DSA-87 column of R7 (`P87`). -/
def mldsa87 : Params :=
  { Q := 8380417, N := 256, D := 13, K := 8, L := 7, ETA := 2, GAMMA1 := 524288, GAMMA2 := 261888,
    OMEGA := 75, SEEDBYTES := 32, TRBYTES := 64, CTILDEBYTES := 64 }

/-- `TOY`, the small record of the spec's worked packing examples (head of `spec/44_packing_keys.md`). -/
def toy : Params :=
  { Q := 8380417, N := 8, D := 13, K := 2, L := 1, ETA := 2, GAMMA1 := 131072, GAMMA2 := 95232,
    OMEGA := 3, SEEDBYTES := 4, TRBYTES := 8, CTILDEBYTES := 4 }

/-- The build `State.reset` carries. DESIGN CHOICE (log entry 2): R7 lets the model instantiate `Params` with any
of its three columns; `SK_ORDER = DOC` is R10's value for this hardware. -/
def build : Build := { params := mldsa44, skOrder := .doc }

/-- FREE VALUE (log entry 5, DESIGN CHOICE): the 32-bit word that `COUT` shows for a decoded coefficient that does
not fit a signed 32-bit integer. R31 gives the port 32 bits and no rule says what a wider integer looks like on it;
P1 to P7 allow a `GAMMA1` or an `ETA` of 2^31 or more, whose decoders reach such integers. Nothing can be proved
about this word. -/
opaque offPort : Int → Coeff

end Config

end Sys2Proof
end

