-- ==== Sys2Proof/Machine/State.lean ====
section
/-! DEFINITION. The state of one core, the transaction and the response, the reasons a step can stop, and reset.

`spec/10_state.md` R20 (the complete state), R25 to R31, R36 (reset); `spec/30_encoding.md` R80 (transaction and
response), R89 (status codes); `spec/70_reset_and_hazards.md` R330. -/

namespace Sys2Proof.Machine

/-- `PHASE` (R26). -/
inductive Phase where
  | empty
  | absorbing
  | finalized
  | squeezing
  deriving DecidableEq, Repr

/-- The algorithm selector, register `ALG` (R29, R82). -/
inductive Alg where
  | shake128
  | shake256
  | sha3_256
  | sha3_512
  deriving DecidableEq, Repr

/-- The lanes `A[0..24]`, "a fixed-size array, not 25 named scalars" (R22). -/
abbrev Lanes := Vector Lane 25

/-- The context: "the one sponge state the core holds: lanes `A[0..24]`, `POS`, `PHASE`, `ALG`"
(`spec/00_scope.md`, glossary; R20). -/
structure Context where
  /-- `A`: 25 unsigned 64-bit lanes (R22). -/
  lanes : Lanes
  /-- `POS`: the byte cursor, an integer in `[0, 200]` (R20, R25). -/
  pos : Nat
  /-- `PHASE` (R26). -/
  phase : Phase
  /-- `ALG`: the algorithm the context was initialised for (R29). -/
  alg : Alg
  deriving DecidableEq, Repr

/-- One command transaction `(CMD, ARG, DIN, CIN)` (R80). -/
structure Transaction where
  /-- `CMD`, the command word. -/
  cmd : CmdWord
  /-- `ARG`, an unbounded natural number (R10, R32). -/
  arg : Nat
  /-- `DIN`, the byte input. -/
  din : List Byte
  /-- `CIN`, the coefficient input. -/
  cin : List Coeff
  deriving DecidableEq, Repr

/-- The outcomes of a command other than `OK` (R291): the signaled parse failure and the five faults. -/
inductive Failure where
  /-- `MALFORMED`: the signaled parse failure of `UNPACK_SIG`, not a fault (R292). -/
  | malformed
  /-- `ERR_OPCODE`: illegal command word (R294). -/
  | errOpcode
  /-- `ERR_PHASE`: command not allowed in this `PHASE` (R296). -/
  | errPhase
  /-- `ERR_CURSOR`: `SQUEEZEBLOCKS` with `POS != RATE` (R297). -/
  | errCursor
  /-- `ERR_LENGTH`: an operand has the wrong length (R298). -/
  | errLength
  /-- `ERR_RANGE`: a value is outside its documented bound (R299). -/
  | errRange
  deriving DecidableEq, Repr

/-- `STATUS` (R89). -/
inductive Status where
  /-- `OK`: results are in `DOUT` and `COUT`. -/
  | ok
  /-- Every other code. -/
  | failed (f : Failure)
  deriving DecidableEq, Repr

/-- The response `(STATUS, DOUT, COUT)` of a command (R80). -/
structure Response where
  status : Status
  dout : List Byte
  cout : List Coeff
  deriving DecidableEq, Repr

/-- What the host does to the core, between commands (R15, R330). -/
inductive HostEvent where
  /-- The host issues a command transaction. -/
  | command (t : Transaction)
  /-- The reset input, "offered only between commands" (R330). -/
  | reset
  deriving DecidableEq, Repr

/-- The state. `ctx` and `fault` are R20's record, "the complete state of one core, held between commands". The
other four are the model's own fields, not state of the core: the build constants, which R30 passes as arguments and no
step changes (log entry 1), and the command and response ports (log entry 3). -/
structure State where
  /-- `A`, `POS`, `PHASE`, `ALG`. -/
  ctx : Context
  /-- `FAULT`, the sticky fault bit (R27). -/
  fault : Bool
  /-- `Params` and `SK_ORDER`, constants of a build (R21 (a), R30). -/
  build : Build
  /-- The transaction being performed, sampled when the command begins (R64). -/
  txn : Transaction
  /-- What the host has yet to do, first to come first. -/
  pending : List HostEvent
  /-- The response to the last command performed; `none` before the first after a reset. -/
  response : Option Response
  deriving DecidableEq, Repr

/-- Reasons the machine stops with a fault. There is none: a fault of this hardware is a response, after which "the core
accepts the next command" (R293), and there is "no state in which the core stops accepting commands" (R301). -/
inductive Fault where
  deriving DecidableEq, Repr

/-- Reasons the model gives a command no meaning. -/
inductive Refusal where
  /-- An instruction whose meaning is not modelled, by its mnemonic. Raised by nothing while every arm of `exec` has a
  meaning. Safe. -/
  | notModelled (mnemonic : String)
  /-- A `Params` record that breaks one of P1 to P7: "A record that fails one is refused by the model (no meaning
  given)" (R8). Raised by `State.guarded`, for every command. Safe. -/
  | badParams
  deriving DecidableEq, Repr

/-- All 25 lanes 0. -/
def Lanes.zero : Lanes := Vector.replicate 25 0

/-- The context in `EMPTY`: R36's table without `FAULT`. -/
def Context.empty : Context := { lanes := Lanes.zero, pos := 0, phase := .empty, alg := .shake128 }

/-- No operands: an omitted `arg=` means 0, an omitted `din=` or `cin=` the empty sequence (R91). -/
def Transaction.bare (cmd : CmdWord) : Transaction := { cmd := cmd, arg := 0, din := [], cin := [] }

/-- The state right after reset of a core of the build `b` (R36, R330), with nothing pending. -/
def State.resetOf (b : Build) : State :=
  { ctx := Context.empty, fault := false, build := b, txn := Transaction.bare 0, pending := [], response := none }

/-- The machine right after reset (R36, R330). -/
def State.reset : State := State.resetOf Config.build

end Sys2Proof.Machine
end

