-- ==== Sys2Proof/Syntax.lean ====
section
/-! DEFINITION. The command set: one constructor per row of `spec/opcode_table.json`, in the table's order
(`spec/30_encoding.md` R83).

A command word holds no operand besides the algorithm, which is part of the row (R86). `ARG`, `DIN` and `CIN` travel
beside the word in the transaction (R80), so no constructor has a field. -/

namespace Sys2Proof

/-- The 25 commands of R83. -/
inductive Instr where
  /-- `PERMUTE` (R128) -/
  | permute
  /-- `RDSTAT` (R88) -/
  | rdstat
  /-- `INIT.SHAKE128` (R142) -/
  | initShake128
  /-- `INIT.SHAKE256` (R142) -/
  | initShake256
  /-- `ABSORB` (R144) -/
  | absorb
  /-- `FINALIZE` (R146) -/
  | finalize
  /-- `ABSORB_ONCE.SHAKE128` (R148) -/
  | absorbOnceShake128
  /-- `ABSORB_ONCE.SHAKE256` (R148) -/
  | absorbOnceShake256
  /-- `SQUEEZE` (R149) -/
  | squeeze
  /-- `SQUEEZEBLOCKS` (R151) -/
  | squeezeblocks
  /-- `RELEASE` (R152) -/
  | release
  /-- `SHAKE128` (R172) -/
  | shake128
  /-- `SHAKE256` (R173) -/
  | shake256
  /-- `SHA3_256` (R176) -/
  | sha3_256
  /-- `SHA3_512` (R177) -/
  | sha3_512
  /-- `POWER2ROUND` (R192) -/
  | power2round
  /-- `DECOMPOSE` (R195) -/
  | decompose
  /-- `MAKE_HINT` (R199) -/
  | makeHint
  /-- `USE_HINT` (R202) -/
  | useHint
  /-- `PACK_PK` (R232) -/
  | packPk
  /-- `UNPACK_PK` (R233) -/
  | unpackPk
  /-- `PACK_SK` (R235) -/
  | packSk
  /-- `UNPACK_SK` (R236) -/
  | unpackSk
  /-- `PACK_SIG` (R266) -/
  | packSig
  /-- `UNPACK_SIG` (R268) -/
  | unpackSig
  deriving DecidableEq, Repr

/-- Every command, in the table's order. -/
def Instr.all : List Instr :=
  [.permute, .rdstat, .initShake128, .initShake256, .absorb, .finalize, .absorbOnceShake128,
   .absorbOnceShake256, .squeeze, .squeezeblocks, .release, .shake128, .shake256, .sha3_256, .sha3_512]
  ++ [.power2round, .decompose, .makeHint, .useHint, .packPk, .unpackPk, .packSk, .unpackSk, .packSig,
   .unpackSig]

end Sys2Proof
end

