-- ==== Sys2Proof/WellFormed.lean ====
section
/-! DEFINITION. The checks: the constraints P1 to P7 that a `Params` record must meet (`spec/00_scope.md` R8), and
the well-formedness of a command.

A command has no operand field, so every term of `Instr` is the command of one table row: there is no ill-formed
one, and the encoder's domain is all of `Instr`. -/

namespace Sys2Proof

/-- P1: `Q` odd, `Q >= 3`, `Q < 2^31`. -/
abbrev Params.P1 (p : Params) : Prop := p.Q % 2 = 1 ∧ 3 ≤ p.Q ∧ p.Q < 2 ^ 31

/-- P2: `1 <= D`, `2^D < Q`, `floor((Q-1) / 2^D) < 2^10`. -/
abbrev Params.P2 (p : Params) : Prop := 1 ≤ p.D ∧ 2 ^ p.D < p.Q ∧ (p.Q - 1) / 2 ^ p.D < 2 ^ 10

/-- P3: `GAMMA2 >= 1`, `2*GAMMA2` divides `Q-1`, `M = (Q-1)/(2*GAMMA2) >= 2`. -/
abbrev Params.P3 (p : Params) : Prop :=
  1 ≤ p.GAMMA2 ∧ (p.Q - 1) % (2 * p.GAMMA2) = 0 ∧ 2 ≤ (p.Q - 1) / (2 * p.GAMMA2)

/-- P4: `1 <= N <= 256`, `N` a multiple of 8. -/
abbrev Params.P4 (p : Params) : Prop := 1 ≤ p.N ∧ p.N ≤ 256 ∧ p.N % 8 = 0

/-- P5: `OMEGA <= 255`, `K >= 1`, `L >= 1`. -/
abbrev Params.P5 (p : Params) : Prop := p.OMEGA ≤ 255 ∧ 1 ≤ p.K ∧ 1 ≤ p.L

/-- P6: `ETA >= 1`, `GAMMA1 >= 1`. -/
abbrev Params.P6 (p : Params) : Prop := 1 ≤ p.ETA ∧ 1 ≤ p.GAMMA1

/-- P7: `GAMMA1` is a power of two. -/
abbrev Params.P7 (p : Params) : Prop := 2 ^ Nat.log2 p.GAMMA1 = p.GAMMA1

/-- "Constraints every `Params` record must meet for the rules of this spec to apply" (R8). -/
abbrev Params.Ok (p : Params) : Prop := p.P1 ∧ p.P2 ∧ p.P3 ∧ p.P4 ∧ p.P5 ∧ p.P6 ∧ p.P7

end Sys2Proof
end

