-- ==== Sys2Proof/Machine/Sizes.lean ====
section
/-! DEFINITION. The algorithm constants (`spec/00_scope.md` R6) and the derived widths and sizes (R9). -/

namespace Sys2Proof

/-- `ceil_log2(x)`, "the least integer `w` with `2^w >= x`" (R9). -/
def ceilLog2 (x : Nat) : Nat := if x ≤ 1 then 0 else Nat.log2 (x - 1) + 1

/-- `T1BITS`, bits per `t1` coefficient (R6). -/
def T1BITS : Nat := 10

/-- `M = (Q-1)/(2*GAMMA2)`, the number of distinct high parts of `decompose` (R8 P3). -/
def Params.M (p : Params) : Nat := (p.Q - 1) / (2 * p.GAMMA2)

/-- `T0BITS = ceil_log2(2^(D-1) + 1)` (R9). -/
def Params.T0BITS (p : Params) : Nat := ceilLog2 (2 ^ (p.D - 1) + 1)

/-- `ETABITS = ceil_log2(2*ETA + 1)` (R9). -/
def Params.ETABITS (p : Params) : Nat := ceilLog2 (2 * p.ETA + 1)

/-- `ZBITS = ceil_log2(2*GAMMA1)` (R9). -/
def Params.ZBITS (p : Params) : Nat := ceilLog2 (2 * p.GAMMA1)

/-- Bytes of one packed polynomial of `N` fields of `w` bits (R9, R222). -/
def Params.polyBytes (p : Params) (w : Nat) : Nat := p.N * w / 8

def Params.POLYT1BYTES (p : Params) : Nat := p.polyBytes T1BITS

def Params.POLYT0BYTES (p : Params) : Nat := p.polyBytes p.T0BITS

def Params.POLYETABYTES (p : Params) : Nat := p.polyBytes p.ETABITS

def Params.POLYZBYTES (p : Params) : Nat := p.polyBytes p.ZBITS

/-- `HINTBYTES = OMEGA + K` (R9). -/
def Params.HINTBYTES (p : Params) : Nat := p.OMEGA + p.K

/-- `PKBYTES` (R9). -/
def Params.PKBYTES (p : Params) : Nat := p.SEEDBYTES + p.K * p.POLYT1BYTES

/-- Bytes of the three byte fields of a secret key, seed, public-hash and key-seed (R84, R96). -/
def Params.skSeedBytes (p : Params) : Nat := 2 * p.SEEDBYTES + p.TRBYTES

/-- `SKBYTES` (R9). -/
def Params.SKBYTES (p : Params) : Nat :=
  p.skSeedBytes + p.K * p.POLYT0BYTES + (p.K + p.L) * p.POLYETABYTES

/-- `SIGBYTES` (R9). -/
def Params.SIGBYTES (p : Params) : Nat := p.CTILDEBYTES + p.L * p.POLYZBYTES + p.HINTBYTES

namespace Machine

/-- `RATE[alg]` in bytes (R6, R82). -/
def Alg.rate : Alg → Nat
  | .shake128 => 168
  | .shake256 => 136
  | .sha3_256 => 136
  | .sha3_512 => 72

/-- `DS[alg]`, the domain-separation byte (R6, R82). -/
def Alg.ds : Alg → Byte
  | .shake128 => 0x1F
  | .shake256 => 0x1F
  | .sha3_256 => 0x06
  | .sha3_512 => 0x06

/-- `HASHLANES[alg]`, the lanes a fixed-output hash extracts (R6). The two XOFs have no such entry; 0. -/
def Alg.hashLanes : Alg → Nat
  | .shake128 => 0
  | .shake256 => 0
  | .sha3_256 => 4
  | .sha3_512 => 8

/-- The two algorithms of the incremental sessions (R82, R25). -/
def Alg.isXof : Alg → Bool
  | .shake128 => true
  | .shake256 => true
  | .sha3_256 => false
  | .sha3_512 => false

/-- `ALG_code` (R29, R82). -/
def Alg.code : Alg → Byte
  | .shake128 => 0
  | .shake256 => 1
  | .sha3_256 => 2
  | .sha3_512 => 3

/-- `PHASE_code` (R26). -/
def Phase.code : Phase → Byte
  | .empty => 0
  | .absorbing => 1
  | .finalized => 2
  | .squeezing => 3

/-- The code of a failure (R89, R291). -/
def Failure.code : Failure → BitVec 3
  | .malformed => 1
  | .errOpcode => 2
  | .errPhase => 3
  | .errCursor => 4
  | .errLength => 5
  | .errRange => 6

/-- The 3-bit code carried in `STATUS` (R89). -/
def Status.code : Status → BitVec 3
  | .ok => 0
  | .failed f => f.code

end Machine

end Sys2Proof
end

