-- ==== Sys2Proof/Machine/Flags.lean ====
section
/-! DEFINITION. The one flag of the core, `FAULT` (`spec/10_state.md` R27). There are no condition codes (R28). -/

namespace Sys2Proof.Machine

/-- Which failures are faults: every one but `MALFORMED` (R27, R291). -/
def Failure.isFault : Failure → Bool
  | .malformed => false
  | .errOpcode => true
  | .errPhase => true
  | .errCursor => true
  | .errLength => true
  | .errRange => true

/-- Which statuses are faults (R89). -/
def Status.isFault : Status → Bool
  | .ok => false
  | .failed f => f.isFault

/-- `FAULT` after a response: "set to 1 by every response whose status is an error", "never cleared by any command"
(R27). -/
def faultAfter (fault : Bool) (st : Status) : Bool := fault || st.isFault

/-- `FAULT` as the low bit of a byte (R29, R88). -/
def faultByte (fault : Bool) : Byte := if fault then 1 else 0

end Sys2Proof.Machine
end

