-- ==== Sys2Proof/Machine/Ops.lean ====
section
/-! DEFINITION. The shared operations: the state byte space, positional numbers, the coefficient port, fault entry and
the end of a command.

`spec/20_memory.md` R50 to R54; `spec/00_scope.md` R14; `spec/10_state.md` R31; `spec/60_exceptions.md` R293. -/

namespace Sys2Proof.Machine

/-! ### The state byte space -/

/-- `MemRead(i, 1)`: state byte `i` is bits `[8*(i mod 8)+7 : 8*(i mod 8)]` of lane `floor(i/8)` (R50, R52). There is
no state byte at 200 or above; there the function answers 0, and no command of a state that meets `Context.Inv` reads
there. -/
def memRead (a : Lanes) (i : Nat) : Byte :=
  if h : i / 8 < 25 then a[i / 8].extractLsb' (8 * (i % 8)) 8 else 0

/-- `A[j] <- A[j] ^ v`; nothing where there is no lane `j`. -/
def xorLane (a : Lanes) (j : Nat) (v : Lane) : Lanes := if h : j < 25 then a.set j (a[j] ^^^ v) else a

/-- `MemXor(i, 1, b)`: `A[floor(i/8)] <- A[floor(i/8)] ^ (zext_64(b) << (8*(i mod 8)))` (R51). -/
def memXor (a : Lanes) (i : Nat) (b : Byte) : Lanes := xorLane a (i / 8) (b.setWidth 64 <<< (8 * (i % 8)))

/-- State bytes `0 .. n-1` in order. -/
def stateBytes (n : Nat) (a : Lanes) : List Byte := (List.range n).map (memRead a)

/-! ### Positional numbers -/

/-- `sum over j of u[j] * 2^(j*w)`, the number `S` of R222 (and, with `w = 8`, of R223 and R54). -/
def ofFields (w : Nat) : List Nat → Nat
  | [] => 0
  | u :: us => u + 2 ^ w * ofFields w us

/-- The `n` fields of `w` bits of `S`, field `j` being `floor(S / 2^(j*w)) mod 2^w` (R222, R223). -/
def toFields (w : Nat) : Nat → Nat → List Nat
  | 0, _ => []
  | n + 1, S => S % 2 ^ w :: toFields w n (S / 2 ^ w)

/-- The integers of a byte sequence. -/
def byteVals (b : List Byte) : List Nat := b.map BitVec.toNat

/-- `b[i .. i+n)` (R13). -/
def slice {α : Type} (b : List α) (i n : Nat) : List α := (b.drop i).take n

/-- Lane `j` of a state given as bytes: `sum over k in 0..7 of b[8*j + k] * 2^(8*k)` (R54). -/
def lanesOfBytes (b : List Byte) : Lanes :=
  Vector.ofFn fun j => BitVec.ofNat 64 (ofFields 8 (byteVals (slice b (8 * j.val) 8)))

/-! ### The coefficient port -/

/-- The word of `COUT` for the integer `c`: its two's complement where it fits 32 bits (R31), and the free value
`Config.offPort` where it does not (log entry 5). -/
def toPort (c : Int) : Coeff :=
  if -2 ^ 31 ≤ c ∧ c < 2 ^ 31 then BitVec.ofInt 32 c else Config.offPort c

/-- The integers of a coefficient sequence (R31). -/
def coeffVals (c : List Coeff) : List Int := c.map BitVec.toInt

/-- The coefficient sequence of integers. -/
def toPorts (c : List Int) : List Coeff := c.map toPort

/-! ### The end of a command -/

/-- What a command that succeeds leaves and delivers: the context after it, `DOUT` and `COUT`. -/
structure Effect where
  ctx : Context
  dout : List Byte
  cout : List Coeff
  deriving DecidableEq, Repr

/-- TAKING A FAULT, the meaning of `raise E` (R293, and R292 for `MALFORMED`): `A`, `POS`, `PHASE`, `ALG` keep their
values, `DOUT` and `COUT` are empty, `FAULT` is set unless `E` is `MALFORMED`, `STATUS` is `E`, and the core accepts the
next command. There is no handler and no return (R301). -/
def State.raise (s : State) (e : Failure) : State :=
  { s with fault := faultAfter s.fault (.failed e), response := some { status := .failed e, dout := [], cout := [] } }

/-- The end of a command that succeeds: `STATUS = OK`, the results delivered, `FAULT` unchanged (R35 (c)). -/
def State.deliver (s : State) (e : Effect) : State :=
  { s with ctx := e.ctx, response := some { status := .ok, dout := e.dout, cout := e.cout } }

/-- The end of a command, either way. -/
def State.respond (s : State) : Except Failure Effect → State
  | .ok e => s.deliver e
  | .error f => s.raise f

/-- Every command ends in a response, unless the build's `Params` breaks P1 to P7: then the model gives no meaning
(R8). -/
def State.guarded (s : State) (r : Except Failure Effect) : Host.Outcome State Fault Refusal :=
  if s.build.params.Ok then .next (s.respond r) else .refused .badParams

end Sys2Proof.Machine
end

