-- ==== Sys2Proof/Machine/Operands.lean ====
section
/-! DEFINITION. What each command demands of the phase, the cursor and its operands, and performing a command in the
order of `spec/30_encoding.md` R85.

`spec/10_state.md` R26 (phases); `spec/30_encoding.md` R84 (lengths); `spec/60_exceptions.md` R296 to R298, R300. -/

namespace Sys2Proof

open Machine

/-- The phases that allow a command: the entries of R26's table that are not a dash. -/
def Instr.allowedIn (i : Instr) (ph : Phase) : Bool :=
  match i with
  | .absorb | .finalize => ph == .absorbing
  | .squeeze | .squeezeblocks => ph == .finalized || ph == .squeezing
  | .permute | .rdstat | .initShake128 | .initShake256 | .absorbOnceShake128 | .absorbOnceShake256 | .release
  | .shake128 | .shake256 | .sha3_256 | .sha3_512 | .power2round | .decompose | .makeHint | .useHint
  | .packPk | .unpackPk | .packSk | .unpackSk | .packSig | .unpackSig => true

/-- Whether the command needs `POS = RATE[ALG]` (R85 step 3, R297). -/
def Instr.needsFullCursor (i : Instr) : Bool := i == .squeezeblocks

/-- The column `DIN` of R84: the exact length required, or `none` for "any". -/
def Instr.dinLen (p : Params) : Instr → Option Nat
  | .permute => some 200
  | .absorb | .absorbOnceShake128 | .absorbOnceShake256 | .shake128 | .shake256 | .sha3_256 | .sha3_512 => none
  | .packPk => some p.SEEDBYTES
  | .unpackPk => some p.PKBYTES
  | .packSk => some p.skSeedBytes
  | .unpackSk => some p.SKBYTES
  | .packSig => some p.CTILDEBYTES
  | .unpackSig => some p.SIGBYTES
  | .rdstat | .initShake128 | .initShake256 | .finalize | .squeeze | .squeezeblocks | .release | .power2round
  | .decompose | .makeHint | .useHint => some 0

/-- The column `CIN` of R84. -/
def Instr.cinLen (p : Params) : Instr → Nat
  | .power2round => 1
  | .decompose => 1
  | .makeHint => 2
  | .useHint => 2
  | .packPk => p.K * p.N
  | .packSk => (2 * p.K + p.L) * p.N
  | .packSig => (p.L + p.K) * p.N
  | .permute | .rdstat | .initShake128 | .initShake256 | .absorb | .finalize | .absorbOnceShake128
  | .absorbOnceShake256 | .squeeze | .squeezeblocks | .release | .shake128 | .shake256 | .sha3_256 | .sha3_512
  | .unpackPk | .unpackSk | .unpackSig => 0

namespace Machine

/-- Whether `|DIN|` and `|CIN|` are the lengths R84 requires (R298). -/
def lengthsOk (p : Params) (i : Instr) (t : Transaction) : Bool :=
  (match i.dinLen p with
    | some n => t.din.length == n
    | none => true) && t.cin.length == i.cinLen p

/-- Steps 2 to 4 of R85: the phase, then the cursor, then the lengths. Step 1 is the decoder's, step 5 belongs to the
command's own rule. -/
def State.precheck (s : State) (i : Instr) : Option Failure :=
  if !i.allowedIn s.ctx.phase then some .errPhase
  else if i.needsFullCursor && s.ctx.pos != s.ctx.alg.rate then some .errCursor
  else if !lengthsOk s.build.params i s.txn then some .errLength
  else none

/-- Perform the command `i` by its rule: "the step function does these in order and stops at the first that fails"
(R85). -/
def State.perform (s : State) (i : Instr) (rule : State → Except Failure Effect) :
    Host.Outcome State Fault Refusal :=
  s.guarded (match s.precheck i with
    | some f => .error f
    | none => rule s)

/-- `raise ERR_OPCODE`, the outcome of an illegal command word (R87, R294). -/
def State.performIllegal (s : State) : Host.Outcome State Fault Refusal := s.guarded (.error .errOpcode)

/-- A rule that leaves the context alone and delivers `dout` and `cout`. -/
def State.keep (s : State) (dout : List Byte) (cout : List Coeff) : Except Failure Effect :=
  .ok { ctx := s.ctx, dout := dout, cout := cout }

end Machine

end Sys2Proof
end

