-- ==== Sys2Proof/Machine/Permutation.lean ====
section
/-! DEFINITION. The permutation core and `PERMUTE` (`spec/40_permutation.md`). -/

namespace Sys2Proof.Machine

/-- `rol64(v, n)` for `0 <= n < 64` (R12). -/
def rol64 (v : Lane) (n : Nat) : Lane := if n = 0 then v else (v <<< n) ||| (v >>> (64 - n))

/-- The lane at column `x` and row `y`, "all coordinate arithmetic is modulo 5" (R121). -/
def laneAt (s : Lanes) (x y : Nat) : Lane := s[x % 5 + 5 * (y % 5)]'(by omega)

/-- The lanes whose lane at `(x, y)` is `f x y` (R121). -/
def lanesOf (f : Nat → Nat → Lane) : Lanes := Vector.ofFn fun i => f (i.val % 5) (i.val / 5)

/-- The column parities `C[0..4]` of R122. -/
def thetaC (s : Lanes) : Vector Lane 5 := Vector.ofFn fun x =>
  laneAt s x 0 ^^^ laneAt s x 1 ^^^ laneAt s x 2 ^^^ laneAt s x 3 ^^^ laneAt s x 4

/-- `D[x] = C[(x+4) mod 5] ^ rol64(C[(x+1) mod 5], 1)` (R122). -/
def thetaD (par : Vector Lane 5) : Vector Lane 5 := Vector.ofFn fun x =>
  par[(x.val + 4) % 5]'(by omega) ^^^ rol64 (par[(x.val + 1) % 5]'(by omega)) 1

/-- `Theta` (R122). -/
def theta (s : Lanes) : Lanes :=
  let d := thetaD (thetaC s)
  lanesOf fun x y => laneAt s x y ^^^ d[x % 5]'(by omega)

/-- The rotation offsets by flat lane index (R123). -/
def rhoOffsets : List Nat :=
  [0, 1, 62, 28, 27, 36, 44, 6, 55, 20, 3, 10, 43, 25, 39, 41, 45, 15, 21, 8, 18, 2, 61, 56, 14]

/-- `Rho` (R123). -/
def rho (s : Lanes) : Lanes := lanesOf fun x y => rol64 (laneAt s x y) (rhoOffsets.getD (x + 5 * y) 0)

/-- `Pi`: `S'[x + 5*y] = S[((x + 3*y) mod 5) + 5*x]` (R124). -/
def pi (s : Lanes) : Lanes := lanesOf fun x y => laneAt s (x + 3 * y) x

/-- `Chi` (R125). -/
def chi (s : Lanes) : Lanes := lanesOf fun x y =>
  laneAt s x y ^^^ (~~~laneAt s (x + 1) y &&& laneAt s (x + 2) y)

/-- The 24 round constants `RC` (R126). -/
def roundConstants : List Lane :=
  [0x0000000000000001, 0x0000000000008082, 0x800000000000808A, 0x8000000080008000,
   0x000000000000808B, 0x0000000080000001, 0x8000000080008081, 0x8000000000008009,
   0x000000000000008A, 0x0000000000000088, 0x0000000080008009, 0x000000008000000A]
  ++ [0x000000008000808B, 0x800000000000008B, 0x8000000000008089, 0x8000000000008003,
   0x8000000000008002, 0x8000000000000080, 0x000000000000800A, 0x800000008000000A,
   0x8000000080008081, 0x8000000000008080, 0x0000000080000001, 0x8000000080008008]

/-- `Iota` (R126). -/
def iota (s : Lanes) (ir : Nat) : Lanes := xorLane s 0 (roundConstants.getD ir 0)

/-- One round, `Iota(Chi(Pi(Rho(Theta(S)))), ir)` (R120). -/
def keccakRound (s : Lanes) (ir : Nat) : Lanes := iota (chi (pi (rho (theta s)))) ir

/-- `KeccakF`: 24 rounds, `ir` ascending from 0 (R120). Irreducible, so that the elaborator compares two contexts without
running 24 rounds; the kernel evaluates it all the same. -/
@[irreducible] def keccakF (s : Lanes) : Lanes := (List.range 24).foldl keccakRound s

/-- The rule of `PERMUTE` (R128): `KeccakF` of the 25 lanes of `DIN`, in the byte order of R54. -/
def permuteRule (s : State) : Except Failure Effect :=
  s.keep (stateBytes 200 (keccakF (lanesOfBytes s.txn.din))) []

/-- `PERMUTE` (R128). -/
def execPermute (s : State) : Host.Outcome State Fault Refusal := s.perform .permute permuteRule

end Sys2Proof.Machine
end

