-- ==== Sys2Proof/Machine/Sponge.lean ====
section
/-! DEFINITION. The sponge state machine (`spec/41_sponge.md`). -/

namespace Sys2Proof.Machine

/-- `r`, the rate of the latched algorithm. -/
def Context.rate (c : Context) : Nat := c.alg.rate

/-- `A <- KeccakF(A)`. -/
def Context.permuted (c : Context) : Context := { c with lanes := keccakF c.lanes }

/-- `A <- KeccakF(A); POS <- 0`. -/
def Context.nextBlock (c : Context) : Context := { c with lanes := keccakF c.lanes, pos := 0 }

/-- One byte of `AbsorbBytes` (R141): XOR at the cursor, advance it, and permute as soon as the block is full. -/
def absorbByte (c : Context) (b : Byte) : Context :=
  let c' : Context := { c with lanes := memXor c.lanes c.pos b, pos := c.pos + 1 }
  if c'.pos = c'.rate then c'.nextBlock else c'

/-- `AbsorbBytes(data)` (R141). -/
def absorbBytes (c : Context) (data : List Byte) : Context := data.foldl absorbByte c

/-- The context `INIT` leaves: all lanes 0, cursor 0, the algorithm latched (R142). -/
def initContext (alg : Alg) : Context := { lanes := Lanes.zero, pos := 0, phase := .absorbing, alg := alg }

/-- The padding of R146 and R147: the domain byte at the cursor, bit 63 of the last lane of the rate, and the cursor
at the rate. -/
def padBlock (c : Context) : Context :=
  { c with lanes := xorLane (memXor c.lanes c.pos c.alg.ds) (c.rate / 8 - 1) 0x8000000000000000, pos := c.rate }

/-- `FINALIZE` on the context (R146). -/
def finalizeContext (c : Context) : Context := { padBlock c with phase := .finalized }

/-- `DoAbsorbOnce(alg, data)` (R147). It leaves `PHASE` to the command that uses it. -/
def doAbsorbOnce (c : Context) (alg : Alg) (data : List Byte) : Context :=
  padBlock (absorbBytes { c with lanes := Lanes.zero, pos := 0, alg := alg } data)

/-- Before a byte is squeezed: "if the cursor equals the rate, permute and reset cursor to 0" (R149). -/
def Context.ready (c : Context) : Context := if c.pos = c.rate then c.nextBlock else c

/-- The loop of `SQUEEZE` (R149), a byte at a time: the one addressing mode is "cursor with post-increment", wrapping
"lazily on squeeze" (R154). Answers the bytes emitted and the context after them. -/
def squeezeBytes : Nat → Context → List Byte × Context
  | 0, c => ([], c)
  | n + 1, c =>
    let c' := c.ready
    let rest := squeezeBytes n { c' with pos := c'.pos + 1 }
    (memRead c'.lanes c'.pos :: rest.1, rest.2)

/-- The loop of `SQUEEZEBLOCKS` (R151): permute and emit the `r` bytes of the rate, `n` times. -/
def squeezeBlocks : Nat → Context → List Byte × Context
  | 0, c => ([], c)
  | n + 1, c =>
    let c' := c.permuted
    let rest := squeezeBlocks n c'
    (stateBytes c'.rate c'.lanes ++ rest.1, rest.2)

/-- The rule of `INIT.alg` (R142). -/
def initRule (alg : Alg) (_ : State) : Except Failure Effect :=
  .ok { ctx := initContext alg, dout := [], cout := [] }

/-- The rule of `ABSORB` (R144). -/
def absorbRule (s : State) : Except Failure Effect :=
  .ok { ctx := absorbBytes s.ctx s.txn.din, dout := [], cout := [] }

/-- The rule of `FINALIZE` (R146). -/
def finalizeRule (s : State) : Except Failure Effect :=
  .ok { ctx := finalizeContext s.ctx, dout := [], cout := [] }

/-- The rule of `ABSORB_ONCE.alg` (R148). -/
def absorbOnceRule (alg : Alg) (s : State) : Except Failure Effect :=
  .ok { ctx := { doAbsorbOnce s.ctx alg s.txn.din with phase := .finalized }, dout := [], cout := [] }

/-- The rule of `SQUEEZE` (R149), `ARG = outlen`. -/
def squeezeRule (s : State) : Except Failure Effect :=
  let r := squeezeBytes s.txn.arg s.ctx
  .ok { ctx := { r.2 with phase := .squeezing }, dout := r.1, cout := [] }

/-- The rule of `SQUEEZEBLOCKS` (R151), `ARG = nblocks`. -/
def squeezeblocksRule (s : State) : Except Failure Effect :=
  let r := squeezeBlocks s.txn.arg s.ctx
  .ok { ctx := { r.2 with phase := .squeezing }, dout := r.1, cout := [] }

/-- The rule of `RELEASE` (R152): the context of `EMPTY`. -/
def releaseRule (_ : State) : Except Failure Effect :=
  .ok { ctx := Context.empty, dout := [], cout := [] }

/-- `INIT.SHAKE128` (R142). -/
def execInitShake128 (s : State) : Host.Outcome State Fault Refusal := s.perform .initShake128 (initRule .shake128)

/-- `INIT.SHAKE256` (R142). -/
def execInitShake256 (s : State) : Host.Outcome State Fault Refusal := s.perform .initShake256 (initRule .shake256)

/-- `ABSORB` (R144). -/
def execAbsorb (s : State) : Host.Outcome State Fault Refusal := s.perform .absorb absorbRule

/-- `FINALIZE` (R146). -/
def execFinalize (s : State) : Host.Outcome State Fault Refusal := s.perform .finalize finalizeRule

/-- `ABSORB_ONCE.SHAKE128` (R148). -/
def execAbsorbOnceShake128 (s : State) : Host.Outcome State Fault Refusal :=
  s.perform .absorbOnceShake128 (absorbOnceRule .shake128)

/-- `ABSORB_ONCE.SHAKE256` (R148). -/
def execAbsorbOnceShake256 (s : State) : Host.Outcome State Fault Refusal :=
  s.perform .absorbOnceShake256 (absorbOnceRule .shake256)

/-- `SQUEEZE` (R149). -/
def execSqueeze (s : State) : Host.Outcome State Fault Refusal := s.perform .squeeze squeezeRule

/-- `SQUEEZEBLOCKS` (R151). -/
def execSqueezeblocks (s : State) : Host.Outcome State Fault Refusal := s.perform .squeezeblocks squeezeblocksRule

/-- `RELEASE` (R152). -/
def execRelease (s : State) : Host.Outcome State Fault Refusal := s.perform .release releaseRule

end Sys2Proof.Machine
end

