-- ==== Sys2Proof/Machine/HashXof.lean ====
section
/-! DEFINITION. The hash/XOF facade: the one-shot commands (`spec/42_hash_xof.md`). -/

namespace Sys2Proof.Machine

/-- `XofBody(alg, data, outlen)` (R171): whole blocks first, then the remainder of one more block. Answers the bytes
emitted. -/
def xofBody (c : Context) (alg : Alg) (data : List Byte) (outlen : Nat) : List Byte :=
  let c0 := doAbsorbOnce c alg data
  let nb := outlen / alg.rate
  let blocks := squeezeBlocks nb c0
  let rem := outlen - nb * alg.rate
  blocks.1 ++ (if 0 < rem then stateBytes rem blocks.2.permuted.lanes else [])

/-- `HashBody(alg, data)` (R175): one permutation after the padding, then the first `HASHLANES[alg]` lanes. -/
def hashBody (c : Context) (alg : Alg) (data : List Byte) : List Byte :=
  stateBytes (8 * alg.hashLanes) (doAbsorbOnce c alg data).permuted.lanes

/-- The end of a one-shot command: `Wipe()` (R178), "the same state change as `RELEASE`". -/
def oneShot (dout : List Byte) : Except Failure Effect := .ok { ctx := Context.empty, dout := dout, cout := [] }

/-- The rule of `SHAKE128` and `SHAKE256` (R172, R173), `ARG = outlen`. -/
def xofRule (alg : Alg) (s : State) : Except Failure Effect := oneShot (xofBody s.ctx alg s.txn.din s.txn.arg)

/-- The rule of `SHA3_256` and `SHA3_512` (R176, R177). -/
def hashRule (alg : Alg) (s : State) : Except Failure Effect := oneShot (hashBody s.ctx alg s.txn.din)

/-- `SHAKE128` (R172). -/
def execShake128 (s : State) : Host.Outcome State Fault Refusal := s.perform .shake128 (xofRule .shake128)

/-- `SHAKE256` (R173). -/
def execShake256 (s : State) : Host.Outcome State Fault Refusal := s.perform .shake256 (xofRule .shake256)

/-- `SHA3_256` (R176). -/
def execSha3_256 (s : State) : Host.Outcome State Fault Refusal := s.perform .sha3_256 (hashRule .sha3_256)

/-- `SHA3_512` (R177). -/
def execSha3_512 (s : State) : Host.Outcome State Fault Refusal := s.perform .sha3_512 (hashRule .sha3_512)

end Sys2Proof.Machine
end

