-- ==== Sys2Proof/Machine/PackKeys.lean ====
section
/-! DEFINITION. The bit-packing unit, part 1: the bit packer, the coefficient codecs, the public key and the secret
key (`spec/44_packing_keys.md`; the layouts are `spec/30_encoding.md` R94 to R96). -/

namespace Sys2Proof.Machine

/-! ### The bit packer -/

/-- `BitPack(u, w)`: byte `b` is `floor(S / 2^(8*b)) mod 256` of `S = sum u[j] * 2^(j*w)` (R222). -/
def bitPack (u : List Nat) (w : Nat) : List Byte :=
  (toFields 8 (u.length * w / 8) (ofFields w u)).map (BitVec.ofNat 8)

/-- `BitUnpack(bytes, w, n)` (R223). -/
def bitUnpack (b : List Byte) (w n : Nat) : List Nat := toFields w n (ofFields 8 (byteVals b))

/-! ### Codecs -/

/-- A codec (R225): the field width, the bound of a coefficient (R221), the map to a field value, the map back, and
which field values are codes. -/
structure Codec where
  width : Nat
  inBound : Int → Bool
  enc : Int → Nat
  dec : Nat → Int
  isCode : Nat → Bool

/-- The `t1` codec (R226). -/
def t1Codec : Codec :=
  { width := T1BITS
    inBound := fun c => decide (0 ≤ c ∧ c < 2 ^ 10)
    enc := fun c => c.toNat
    dec := fun u => u
    isCode := fun _ => true }

/-- The `t0` codec (R227). -/
def t0Codec (p : Params) : Codec :=
  { width := p.T0BITS
    inBound := fun c => decide (-2 ^ (p.D - 1) < c ∧ c ≤ 2 ^ (p.D - 1))
    enc := fun c => (2 ^ (p.D - 1) - c).toNat
    dec := fun u => 2 ^ (p.D - 1) - u
    isCode := fun _ => true }

/-- The `eta` codec of `s1` and `s2` (R228): "the codes are `0 .. 2*ETA`". -/
def etaCodec (p : Params) : Codec :=
  { width := p.ETABITS
    inBound := fun c => decide (-(p.ETA : Int) ≤ c ∧ c ≤ p.ETA)
    enc := fun c => (p.ETA - c).toNat
    dec := fun u => p.ETA - u
    isCode := fun u => decide (u ≤ 2 * p.ETA) }

/-- One row of `N` coefficients packed (R225). -/
def packRow (c : Codec) (row : List Int) : List Byte := bitPack (row.map c.enc) c.width

/-- Row `i` of a vector flattened row-major (R13). -/
def rowOf {α : Type} (v : List α) (n i : Nat) : List α := slice v (i * n) n

/-- `PackVec(codec, v, R)` (R225): the range check over the whole vector, then row by row. It undoes `unpackVec` on the
buffers that accepts (R238, the converse). -/
def packVec (p : Params) (c : Codec) (v : List Int) (rows : Nat) : Except Failure (List Byte) :=
  if v.all c.inBound then .ok ((List.range rows).flatMap fun i => packRow c (rowOf v p.N i)) else .error .errRange

/-- The fields of every row of a packed vector (R225). -/
def unpackFields (p : Params) (c : Codec) (b : List Byte) (rows : Nat) : List Nat :=
  (List.range rows).flatMap fun i => bitUnpack (rowOf b (p.polyBytes c.width) i) c.width p.N

/-- `UnpackVec(codec, bytes, R)` (R225): `ERR_RANGE` on a field value that is no code. It undoes `packVec` (R238). -/
def unpackVec (p : Params) (c : Codec) (b : List Byte) (rows : Nat) : Except Failure (List Int) :=
  let u := unpackFields p c b rows
  if u.all c.isCode then .ok (u.map c.dec) else .error .errRange

/-! ### Public key -/

/-- The rule of `PACK_PK` (R232; layout R95). -/
def packPkRule (s : State) : Except Failure Effect := do
  let p := s.build.params
  let t1 ← packVec p t1Codec (coeffVals s.txn.cin) p.K
  s.keep (s.txn.din ++ t1) []

/-- The rule of `UNPACK_PK` (R233). -/
def unpackPkRule (s : State) : Except Failure Effect := do
  let p := s.build.params
  let t1 ← unpackVec p t1Codec (s.txn.din.drop p.SEEDBYTES) p.K
  s.keep (s.txn.din.take p.SEEDBYTES) (toPorts t1)

/-! ### Secret key -/

/-- The six fields of a packed secret key (R234). -/
structure SkFields where
  seed : List Byte
  tr : List Byte
  key : List Byte
  e0 : List Byte
  e1 : List Byte
  e2 : List Byte
  deriving DecidableEq, Repr

/-- `SkBuffer` (R234, R96). -/
def skBuffer (o : SkOrder) (f : SkFields) : List Byte :=
  match o with
  | .doc => f.seed ++ f.tr ++ f.key ++ f.e0 ++ f.e1 ++ f.e2
  | .fips204 => f.seed ++ f.key ++ f.tr ++ f.e1 ++ f.e2 ++ f.e0

/-- `SkSplit`, which "cuts the buffer at the offsets of `30_encoding.md` rule R96 for the selected order" (R234). -/
def skSplit (p : Params) (o : SkOrder) (b : List Byte) : SkFields :=
  let sd := p.SEEDBYTES
  let tr := p.TRBYTES
  let b0 := p.skSeedBytes
  let l0 := p.K * p.POLYT0BYTES
  let l1 := p.L * p.POLYETABYTES
  let l2 := p.K * p.POLYETABYTES
  match o with
  | .doc =>
    { seed := slice b 0 sd, tr := slice b sd tr, key := slice b (sd + tr) sd
      e0 := slice b b0 l0, e1 := slice b (b0 + l0) l1, e2 := slice b (b0 + l0 + l1) l2 }
  | .fips204 =>
    { seed := slice b 0 sd, key := slice b sd sd, tr := slice b (sd + sd) tr
      e1 := slice b b0 l1, e2 := slice b (b0 + l1) l2, e0 := slice b (b0 + l1 + l2) l0 }

/-- The rule of `PACK_SK` (R235). -/
def packSkRule (s : State) : Except Failure Effect := do
  let p := s.build.params
  let din := s.txn.din
  let cin := coeffVals s.txn.cin
  let e0 ← packVec p (t0Codec p) (slice cin 0 (p.K * p.N)) p.K
  let e1 ← packVec p (etaCodec p) (slice cin (p.K * p.N) (p.L * p.N)) p.L
  let e2 ← packVec p (etaCodec p) (slice cin ((p.K + p.L) * p.N) (p.K * p.N)) p.K
  s.keep (skBuffer s.build.skOrder
    { seed := slice din 0 p.SEEDBYTES
      tr := slice din p.SEEDBYTES p.TRBYTES
      key := slice din (p.SEEDBYTES + p.TRBYTES) p.SEEDBYTES
      e0 := e0, e1 := e1, e2 := e2 }) []

/-- The rule of `UNPACK_SK` (R236): `seed ‖ tr ‖ key` and `t0 ‖ s1 ‖ s2`, "this order always". -/
def unpackSkRule (s : State) : Except Failure Effect := do
  let p := s.build.params
  let f := skSplit p s.build.skOrder s.txn.din
  let t0 ← unpackVec p (t0Codec p) f.e0 p.K
  let s1 ← unpackVec p (etaCodec p) f.e1 p.L
  let s2 ← unpackVec p (etaCodec p) f.e2 p.K
  s.keep (f.seed ++ f.tr ++ f.key) (toPorts (t0 ++ s1 ++ s2))

/-- `PACK_PK` (R232); with `execUnpackPk` the round trips of R238. -/
def execPackPk (s : State) : Host.Outcome State Fault Refusal := s.perform .packPk packPkRule

/-- `UNPACK_PK` (R233); with `execPackPk` the round trips of R238. -/
def execUnpackPk (s : State) : Host.Outcome State Fault Refusal := s.perform .unpackPk unpackPkRule

/-- `PACK_SK` (R235); with `execUnpackSk` the round trips of R238, under either `SK_ORDER`. -/
def execPackSk (s : State) : Host.Outcome State Fault Refusal := s.perform .packSk packSkRule

/-- `UNPACK_SK` (R236); with `execPackSk` the round trips of R238, under either `SK_ORDER`. -/
def execUnpackSk (s : State) : Host.Outcome State Fault Refusal := s.perform .unpackSk unpackSkRule

end Sys2Proof.Machine
end

