-- ==== Sys2Proof/Machine/PackSig.lean ====
section
/-! DEFINITION. The bit-packing unit, part 2: the `z` codec, the hint section and the signature
(`spec/45_packing_sig.md`; the layouts are `spec/30_encoding.md` R97 and R98). -/

namespace Sys2Proof.Machine

/-- The `z` codec (R260). -/
def zCodec (p : Params) : Codec :=
  { width := p.ZBITS
    inBound := fun c => decide (-((p.GAMMA1 : Int) - 1) ≤ c ∧ c ≤ p.GAMMA1)
    enc := fun c => (p.GAMMA1 - c).toNat
    dec := fun u => p.GAMMA1 - u
    isCode := fun _ => true }

/-! ### The hint section -/

/-- The columns of a row of `N` entries that hold a 1, ascending (R262). -/
def onesOf (row : List Int) : List Nat := (List.range row.length).filter fun j => row.getD j 0 = 1

/-- The cumulative counts after each row, starting from `k` (R262). -/
def countsFrom : Nat → List (List Nat) → List Nat
  | _, [] => []
  | k, r :: rs => (k + r.length) :: countsFrom (k + r.length) rs

/-- The hint section of the given columns of ones: the indices row by row, zeros in the unused capacity, then one
marker a row (R98, R262). -/
def hintSection (p : Params) (rows : List (List Nat)) : List Byte :=
  let idx := rows.flatten
  (idx ++ List.replicate (p.OMEGA - idx.length) 0 ++ countsFrom 0 rows).map (BitVec.ofNat 8)

/-- The columns of ones of each row of a hint matrix flattened row-major. -/
def hintRows (p : Params) (h : List Int) : List (List Nat) :=
  (List.range p.K).map fun i => onesOf (rowOf h p.N i)

/-- `HintEncode(h)` (R262). -/
def hintEncode (p : Params) (h : List Int) : Except Failure (List Byte) :=
  if !h.all (fun c => decide (c = 0 ∨ c = 1)) then .error .errRange
  else if h.sum > p.OMEGA then .error .errRange
  else .ok (hintSection p (hintRows p h))

/-- Check (a) of R264: neighbours strictly increase. -/
def strictlyIncreasing : List Nat → Bool
  | a :: b :: rest => decide (a < b) && strictlyIncreasing (b :: rest)
  | [_] => true
  | [] => true

/-- The row loop of `HintDecode` (R264): for each marker `c` with the count `k` before it, checks (b), (c), (a), (e).
Answers the columns of ones of each row and the last count. -/
def decodeRows (p : Params) (idx : List Nat) : Nat → List Nat → Except Failure (List (List Nat) × Nat)
  | k, [] => .ok ([], k)
  | k, c :: cs =>
    if c < k then .error .malformed
    else if c > p.OMEGA then .error .malformed
    else if !strictlyIncreasing (slice idx k (c - k)) then .error .malformed
    else if !(slice idx k (c - k)).all (fun j => decide (j < p.N)) then .error .malformed
    else do
      let rest ← decodeRows p idx c cs
      .ok (slice idx k (c - k) :: rest.1, rest.2)

/-- A row of `n` entries with ones in the given columns. -/
def rowBits (n : Nat) (cols : List Nat) : List Int := (List.range n).map fun j => if j ∈ cols then 1 else 0

/-- `HintDecode(hs)`, the checking decoder (R264); check (d), on the unused capacity, is last. -/
def hintDecode (p : Params) (hs : List Byte) : Except Failure (List Int) := do
  let idx := byteVals (slice hs 0 p.OMEGA)
  let rows ← decodeRows p idx 0 (byteVals (slice hs p.OMEGA p.K))
  if (idx.drop rows.2).all (fun b => b == 0) then .ok (rows.1.flatMap (rowBits p.N)) else .error .malformed

/-! ### The signature -/

/-- The rule of `PACK_SIG` (R266; layout R97). -/
def packSigRule (s : State) : Except Failure Effect := do
  let p := s.build.params
  let cin := coeffVals s.txn.cin
  let ez ← packVec p (zCodec p) (slice cin 0 (p.L * p.N)) p.L
  let hs ← hintEncode p (slice cin (p.L * p.N) (p.K * p.N))
  s.keep (s.txn.din ++ ez ++ hs) []

/-- The rule of `UNPACK_SIG` (R268). -/
def unpackSigRule (s : State) : Except Failure Effect := do
  let p := s.build.params
  let din := s.txn.din
  let z ← unpackVec p (zCodec p) (slice din p.CTILDEBYTES (p.L * p.POLYZBYTES)) p.L
  let h ← hintDecode p (slice din (p.CTILDEBYTES + p.L * p.POLYZBYTES) p.HINTBYTES)
  s.keep (slice din 0 p.CTILDEBYTES) (toPorts (z ++ h))

/-- `PACK_SIG` (R266). -/
def execPackSig (s : State) : Host.Outcome State Fault Refusal := s.perform .packSig packSigRule

/-- `UNPACK_SIG` (R268). -/
def execUnpackSig (s : State) : Host.Outcome State Fault Refusal := s.perform .unpackSig unpackSigRule

end Sys2Proof.Machine
end

