-- ==== Sys2Proof/Machine/Rounding.lean ====
section
/-! DEFINITION. The rounding and decomposition unit (`spec/43_rounding.md`). Arithmetic is on integers (R11); on a
non-negative divisor `/` rounds toward minus infinity and `%` answers in `[0, m)`. -/

namespace Sys2Proof.Machine

/-- A field element: `0 <= a < Q` (R190). -/
abbrev isFieldElement (p : Params) (a : Int) : Prop := 0 ≤ a ∧ a < p.Q

/-- `a mod± m` for even `m > 0`, in `(-m/2, m/2]` (R11). -/
def modPM (a m : Int) : Int :=
  let r := a % m
  if r > m / 2 then r - m else r

/-- The closed form of `power2round`, `(a0, a1)` (R192). -/
def power2round (p : Params) (a : Int) : Int × Int :=
  let a1 := (a + 2 ^ (p.D - 1) - 1) / 2 ^ p.D
  (a - a1 * 2 ^ p.D, a1)

/-- `Decompose(a)`, `(a0, a1)` (R194). -/
def decompose (p : Params) (a : Int) : Int × Int :=
  let r0 := modPM a (2 * p.GAMMA2)
  let r1 := (a - r0) / (2 * p.GAMMA2)
  if r1 = p.M then (a - p.Q, 0) else (r0, r1)

/-- The predicate of `MAKE_HINT` (R199). -/
def makeHint (p : Params) (a0 a1 : Int) : Int :=
  if a0 > p.GAMMA2 ∨ a0 < -p.GAMMA2 ∨ (a0 = -p.GAMMA2 ∧ a1 ≠ 0) then 1 else 0

/-- The corrected high part of `USE_HINT` (R202). -/
def useHint (p : Params) (a hint : Int) : Int :=
  let d := decompose p a
  if hint = 0 then d.2
  else if d.1 > 0 then (d.2 + 1) % p.M
  else (d.2 - 1) % p.M

/-- The rule of `POWER2ROUND` (R192). -/
def power2roundRule (s : State) : Except Failure Effect :=
  let p := s.build.params
  match coeffVals s.txn.cin with
  | [a] =>
    if isFieldElement p a then s.keep [] (toPorts [(power2round p a).1, (power2round p a).2]) else .error .errRange
  | _ => .error .errLength

/-- The rule of `DECOMPOSE` (R195). -/
def decomposeRule (s : State) : Except Failure Effect :=
  let p := s.build.params
  match coeffVals s.txn.cin with
  | [a] =>
    if isFieldElement p a then s.keep [] (toPorts [(decompose p a).1, (decompose p a).2]) else .error .errRange
  | _ => .error .errLength

/-- The rule of `MAKE_HINT` (R199). -/
def makeHintRule (s : State) : Except Failure Effect :=
  let p := s.build.params
  match coeffVals s.txn.cin with
  | [a0, a1] => if 0 ≤ a1 ∧ a1 < p.M then s.keep [] (toPorts [makeHint p a0 a1]) else .error .errRange
  | _ => .error .errLength

/-- The rule of `USE_HINT` (R202). -/
def useHintRule (s : State) : Except Failure Effect :=
  let p := s.build.params
  match coeffVals s.txn.cin with
  | [a, hint] =>
    if isFieldElement p a ∧ (hint = 0 ∨ hint = 1) then s.keep [] (toPorts [useHint p a hint])
    else .error .errRange
  | _ => .error .errLength

/-- `POWER2ROUND` (R192). -/
def execPower2round (s : State) : Host.Outcome State Fault Refusal := s.perform .power2round power2roundRule

/-- `DECOMPOSE` (R195). -/
def execDecompose (s : State) : Host.Outcome State Fault Refusal := s.perform .decompose decomposeRule

/-- `MAKE_HINT` (R199). -/
def execMakeHint (s : State) : Host.Outcome State Fault Refusal := s.perform .makeHint makeHintRule

/-- `USE_HINT` (R202). -/
def execUseHint (s : State) : Host.Outcome State Fault Refusal := s.perform .useHint useHintRule

end Sys2Proof.Machine
end

