-- ==== Sys2Proof/Machine/System.lean ====
section
/-! DEFINITION. The status read (`spec/30_encoding.md` R88). -/

namespace Sys2Proof.Machine

/-- The rule of `RDSTAT` (R88): the bytes `[PHASE, POS, ALG, FAULT]`. -/
def rdstatRule (s : State) : Except Failure Effect :=
  s.keep [s.ctx.phase.code, BitVec.ofNat 8 s.ctx.pos, s.ctx.alg.code, faultByte s.fault] []

/-- `RDSTAT` (R88). -/
def execRdstat (s : State) : Host.Outcome State Fault Refusal := s.perform .rdstat rdstatRule

end Sys2Proof.Machine
end

