-- ==== Sys2Proof/Machine/Dispatch.lean ====
section
/-! DEFINITION. One arm per command (`spec/30_encoding.md` R83). -/

namespace Sys2Proof.Machine

def exec (i : Instr) (s : State) : Host.Outcome State Fault Refusal :=
  match i with
  | .permute => Sys2Proof.Machine.execPermute s
  | .rdstat => Sys2Proof.Machine.execRdstat s
  | .initShake128 => Sys2Proof.Machine.execInitShake128 s
  | .initShake256 => Sys2Proof.Machine.execInitShake256 s
  | .absorb => Sys2Proof.Machine.execAbsorb s
  | .finalize => Sys2Proof.Machine.execFinalize s
  | .absorbOnceShake128 => Sys2Proof.Machine.execAbsorbOnceShake128 s
  | .absorbOnceShake256 => Sys2Proof.Machine.execAbsorbOnceShake256 s
  | .squeeze => Sys2Proof.Machine.execSqueeze s
  | .squeezeblocks => Sys2Proof.Machine.execSqueezeblocks s
  | .release => Sys2Proof.Machine.execRelease s
  | .shake128 => Sys2Proof.Machine.execShake128 s
  | .shake256 => Sys2Proof.Machine.execShake256 s
  | .sha3_256 => Sys2Proof.Machine.execSha3_256 s
  | .sha3_512 => Sys2Proof.Machine.execSha3_512 s
  | .power2round => Sys2Proof.Machine.execPower2round s
  | .decompose => Sys2Proof.Machine.execDecompose s
  | .makeHint => Sys2Proof.Machine.execMakeHint s
  | .useHint => Sys2Proof.Machine.execUseHint s
  | .packPk => Sys2Proof.Machine.execPackPk s
  | .unpackPk => Sys2Proof.Machine.execUnpackPk s
  | .packSk => Sys2Proof.Machine.execPackSk s
  | .unpackSk => Sys2Proof.Machine.execUnpackSk s
  | .packSig => Sys2Proof.Machine.execPackSig s
  | .unpackSig => Sys2Proof.Machine.execUnpackSig s

end Sys2Proof.Machine
end

