-- ==== Sys2Proof/Decode.lean ====
section
/-! DEFINITION. The decoder of the command word, total on all 2^32 words and rejecting by name, and the encoder.

`spec/30_encoding.md` R81 (the fields), R82 (`ALG`), R83 (the opcode map), R87 (illegal words). The decoder reads the
fields; the encoder writes out the `match` words of R83. -/

namespace Sys2Proof

/-- Why a command word is illegal (the classes R87 lists). -/
inductive IllegalWord where
  /-- A bit of the field `ZERO`, [31:10], is not 0. -/
  | reservedBits
  /-- The field `ALG` has a value that its `OPC` does not take. -/
  | badAlg
  /-- The field `OPC` is not listed in R83. -/
  | unknownOpcode
  deriving DecidableEq, Repr

/-- Field `OPC`, bits [7:0] (R81). -/
def opcField (w : CmdWord) : BitVec 8 := w.extractLsb' 0 8

/-- Field `ALG`, bits [9:8] (R81). -/
def algField (w : CmdWord) : BitVec 2 := w.extractLsb' 8 2

/-- Field `ZERO`, bits [31:10] (R81). -/
def zeroField (w : CmdWord) : BitVec 22 := w.extractLsb' 10 22

/-- The command of an `OPC` whose `ALG` field must be 0 (R83). -/
def decodePlain (alg : BitVec 2) (i : Instr) : Except IllegalWord Instr :=
  if alg = 0 then .ok i else .error .badAlg

/-- The commands of an `OPC` that takes `ALG` 0 or 1 (R82, R83). -/
def decodeXof (alg : BitVec 2) (i128 i256 : Instr) : Except IllegalWord Instr :=
  if alg = 0 then .ok i128 else if alg = 1 then .ok i256 else .error .badAlg

/-- The one-shot commands, `OPC` 0x20, selected by `ALG` (R82, R83). -/
def decodeOneShot (alg : BitVec 2) : Instr :=
  if alg = 0 then .shake128 else if alg = 1 then .shake256 else if alg = 2 then .sha3_256 else .sha3_512

/-- The opcode map of R83 read from the fields `OPC` and `ALG`. -/
def decodeFields (opc : BitVec 8) (alg : BitVec 2) : Except IllegalWord Instr :=
  if opc = 0x01 then decodePlain alg .permute
  else if opc = 0x02 then decodePlain alg .rdstat
  else if opc = 0x10 then decodeXof alg .initShake128 .initShake256
  else if opc = 0x11 then decodePlain alg .absorb
  else if opc = 0x12 then decodePlain alg .finalize
  else if opc = 0x13 then decodeXof alg .absorbOnceShake128 .absorbOnceShake256
  else if opc = 0x14 then decodePlain alg .squeeze
  else if opc = 0x15 then decodePlain alg .squeezeblocks
  else if opc = 0x16 then decodePlain alg .release
  else if opc = 0x20 then .ok (decodeOneShot alg)
  else if opc = 0x30 then decodePlain alg .power2round
  else if opc = 0x31 then decodePlain alg .decompose
  else if opc = 0x32 then decodePlain alg .makeHint
  else if opc = 0x33 then decodePlain alg .useHint
  else if opc = 0x40 then decodePlain alg .packPk
  else if opc = 0x41 then decodePlain alg .unpackPk
  else if opc = 0x42 then decodePlain alg .packSk
  else if opc = 0x43 then decodePlain alg .unpackSk
  else if opc = 0x44 then decodePlain alg .packSig
  else if opc = 0x45 then decodePlain alg .unpackSig
  else .error .unknownOpcode

/-- The decoder: "accepts a word only if it equals one of the `match` values of rule R83 in all 32 bits" (R81);
every other word is illegal (R87). -/
def decode (w : CmdWord) : Except IllegalWord Instr :=
  if zeroField w = 0 then decodeFields (opcField w) (algField w) else .error .reservedBits

/-- The encoder: the column "word (`match`)" of R83. -/
def encode : Instr → CmdWord
  | .permute => 0x00000001
  | .rdstat => 0x00000002
  | .initShake128 => 0x00000010
  | .initShake256 => 0x00000110
  | .absorb => 0x00000011
  | .finalize => 0x00000012
  | .absorbOnceShake128 => 0x00000013
  | .absorbOnceShake256 => 0x00000113
  | .squeeze => 0x00000014
  | .squeezeblocks => 0x00000015
  | .release => 0x00000016
  | .shake128 => 0x00000020
  | .shake256 => 0x00000120
  | .sha3_256 => 0x00000220
  | .sha3_512 => 0x00000320
  | .power2round => 0x00000030
  | .decompose => 0x00000031
  | .makeHint => 0x00000032
  | .useHint => 0x00000033
  | .packPk => 0x00000040
  | .unpackPk => 0x00000041
  | .packSk => 0x00000042
  | .unpackSk => 0x00000043
  | .packSig => 0x00000044
  | .unpackSig => 0x00000045

/-- The command word whose low `nbits` bits are `w` and whose other bits are 0. -/
def tableWord (nbits w : Nat) : CmdWord := BitVec.ofNat 32 (w % 2 ^ nbits)

/-- The instruction the decoder reads from a row's bits, numbered as `spec/opcode_table.json` numbers them: a command
is one 32-bit word (R90), so bit `k` of `w` is bit `k` of the word. A row with bits above 31 is no command word. -/
def decodeTableWord (nbits w : Nat) : Option Instr :=
  if w % 2 ^ nbits < 2 ^ 32 then (decode (tableWord nbits w)).toOption else none

end Sys2Proof
end

