-- ==== Sys2Proof/Machine/Port.lean ====
section
/-! DEFINITION. The command port: what the host does next reaches the core here (`spec/00_scope.md` R15,
`spec/20_memory.md` R64, `spec/70_reset_and_hazards.md` R330). `Machine/Step.lean` only calls these. -/

namespace Sys2Proof.Machine

/-- The command `t` begins: its operands are sampled, and `rest` is what the host does afterwards (R15, R64). -/
def State.begin (s : State) (t : Transaction) (rest : List HostEvent) : State := { s with txn := t, pending := rest }

/-- The reset input: every piece of R20's state takes its value of R36, and the ports are empty. The build does not
change (R330). -/
def State.applyReset (s : State) (rest : List HostEvent) : State :=
  { State.resetOf s.build with pending := rest }

/-- The host's events with `w` as the command word of the next transaction: in the transaction that comes next, if
there is one, else in a new one with no operands (R91). -/
def putWord (w : CmdWord) : List HostEvent → List HostEvent
  | .command t :: rest => .command { t with cmd := w } :: rest
  | .reset :: rest => .command (Transaction.bare w) :: .reset :: rest
  | [] => [.command (Transaction.bare w)]

end Sys2Proof.Machine
end

