-- ==== Sys2Proof/Machine/Step.lean ====
section
/-! DEFINITION. One step: the core performs the next thing the host does (`spec/00_scope.md` R15). -/

namespace Sys2Proof.Machine

/-- One step. A command is one atomic step: its word is decoded, an illegal one is refused with `ERR_OPCODE` (R85
step 1), and the rest is the command's own meaning. With nothing pending the core "is idle and keeps all its state"
(R309). -/
def step (s : State) : Host.Outcome State Fault Refusal :=
  match s.pending with
  | [] => .next s
  | .reset :: rest => .next (s.applyReset rest)
  | .command t :: rest =>
    match decode t.cmd with
    | .ok i => exec i (s.begin t rest)
    | .error _ => (s.begin t rest).performIllegal

/-- `s` with the instruction of the bits `w` as the command word the next step takes (log entry 4). -/
def State.withFetchWord (s : State) (nbits w : Nat) : State :=
  { s with pending := putWord (tableWord nbits w) s.pending }

end Sys2Proof.Machine
end

