-- ==== Sys2Proof/Safety.lean ====
section
/-! DEFINITION. The terms claims use: the length table of `spec/30_encoding.md` R84 and the phase table of
`spec/10_state.md` R26, each written out from the spec and independent of the checks the machine makes; the invariant of
the context (R25); what a fault-free run is (`spec/60_exceptions.md` R302); and, in `Sys2Proof.Claims`, the words of the
statements about responses, blocks, and packed buffers. The machine uses none of these. -/

namespace Sys2Proof

open Machine

/-- One row of R84's table: the length `DIN` must have (`none` for "any"), the length `CIN` must have, and the lengths
of `DOUT` and `COUT` in an `OK` response. -/
structure LengthRow where
  din : Option Nat
  cin : Nat
  dout : Nat
  cout : Nat
  deriving DecidableEq, Repr

/-- R84's table, row by row, for `ARG = n` and `r = RATE[ALG]` of the latched algorithm. A dash is 0. -/
def Instr.lengthRow (p : Params) (r n : Nat) : Instr → LengthRow
  | .permute => ⟨some 200, 0, 200, 0⟩
  | .rdstat => ⟨some 0, 0, 4, 0⟩
  | .initShake128 => ⟨some 0, 0, 0, 0⟩
  | .initShake256 => ⟨some 0, 0, 0, 0⟩
  | .absorb => ⟨none, 0, 0, 0⟩
  | .finalize => ⟨some 0, 0, 0, 0⟩
  | .absorbOnceShake128 => ⟨none, 0, 0, 0⟩
  | .absorbOnceShake256 => ⟨none, 0, 0, 0⟩
  | .squeeze => ⟨some 0, 0, n, 0⟩
  | .squeezeblocks => ⟨some 0, 0, n * r, 0⟩
  | .release => ⟨some 0, 0, 0, 0⟩
  | .shake128 => ⟨none, 0, n, 0⟩
  | .shake256 => ⟨none, 0, n, 0⟩
  | .sha3_256 => ⟨none, 0, 32, 0⟩
  | .sha3_512 => ⟨none, 0, 64, 0⟩
  | .power2round => ⟨some 0, 1, 0, 2⟩
  | .decompose => ⟨some 0, 1, 0, 2⟩
  | .makeHint => ⟨some 0, 2, 0, 1⟩
  | .useHint => ⟨some 0, 2, 0, 1⟩
  | .packPk => ⟨some p.SEEDBYTES, p.K * p.N, p.PKBYTES, 0⟩
  | .unpackPk => ⟨some p.PKBYTES, 0, p.SEEDBYTES, p.K * p.N⟩
  | .packSk => ⟨some (2 * p.SEEDBYTES + p.TRBYTES), (2 * p.K + p.L) * p.N, p.SKBYTES, 0⟩
  | .unpackSk => ⟨some p.SKBYTES, 0, 2 * p.SEEDBYTES + p.TRBYTES, (2 * p.K + p.L) * p.N⟩
  | .packSig => ⟨some p.CTILDEBYTES, (p.L + p.K) * p.N, p.SIGBYTES, 0⟩
  | .unpackSig => ⟨some p.SIGBYTES, 0, p.CTILDEBYTES, (p.L + p.K) * p.N⟩

/-- One entry of R26's table: the phase a command leaves when it succeeds in the phase `ph`, `none` where the table has a
dash (refused with `ERR_PHASE`). The cursor condition of `SQUEEZEBLOCKS` is not part of it. -/
def Instr.phaseEntry (i : Instr) (ph : Phase) : Option Phase :=
  match i with
  | .initShake128 | .initShake256 => some .absorbing
  | .absorb =>
    match ph with
    | .absorbing => some .absorbing
    | .empty | .finalized | .squeezing => none
  | .finalize =>
    match ph with
    | .absorbing => some .finalized
    | .empty | .finalized | .squeezing => none
  | .absorbOnceShake128 | .absorbOnceShake256 => some .finalized
  | .squeeze | .squeezeblocks =>
    match ph with
    | .finalized | .squeezing => some .squeezing
    | .empty | .absorbing => none
  | .release | .shake128 | .shake256 | .sha3_256 | .sha3_512 => some .empty
  | .permute | .rdstat | .power2round | .decompose | .makeHint | .useHint | .packPk | .unpackPk | .packSk
  | .unpackSk | .packSig | .unpackSig => some ph

/-- The commands that work on their own operands only: they leave the context alone (R35 (a), R23). -/
def Instr.stateless : Instr → Bool
  | .permute | .rdstat | .power2round | .decompose | .makeHint | .useHint | .packPk | .unpackPk | .packSk
  | .unpackSk | .packSig | .unpackSig => true
  | .initShake128 | .initShake256 | .absorb | .finalize | .absorbOnceShake128 | .absorbOnceShake256 | .squeeze
  | .squeezeblocks | .release | .shake128 | .shake256 | .sha3_256 | .sha3_512 => false

/-- The four one-shot commands of `spec/42_hash_xof.md`. -/
def Instr.oneShot : Instr → Bool
  | .shake128 | .shake256 | .sha3_256 | .sha3_512 => true
  | .permute | .rdstat | .initShake128 | .initShake256 | .absorb | .finalize | .absorbOnceShake128
  | .absorbOnceShake256 | .squeeze | .squeezeblocks | .release | .power2round | .decompose | .makeHint | .useHint
  | .packPk | .unpackPk | .packSk | .unpackSk | .packSig | .unpackSig => false

end Sys2Proof

namespace Sys2Proof.Machine

/-- R25's table: what `POS`, `A` and `ALG` are in each phase, `r = RATE[ALG]`. -/
def Context.Inv (c : Context) : Prop :=
  match c.phase with
  | .empty => c.pos = 0 ∧ c.lanes = Lanes.zero ∧ c.alg = .shake128
  | .absorbing => c.pos < c.alg.rate ∧ c.alg.isXof = true
  | .finalized => c.pos = c.alg.rate ∧ c.alg.isXof = true
  | .squeezing => 1 ≤ c.pos ∧ c.pos ≤ c.alg.rate ∧ c.alg.isXof = true

/-- The state is one the spec describes: its context meets R25. -/
def State.Inv (s : State) : Prop := s.ctx.Inv

/-- Whether the last response is a fault (R89, R291). -/
def State.lastIsFault (s : State) : Bool :=
  match s.response with
  | some r => r.status.isFault
  | none => false

/-- The host issues commands only: no reset is pending. -/
def State.CommandsOnly (s : State) : Prop := ∀ e ∈ s.pending, e ≠ .reset

/-- `n` steps of `s` end in `t`, and the response after each of them is no fault (R302). -/
inductive FaultFreeRun : Nat → State → State → Prop where
  | done (s : State) : FaultFreeRun 0 s s
  | step {n : Nat} {s s' t : State} (h : step s = .next s') (hf : s'.lastIsFault = false)
      (rest : FaultFreeRun n s' t) : FaultFreeRun (n + 1) s t

end Sys2Proof.Machine

namespace Sys2Proof.Claims

open Sys2Proof.Machine

/-! ### Responses -/

/-- `i` performed in `s` answers `OK` with these results, leaves the context `c`, and changes nothing else. -/
def Answers (i : Instr) (s : State) (c : Context) (dout : List Byte) (cout : List Coeff) : Prop :=
  exec i s = .next { s with ctx := c, response := some { status := .ok, dout := dout, cout := cout } }

/-- `i` performed in `s` raises the fault `f`: `FAULT` is set, nothing is delivered, and nothing else changes. -/
def Faults (i : Instr) (s : State) (f : Failure) : Prop :=
  exec i s = .next { s with fault := true, response := some { status := .failed f, dout := [], cout := [] } }

/-- `i` performed in `s` answers `MALFORMED`: nothing is delivered, and nothing else changes, `FAULT` included. -/
def Malforms (i : Instr) (s : State) : Prop :=
  exec i s = .next { s with response := some { status := .failed .malformed, dout := [], cout := [] } }

/-- `n` steps from `s` end in `t`. -/
def Runs : Nat → State → State → Prop
  | 0, s, t => s = t
  | n + 1, s, t => ∃ u, step s = .next u ∧ Runs n u t

/-- The host issues the command word `w` with `ARG = arg` and `DIN = din`. -/
def issue (w : CmdWord) (arg : Nat) (din : List Byte) : HostEvent :=
  .command { cmd := w, arg := arg, din := din, cin := [] }

/-! ### The table of R83 -/

/-- The column "word (`match`)" of R83 beside its mnemonic. -/
def opcodeMap : List (CmdWord × Instr) :=
  [(0x00000001, .permute), (0x00000002, .rdstat), (0x00000010, .initShake128), (0x00000110, .initShake256),
   (0x00000011, .absorb), (0x00000012, .finalize), (0x00000013, .absorbOnceShake128),
   (0x00000113, .absorbOnceShake256), (0x00000014, .squeeze), (0x00000015, .squeezeblocks),
   (0x00000016, .release), (0x00000020, .shake128), (0x00000120, .shake256)]
  ++ [(0x00000220, .sha3_256), (0x00000320, .sha3_512), (0x00000030, .power2round), (0x00000031, .decompose),
   (0x00000032, .makeHint), (0x00000033, .useHint), (0x00000040, .packPk), (0x00000041, .unpackPk),
   (0x00000042, .packSk), (0x00000043, .unpackSk), (0x00000044, .packSig), (0x00000045, .unpackSig)]

/-- The operation codes R83 lists. -/
def opcodes : List (BitVec 8) :=
  [0x01, 0x02, 0x10, 0x11, 0x12, 0x13, 0x14, 0x15, 0x16, 0x20, 0x30, 0x31, 0x32, 0x33, 0x40, 0x41, 0x42, 0x43,
   0x44, 0x45]

/-! ### Blocks -/

/-- `a` with a block of at most 200 bytes XORed into its first bytes, lane by lane in the byte order of R54. -/
def xorBlock (a : Lanes) (block : List Byte) : Lanes := Vector.ofFn fun j => a[j] ^^^ (lanesOfBytes block)[j]

/-- The lanes after the blocks `0 .. q` of `r` bytes of `data` are XORed into `a`, with a permutation between one block
and the next and none after the last (R93, R141). -/
def absorbed (r : Nat) (a : Lanes) (data : List Byte) : Nat → Lanes
  | 0 => xorBlock a (slice data 0 r)
  | q + 1 => xorBlock (keccakF (absorbed r a data q)) (slice data ((q + 1) * r) r)

/-- `n` bytes of 0. -/
def zeros (n : Nat) : List Byte := List.replicate n 0

/-- The pad of R93, `r - q` bytes, for the domain byte `d`. -/
def pad (r q : Nat) (d : Byte) : List Byte :=
  if 2 ≤ r - q then [d] ++ zeros (r - q - 2) ++ [0x80] else [d ^^^ 0x80]

/-- The padded message `P` of R93. -/
def padded (alg : Alg) (m : List Byte) : List Byte := m ++ pad alg.rate (m.length % alg.rate) alg.ds

/-- The lanes after the message `m` is absorbed and padded under `alg`: the blocks of `P`, permuting after every block
but the last (R93). -/
def finalLanes (alg : Alg) (m : List Byte) : Lanes :=
  absorbed alg.rate Lanes.zero (padded alg m) (m.length / alg.rate)

/-- Byte `k` of the output stream that follows the lanes `a` (R150): state byte `k mod r` of `KeccakF` applied
`floor(k / r)` times. -/
def streamByte (r : Nat) (a : Lanes) (k : Nat) : Byte := memRead (keccakF^[k / r] a) (k % r)

/-! ### The permutation -/

/-- `C[x]` of R122. -/
def column (a : Lanes) (x : Fin 5) : Lane :=
  a[x.val]'(by omega) ^^^ a[x.val + 5]'(by omega) ^^^ a[x.val + 10]'(by omega) ^^^ a[x.val + 15]'(by omega)
    ^^^ a[x.val + 20]'(by omega)

/-- The lane at column `x` and row `y` (R121). -/
def laneXY (a : Lanes) (x y : Fin 5) : Lane := a[x.val + 5 * y.val]'(by omega)

/-- The table of R123, `RHO[x][y]`. -/
def rhoTable : List (List Nat) :=
  [[0, 36, 3, 41, 18], [1, 44, 10, 45, 2], [62, 6, 43, 15, 61], [28, 55, 25, 21, 56], [27, 20, 39, 8, 14]]

/-- The walk of R123's generating rule: the point `(x, y)` after `t` moves from `(1, 0)`. -/
def rhoPoint : Nat → Nat × Nat
  | 0 => (1, 0)
  | t + 1 => ((rhoPoint t).2, (2 * (rhoPoint t).1 + 3 * (rhoPoint t).2) % 5)

/-- One step of the shift register of R126, `x^8 + x^6 + x^5 + x^4 + 1`, bit `i` being the coefficient of `x^i`. -/
def lfsrStep (v : BitVec 8) : BitVec 8 := (v <<< 1) ^^^ (if v.getLsbD 7 then 0x71 else 0)

/-- `rc(t)` of R126. -/
def rc (t : Nat) : Bool := ((lfsrStep^[t % 255]) 0x01).getLsbD 0

/-- The flat destination table of R124. -/
def piDst : List Nat := [0, 10, 20, 5, 15, 16, 1, 11, 21, 6, 7, 17, 2, 12, 22, 23, 8, 18, 3, 13, 14, 24, 9, 19, 4]

/-! ### Rounding -/

/-- `(a0, a1)` is `Decompose(a)` as R194 defines it: `r0` in `(-GAMMA2, GAMMA2]` and `r1` with `a = r1*2*GAMMA2 + r0`,
and the wrap-around branch where `r1 = M`. -/
def Decomposes (p : Params) (a a0 a1 : Int) : Prop :=
  ∃ r0 r1 : Int, a = r1 * (2 * p.GAMMA2) + r0 ∧ -(p.GAMMA2 : Int) < r0 ∧ r0 ≤ p.GAMMA2 ∧
    ((r1 = p.M ∧ a0 = a - p.Q ∧ a1 = 0) ∨ (r1 ≠ p.M ∧ a0 = r0 ∧ a1 = r1))

/-! ### Packed buffers -/

/-- Bit `k` of a buffer's bit string: bit `k mod 8` of byte `floor(k / 8)` (R94). -/
def bufferBit (b : List Byte) (k : Nat) : Bool := (b.getD (k / 8) 0).getLsbD (k % 8)

/-- Field `j` of `w` bits of the packed polynomial at byte offset `off` holds `u` (R94): bit positions `j*w` to
`j*w + w - 1`, least significant bit first. -/
def HoldsField (b : List Byte) (off w j u : Nat) : Prop :=
  u < 2 ^ w ∧ ∀ m, m < w → bufferBit b (8 * off + (j * w + m)) = u.testBit m

/-- The byte offsets of the six fields of a packed secret key (R96). -/
structure SkOffsets where
  seed : Nat
  tr : Nat
  key : Nat
  t0 : Nat
  s1 : Nat
  s2 : Nat
  deriving DecidableEq, Repr

/-- The table of R96 for `SK_ORDER = DOC`, and the same six fields in the order of `SK_ORDER = FIPS204`. -/
def skOffsets (p : Params) (o : SkOrder) : SkOffsets :=
  let b0 := 2 * p.SEEDBYTES + p.TRBYTES
  match o with
  | .doc =>
    { seed := 0, tr := p.SEEDBYTES, key := p.SEEDBYTES + p.TRBYTES, t0 := b0, s1 := b0 + p.K * p.POLYT0BYTES,
      s2 := b0 + p.K * p.POLYT0BYTES + p.L * p.POLYETABYTES }
  | .fips204 =>
    { seed := 0, key := p.SEEDBYTES, tr := 2 * p.SEEDBYTES, s1 := b0, s2 := b0 + p.L * p.POLYETABYTES,
      t0 := b0 + p.L * p.POLYETABYTES + p.K * p.POLYETABYTES }

/-- The integer of coefficient `f` of a coefficient sequence. -/
def coeffAt (c : List Coeff) (f : Nat) : Int := (c.getD f 0).toInt

/-- Every coefficient of `c` is in `[lo, hi]`. -/
def Within (lo hi : Int) (c : List Coeff) : Prop := ∀ w ∈ c, lo ≤ w.toInt ∧ w.toInt ≤ hi

/-- The bounds of R221 on the operands of `PACK_SK`: `t0` in `(-2^(D-1), 2^(D-1)]`, `s1` and `s2` in `[-ETA, ETA]`. -/
def SkBounds (p : Params) (c : List Coeff) : Prop :=
  Within (-2 ^ (p.D - 1) + 1) (2 ^ (p.D - 1)) (c.take (p.K * p.N)) ∧
    Within (-(p.ETA : Int)) p.ETA (c.drop (p.K * p.N))

/-- The bounds of R221 on the operands of `PACK_SIG`: `z` in `[-(GAMMA1-1), GAMMA1]`, every entry of `h` 0 or 1, and at
most `OMEGA` ones. -/
def SigBounds (p : Params) (c : List Coeff) : Prop :=
  Within (-((p.GAMMA1 : Int) - 1)) p.GAMMA1 (c.take (p.L * p.N)) ∧
    (∀ w ∈ c.drop (p.L * p.N), w = 0 ∨ w = 1) ∧ (c.drop (p.L * p.N)).count 1 ≤ p.OMEGA

/-- The offset `HB` of the hint section (R97). -/
def hintOffset (p : Params) : Nat := p.CTILDEBYTES + p.L * p.POLYZBYTES

/-- Byte `m` of the hint section of a packed signature (R98). -/
def hintByte (p : Params) (b : List Byte) (m : Nat) : Nat := (b.getD (hintOffset p + m) 0).toNat

/-- The cumulative count before row `i`: 0 for row 0, else the marker of row `i - 1` (R98, R264). -/
def countBefore (p : Params) (b : List Byte) : Nat → Nat
  | 0 => 0
  | i + 1 => hintByte p b (p.OMEGA + i)

/-- The five checks of R264 on the hint section of a packed signature: (b), (c), (a), (e) on every row, then (d). -/
def HintWellFormed (p : Params) (b : List Byte) : Prop :=
  (∀ i, i < p.K →
    countBefore p b i ≤ countBefore p b (i + 1) ∧ countBefore p b (i + 1) ≤ p.OMEGA ∧
    (∀ j, countBefore p b i < j → j < countBefore p b (i + 1) → hintByte p b (j - 1) < hintByte p b j) ∧
    (∀ j, countBefore p b i ≤ j → j < countBefore p b (i + 1) → hintByte p b j < p.N)) ∧
  ∀ j, countBefore p b p.K ≤ j → j < p.OMEGA → hintByte p b j = 0

/-- `c` is a "signed 32-bit integer" (R11): the coefficient port carries it (R31). -/
def OnPort (c : Int) : Prop := -2 ^ 31 ≤ c ∧ c < 2 ^ 31

/-- Every coefficient the unpacking command `i` can deliver is a signed 32-bit integer (R31). For `UNPACK_PK` this asks
nothing. P1 to P7 alone do not bound `ETA` and `GAMMA1` (log entry 5); the three columns of R7 meet this. -/
def FitsPort (p : Params) (i : Instr) : Prop :=
  (i = .unpackSk → p.ETA < 2 ^ 31) ∧ (i = .unpackSig → p.GAMMA1 < 2 ^ 31)

end Sys2Proof.Claims
end

