-- ==== Sys2Proof/Certificates/Slice0/Obligations.lean ====
section
/-! DEFINITION. The statements for the provers. The words they are said in are `Sys2Proof/Safety.lean`'s.

Where a statement speaks of a command's result it gives the whole next state, as `s` with the fields that change: what
is not named there is unchanged, which is the command's frame. No statement assumes `FAULT = 0`. -/

section Statements

open Sys2Proof Sys2Proof.Machine Sys2Proof.Claims

/-! ### Encoding and the step -/

/-- R81, R83: the decoder and the encoder agree on every word and every command. -/
def Obligations.DecodeEncodeAgree : Prop := ∀ (w : CmdWord) (i : Instr), decode w = .ok i ↔ encode i = w

/-- R83: the decoder reads exactly the rows of the opcode map, and "any word not in this table is illegal". -/
def Obligations.OpcodeMap : Prop :=
  (∀ (w : CmdWord) (i : Instr), decode w = .ok i ↔ (w, i) ∈ opcodeMap) ∧
  (∀ w : CmdWord, (∃ e, decode w = .error e) ↔ ∀ i, (w, i) ∉ opcodeMap) ∧
  opcodeMap.length = 25 ∧ ∀ i : Instr, ∃ w, (w, i) ∈ opcodeMap

/-- R81, R83: one word of each family, written out as `ZERO` (22 bits), `ALG` (2 bits), `OPC` (8 bits). -/
def Obligations.SampleWordsDecode : Prop :=
  decode (0b0000000000000000000000#22 ++ 0b00#2 ++ 0b00000001#8) = .ok .permute ∧
  decode (0b0000000000000000000000#22 ++ 0b00#2 ++ 0b00000010#8) = .ok .rdstat ∧
  decode (0b0000000000000000000000#22 ++ 0b01#2 ++ 0b00010011#8) = .ok .absorbOnceShake256 ∧
  decode (0b0000000000000000000000#22 ++ 0b10#2 ++ 0b00100000#8) = .ok .sha3_256 ∧
  decode (0b0000000000000000000000#22 ++ 0b00#2 ++ 0b00110001#8) = .ok .decompose ∧
  decode (0b0000000000000000000000#22 ++ 0b00#2 ++ 0b01000010#8) = .ok .packSk ∧
  decode (0b0000000000000000000000#22 ++ 0b00#2 ++ 0b01000101#8) = .ok .unpackSig

/-- R87, R294: which words are illegal, by their fields, and that a transaction carrying one ends with `ERR_OPCODE` "and
no other effect than `FAULT <- 1`", whatever the phase and the operands. -/
def Obligations.IllegalWords : Prop :=
  (∀ w : CmdWord, (∃ e, decode w = .error e) ↔
    w.extractLsb' 10 22 ≠ 0 ∨
    (w.extractLsb' 8 2 ≠ 0 ∧ w.extractLsb' 0 8 ≠ 0x10 ∧ w.extractLsb' 0 8 ≠ 0x13 ∧ w.extractLsb' 0 8 ≠ 0x20) ∨
    ((w.extractLsb' 8 2 = 2 ∨ w.extractLsb' 8 2 = 3) ∧ (w.extractLsb' 0 8 = 0x10 ∨ w.extractLsb' 0 8 = 0x13)) ∨
    w.extractLsb' 0 8 ∉ opcodes) ∧
  (∃ e, decode 0 = .error e) ∧
  ∀ (s : State) (t : Transaction) (rest : List HostEvent) (e : IllegalWord), s.build.params.Ok →
    s.pending = .command t :: rest → decode t.cmd = .error e →
    step s = .next { s with txn := t, pending := rest, fault := true,
                            response := some { status := .failed .errOpcode, dout := [], cout := [] } }

/-- R15, R64, R309: a step takes the host's next transaction and performs the command its word decodes to, on that
transaction; the reset input is taken between commands; with nothing pending the core "is idle and keeps all its state".
How a transaction, a reset and a build stand in `State` is the model's (log entries 1 and 3). -/
def Obligations.StepPerformsCommand : Prop :=
  (∀ (s : State) (t : Transaction) (rest : List HostEvent) (i : Instr),
    s.pending = .command t :: rest → decode t.cmd = .ok i →
    step s = exec i { s with txn := t, pending := rest }) ∧
  (∀ (s : State) (rest : List HostEvent), s.pending = .reset :: rest →
    ∃ t, step s = .next t ∧ t.build = s.build ∧ t.pending = rest ∧ t.response = none) ∧
  ∀ s : State, s.pending = [] → step s = .next s

/-- R36: what the reset input leaves. `State.reset` has those values, and a reset gives them again in every state. -/
def Obligations.ResetValues : Prop :=
  (∀ i : Fin 25, State.reset.ctx.lanes[i] = 0) ∧ State.reset.ctx.pos = 0 ∧ State.reset.ctx.phase = .empty ∧
  State.reset.ctx.alg = .shake128 ∧ State.reset.fault = false ∧
  ∀ (s : State) (rest : List HostEvent), s.pending = .reset :: rest →
    ∃ t, step s = .next t ∧ t.ctx = State.reset.ctx ∧ t.fault = false

/-- R25, R36: the reset state meets the invariant of the context, whatever the build. -/
def Obligations.ResetMeetsInv : Prop := State.reset.Inv ∧ ∀ b : Build, (State.resetOf b).Inv

/-- R25: every step keeps the invariant of the context. -/
def Obligations.StepKeepsInv : Prop := ∀ s t : State, s.Inv → step s = .next t → t.Inv

/-- R290, R301: "the step function is total, and every transaction has exactly one outcome"; no state stops the core.
The build constants never change (log entry 1). -/
def Obligations.EveryStepAnswers : Prop :=
  (∀ s : State, s.build.params.Ok → ∃ t, step s = .next t) ∧
  (∀ s t : State, step s = .next t → t.build = s.build) ∧
  ∀ (s t : State) (c : Transaction) (rest : List HostEvent), s.pending = .command c :: rest → step s = .next t →
    t.txn = c ∧ t.pending = rest ∧ ∃ r, t.response = some r

/-! ### Whole-machine rules -/

/-- R35: (a) the stateless commands leave the context alone whatever their result; (b) a command that ends in `raise`
leaves the context alone and sets `FAULT` as R27 says; (c) a command that succeeds leaves `FAULT` alone. -/
def Obligations.FrameRule : Prop :=
  ∀ (i : Instr) (s t : State) (r : Response), exec i s = .next t → t.response = some r →
    (i.stateless = true → t.ctx = s.ctx) ∧
    (r.status ≠ .ok → t.ctx = s.ctx) ∧
    (r.status ≠ .ok → r.status ≠ .failed .malformed → t.fault = true) ∧
    (r.status = .ok ∨ r.status = .failed .malformed → t.fault = s.fault)

/-- R27: when `FAULT` is set, when it is kept, and that only reset clears it. -/
def Obligations.FaultBitRule : Prop :=
  (∀ (s t : State) (c : Transaction) (rest : List HostEvent) (r : Response),
    s.pending = .command c :: rest → step s = .next t → t.response = some r →
    (r.status = .failed .errOpcode ∨ r.status = .failed .errPhase ∨ r.status = .failed .errCursor ∨
      r.status = .failed .errLength ∨ r.status = .failed .errRange → t.fault = true) ∧
    (r.status = .ok ∨ r.status = .failed .malformed → t.fault = s.fault)) ∧
  (∀ (s t : State), s.pending.head? ≠ some .reset → step s = .next t → s.fault = true → t.fault = true) ∧
  ∀ (s t : State) (rest : List HostEvent), s.pending = .reset :: rest → step s = .next t → t.fault = false

/-- R293, R292: what `raise E` leaves: the context as before the command, no output, `FAULT` set unless `E` is
`MALFORMED`, and the core goes on with the next command. -/
def Obligations.PreciseFaults : Prop :=
  ∀ (s t : State) (c : Transaction) (rest : List HostEvent) (r : Response) (f : Failure),
    s.pending = .command c :: rest → step s = .next t → t.response = some r → r.status = .failed f →
    t = { s with txn := c, pending := rest, fault := if f = .malformed then s.fault else true,
                 response := some { status := .failed f, dout := [], cout := [] } }

/-- R291, R89: the codes, and which commands can end in which status. -/
def Obligations.StatusTable : Prop :=
  Status.ok.code = 0 ∧ (Status.failed .malformed).code = 1 ∧ (Status.failed .errOpcode).code = 2 ∧
  (Status.failed .errPhase).code = 3 ∧ (Status.failed .errCursor).code = 4 ∧
  (Status.failed .errLength).code = 5 ∧ (Status.failed .errRange).code = 6 ∧
  ∀ (i : Instr) (s t : State) (r : Response), exec i s = .next t → t.response = some r →
    (r.status = .failed .malformed → i = .unpackSig) ∧
    r.status ≠ .failed .errOpcode ∧
    (r.status = .failed .errPhase → i ∈ [.absorb, .finalize, .squeeze, .squeezeblocks]) ∧
    (r.status = .failed .errCursor → i = .squeezeblocks) ∧
    (r.status = .failed .errRange →
      i ∈ [.power2round, .decompose, .makeHint, .useHint, .packPk, .packSk, .packSig, .unpackSk])

/-- R85, R300: the order of the checks. -/
def Obligations.CheckOrder : Prop :=
  (∀ (s : State) (t : Transaction) (rest : List HostEvent) (e : IllegalWord), s.build.params.Ok →
    s.pending = .command t :: rest → decode t.cmd = .error e →
    ∃ u r, step s = .next u ∧ u.response = some r ∧ r.status = .failed .errOpcode) ∧
  ∀ (i : Instr) (s : State), s.build.params.Ok →
    (i.phaseEntry s.ctx.phase = none → Faults i s .errPhase) ∧
    (i.phaseEntry s.ctx.phase ≠ none → i = .squeezeblocks → s.ctx.pos ≠ s.ctx.alg.rate → Faults i s .errCursor) ∧
    (i.phaseEntry s.ctx.phase ≠ none → (i = .squeezeblocks → s.ctx.pos = s.ctx.alg.rate) →
      ((∃ n, (i.lengthRow s.build.params s.ctx.alg.rate s.txn.arg).din = some n ∧ s.txn.din.length ≠ n) ∨
        s.txn.cin.length ≠ (i.lengthRow s.build.params s.ctx.alg.rate s.txn.arg).cin) → Faults i s .errLength) ∧
    (i.phaseEntry s.ctx.phase ≠ none → (i = .squeezeblocks → s.ctx.pos = s.ctx.alg.rate) →
      (∀ n, (i.lengthRow s.build.params s.ctx.alg.rate s.txn.arg).din = some n → s.txn.din.length = n) →
      s.txn.cin.length = (i.lengthRow s.build.params s.ctx.alg.rate s.txn.arg).cin →
      ∃ t r, exec i s = .next t ∧ t.response = some r ∧
        (r.status = .ok ∨ r.status = .failed .errRange ∨ r.status = .failed .malformed))

/-- R26, R296: the phase table: a dash is refused with `ERR_PHASE`, any other entry is the phase after success, and
`ERR_PHASE` is reported nowhere else. -/
def Obligations.PhaseTable : Prop :=
  ∀ (i : Instr) (s : State), s.build.params.Ok →
    (i.phaseEntry s.ctx.phase = none → Faults i s .errPhase) ∧
    ∀ ph, i.phaseEntry s.ctx.phase = some ph →
      ∀ (t : State) (r : Response), exec i s = .next t → t.response = some r →
        r.status ≠ .failed .errPhase ∧ (r.status = .ok → t.ctx.phase = ph)

/-- R84, R298: a `DIN` or a `CIN` whose length is not the table's is refused with `ERR_LENGTH` once the phase and the
cursor allow the command, an `OK` response has the table's lengths, and a command that does not use `ARG` ignores it. -/
def Obligations.LengthTable : Prop :=
  (∀ (i : Instr) (s t : State) (n : Nat), i ∉ [.squeeze, .squeezeblocks, .shake128, .shake256] →
    exec i s = .next t → exec i { s with txn := { s.txn with arg := n } } =
      .next { t with txn := { t.txn with arg := n } }) ∧
  ∀ (i : Instr) (s : State), s.build.params.Ok → i.phaseEntry s.ctx.phase ≠ none →
    (i = .squeezeblocks → s.ctx.pos = s.ctx.alg.rate) →
    ((∃ n, (i.lengthRow s.build.params s.ctx.alg.rate s.txn.arg).din = some n ∧ s.txn.din.length ≠ n) ∨
      s.txn.cin.length ≠ (i.lengthRow s.build.params s.ctx.alg.rate s.txn.arg).cin → Faults i s .errLength) ∧
    ∀ (t : State) (r : Response), exec i s = .next t → t.response = some r → r.status = .ok →
      r.dout.length = (i.lengthRow s.build.params s.ctx.alg.rate s.txn.arg).dout ∧
      r.cout.length = (i.lengthRow s.build.params s.ctx.alg.rate s.txn.arg).cout

/-- R8: the constraints P1 to P7, and that the model gives no meaning to any command under a record that fails one. The
last clause, that a transaction is refused whatever its word, an illegal one included, is the model's reading of R8, which
does not say it (log entry 6). -/
def Obligations.BadParamsRefused : Prop :=
  (∀ p : Params, p.Ok ↔
    (Odd p.Q ∧ 3 ≤ p.Q ∧ p.Q < 2 ^ 31) ∧ (1 ≤ p.D ∧ 2 ^ p.D < p.Q ∧ (p.Q - 1) / 2 ^ p.D < 2 ^ 10) ∧
    (1 ≤ p.GAMMA2 ∧ 2 * p.GAMMA2 ∣ p.Q - 1 ∧ 2 ≤ p.M) ∧ (1 ≤ p.N ∧ p.N ≤ 256 ∧ 8 ∣ p.N) ∧
    (p.OMEGA ≤ 255 ∧ 1 ≤ p.K ∧ 1 ≤ p.L) ∧ (1 ≤ p.ETA ∧ 1 ≤ p.GAMMA1) ∧ ∃ k, p.GAMMA1 = 2 ^ k) ∧
  (∀ (i : Instr) (s : State), ¬ s.build.params.Ok → exec i s = .refused .badParams) ∧
  ∀ (s : State) (t : Transaction) (rest : List HostEvent), ¬ s.build.params.Ok → s.pending = .command t :: rest →
    step s = .refused .badParams

/-- R9: the derived widths and sizes, and their values in the three columns of R7, which meet P1 to P7, as `TOY` does. -/
def Obligations.DerivedSizes : Prop :=
  (∀ x w : Nat, ceilLog2 x ≤ w ↔ x ≤ 2 ^ w) ∧
  (∀ p : Params, p.T0BITS = ceilLog2 (2 ^ (p.D - 1) + 1) ∧ (1 ≤ p.D → p.T0BITS = p.D) ∧
    p.ETABITS = ceilLog2 (2 * p.ETA + 1) ∧ p.ZBITS = ceilLog2 (2 * p.GAMMA1) ∧
    p.PKBYTES = p.SEEDBYTES + p.K * (p.N * 10 / 8) ∧
    p.SKBYTES = 2 * p.SEEDBYTES + p.TRBYTES + p.K * (p.N * p.T0BITS / 8) + (p.K + p.L) * (p.N * p.ETABITS / 8) ∧
    p.SIGBYTES = p.CTILDEBYTES + p.L * (p.N * p.ZBITS / 8) + (p.OMEGA + p.K)) ∧
  [Config.mldsa44, Config.mldsa65, Config.mldsa87].map
    (fun p => [p.T0BITS, p.ETABITS, p.ZBITS, p.POLYT1BYTES, p.POLYT0BYTES, p.POLYETABYTES, p.POLYZBYTES,
      p.HINTBYTES, p.PKBYTES, p.SKBYTES, p.SIGBYTES]) =
    [[13, 3, 18, 320, 416, 96, 576, 84, 1312, 2560, 2420], [13, 4, 20, 320, 416, 128, 640, 61, 1952, 4032, 3309],
     [13, 3, 20, 320, 416, 96, 640, 83, 2592, 4896, 4627]] ∧
  Config.mldsa44.Ok ∧ Config.mldsa65.Ok ∧ Config.mldsa87.Ok ∧ Config.toy.Ok

/-- R302: over a run of commands that starts with `FAULT = 0`, "no response in the run is a fault" is the same as
"`FAULT = 0` at the end". -/
def Obligations.FaultFreeRuns : Prop :=
  ∀ (n : Nat) (s t : State), s.fault = false → s.lastIsFault = false → s.CommandsOnly → Runs n s t →
    (FaultFreeRun n s t ↔ t.fault = false)

/-- R88: `RDSTAT`. -/
def Obligations.RdstatRule : Prop :=
  decode 0x00000002 = .ok .rdstat ∧
  ∀ s : State, s.build.params.Ok →
    (s.txn.din ≠ [] ∨ s.txn.cin ≠ [] → Faults .rdstat s .errLength) ∧
    (s.txn.din = [] → s.txn.cin = [] → s.Inv →
      ∃ b0 b1 b2 b3 : Byte, Answers .rdstat s s.ctx [b0, b1, b2, b3] [] ∧
        b0 = (match s.ctx.phase with | .empty => 0 | .absorbing => 1 | .finalized => 2 | .squeezing => 3) ∧
        b1.toNat = s.ctx.pos ∧
        (s.ctx.alg = .shake128 ∧ b2 = 0 ∨ s.ctx.alg = .shake256 ∧ b2 = 1) ∧
        b3 = if s.fault then 1 else 0)

/-- R331: what the first commands after reset give, whatever the build and the operands; and R36's inference, that the
state after reset is the state after `RELEASE` with `FAULT = 0`. -/
def Obligations.FirstCommandsAfterReset : Prop :=
  ∀ (b : Build) (t : Transaction) (s : State), b.params.Ok → s = { State.resetOf b with txn := t } →
    (∀ i ∈ [Instr.absorb, .finalize, .squeeze, .squeezeblocks], Faults i s .errPhase) ∧
    (t.din = [] → t.cin = [] →
      Answers .rdstat s s.ctx [0, 0, 0, 0] [] ∧ Answers .release s s.ctx [] [] ∧
      (∃ c, Answers .initShake128 s c [] []) ∧ ∃ c, Answers .initShake256 s c [] []) ∧
    (t.cin = [] → (∃ c, Answers .absorbOnceShake128 s c [] []) ∧ ∃ c, Answers .absorbOnceShake256 s c [] []) ∧
    ∀ u : State, u.build.params.Ok → u.txn.din = [] → u.txn.cin = [] → Answers .release u State.reset.ctx [] []

/-- R170, R21, R23: a one-shot command answers a function of its operands only and leaves the context in `EMPTY` with
all lanes zero; `PERMUTE`, the rounding commands and the packing commands answer a function of their operands and the
build only. -/
def Obligations.ResponsesIgnoreContext : Prop :=
  ∀ (i : Instr) (s s' : State), s.build.params.Ok → s'.build.params.Ok → s.txn = s'.txn →
    (i.oneShot = true → s.txn.cin = [] →
      ∃ t t', exec i s = .next t ∧ exec i s' = .next t' ∧ t.response = t'.response ∧ t.ctx = Context.empty) ∧
    (i.stateless = true → i ≠ .rdstat → s.build = s'.build →
      ∃ t t', exec i s = .next t ∧ exec i s' = .next t' ∧ t.response = t'.response)

/-- R31: a coefficient word's integer, and that every signed 32-bit integer crosses the port unchanged. -/
def Obligations.CoefficientPort : Prop :=
  (∀ w : Coeff, w.toInt = if w.toNat < 2 ^ 31 then (w.toNat : Int) else w.toNat - 2 ^ 32) ∧
  (∀ c : Int, -2 ^ 31 ≤ c → c < 2 ^ 31 → (toPort c).toInt = c) ∧ ∀ w : Coeff, toPort w.toInt = w

/-! ### The permutation core -/

/-- R128, R54: `PERMUTE` applies `KeccakF` to the lanes of `DIN` and touches no state. -/
def Obligations.PermuteRule : Prop :=
  decode 0x00000001 = .ok .permute ∧
  ∀ s : State, s.build.params.Ok →
    (s.txn.din.length ≠ 200 ∨ s.txn.cin ≠ [] → Faults .permute s .errLength) ∧
    (s.txn.din.length = 200 → s.txn.cin = [] →
      ∃ (a : Lanes) (dout : List Byte), Answers .permute s s.ctx dout [] ∧ dout.length = 200 ∧
        (∀ j : Fin 25, a[j].toNat = ∑ k ∈ Finset.range 8, (s.txn.din.getD (8 * j.val + k) 0).toNat * 2 ^ (8 * k)) ∧
        ∀ (j : Fin 25) (k : Nat), k < 8 →
          (dout.getD (8 * j.val + k) 0).toNat = (keccakF a)[j].toNat / 2 ^ (8 * k) % 256)

/-- R120 to R126 and `rol64` of R12: the five step mappings lane by lane, and the 24 rounds. -/
def Obligations.StepMappings : Prop :=
  (∀ (v : Lane) (n b : Nat), n < 64 → b < 64 → (rol64 v n).getLsbD b = v.getLsbD ((b + (64 - n)) % 64)) ∧
  ∀ a : Lanes,
    (∀ x y : Fin 5, laneXY (theta a) x y = laneXY a x y ^^^ (column a (x + 4) ^^^ rol64 (column a (x + 1)) 1)) ∧
    (∀ x y : Fin 5, laneXY (rho a) x y = rol64 (laneXY a x y) ((rhoTable.getD x.val []).getD y.val 0)) ∧
    (∀ x y : Fin 5, laneXY (pi a) y (2 * x + 3 * y) = laneXY a x y) ∧
    (∀ x y : Fin 5, laneXY (chi a) x y = laneXY a x y ^^^ (~~~ laneXY a (x + 1) y &&& laneXY a (x + 2) y)) ∧
    (∀ (ir : Nat) (i : Fin 25), (iota a ir)[i] = if i = 0 then a[i] ^^^ roundConstants.getD ir 0 else a[i]) ∧
    keccakF a = (List.range 24).foldl (fun s ir => iota (chi (pi (rho (theta s)))) ir) a

/-- R123, R124, R126: the tables come out of their generating rules, and the flat destinations of `Pi`. -/
def Obligations.PermutationTables : Prop :=
  (∀ t, t < 24 → (rhoTable.getD (rhoPoint t).1 []).getD (rhoPoint t).2 0 = (t + 1) * (t + 2) / 2 % 64) ∧
  (∀ x y : Fin 5, rhoOffsets.getD (x.val + 5 * y.val) 0 = (rhoTable.getD x.val []).getD y.val 0) ∧
  roundConstants.length = 24 ∧
  (∀ ir, ir < 24 → ∀ j, j < 7 → (roundConstants.getD ir 0).getLsbD (2 ^ j - 1) = rc (j + 7 * ir)) ∧
  (∀ ir, ir < 24 → ∀ b, b < 64 → b ∉ [0, 1, 3, 7, 15, 31, 63] → (roundConstants.getD ir 0).getLsbD b = false) ∧
  (∀ x y : Fin 5, piDst.getD (x.val + 5 * y.val) 0 = y.val + 5 * ((2 * x.val + 3 * y.val) % 5)) ∧
  ∀ d, d < 25 → d ∈ piDst

/-- R127 (a): `KeccakF` is a bijection on 1600-bit states. -/
def Obligations.KeccakIsBijective : Prop := Function.Bijective keccakF

/-- R129: `KeccakF` of the all-zero state. -/
def Obligations.ZeroStateKnownAnswer : Prop :=
  (keccakF Lanes.zero).toList =
    [0xF1258F7940E1DDE7, 0x84D5CCF933C0478A, 0xD598261EA65AA9EE, 0xBD1547306F80494D, 0x8B284E056253D057,
     0xFF97A42D7F8E6FD4, 0x90FEE5A0A44647C4, 0x8C5BDA0CD6192E76, 0xAD30A6F71B19059C, 0x30935AB7D08FFC64,
     0xEB5AA93F2317D635, 0xA9A6E6260D712103] ++
    [0x81A57C16DBCF555F, 0x43B831CD0347C826, 0x01F22F1A11A5569F, 0x05E5635A21D9AE61, 0x64BEFEF28CC970F2,
     0x613670957BC46611, 0xB87C5A554FD00ECB, 0x8C3EE88A1CCF32C8, 0x940C7922AE3A2614, 0x1841F924A2C509E4,
     0x16F53526E70465C2, 0x75F644E97F30A13B, 0xEAF1FF7B5CECA249]

/-! ### The sponge -/

/-- R142: `INIT.SHAKE128` and `INIT.SHAKE256`, in every phase. -/
def Obligations.InitRule : Prop :=
  decode 0x00000010 = .ok .initShake128 ∧ decode 0x00000110 = .ok .initShake256 ∧
  ∀ (i : Instr) (alg : Alg), (i, alg) ∈ [(.initShake128, .shake128), (.initShake256, .shake256)] →
    ∀ s : State, s.build.params.Ok →
      (s.txn.din ≠ [] ∨ s.txn.cin ≠ [] → Faults i s .errLength) ∧
      (s.txn.din = [] → s.txn.cin = [] →
        ∃ c : Context, Answers i s c [] [] ∧ (∀ j : Fin 25, c.lanes[j] = 0) ∧ c.pos = 0 ∧ c.alg = alg ∧
          c.phase = .absorbing)

/-- R144, R141: `ABSORB` of any data, in closed form. The bytes before the cursor count as 0 in the first block; the
cursor after it is `(POS + |DIN|) mod r` and `floor((POS + |DIN|) / r)` permutations are applied. -/
def Obligations.AbsorbRule : Prop :=
  decode 0x00000011 = .ok .absorb ∧
  ∀ s : State, s.build.params.Ok → s.Inv →
    (s.ctx.phase ≠ .absorbing → Faults .absorb s .errPhase) ∧
    (s.ctx.phase = .absorbing → s.txn.cin ≠ [] → Faults .absorb s .errLength) ∧
    (s.ctx.phase = .absorbing → s.txn.cin = [] →
      Answers .absorb s
        { s.ctx with
          lanes := absorbed s.ctx.alg.rate s.ctx.lanes (zeros s.ctx.pos ++ s.txn.din)
            ((s.ctx.pos + s.txn.din.length) / s.ctx.alg.rate)
          pos := (s.ctx.pos + s.txn.din.length) % s.ctx.alg.rate } [] [])

/-- R51, R50, R56: `ABSORB` of data that does not fill the block, byte by byte: the data is XORed in at the cursor and
every other state byte, the capacity included, is unchanged; when it fills the block exactly, the permutation is
applied at once and the cursor returns to 0. -/
def Obligations.AbsorbBytewise : Prop :=
  ∀ s : State, s.build.params.Ok → s.Inv → s.ctx.phase = .absorbing → s.txn.cin = [] →
    s.ctx.pos + s.txn.din.length ≤ s.ctx.alg.rate →
    ∃ b : Lanes,
      (∀ j, j < 200 → memRead b j =
        if s.ctx.pos ≤ j ∧ j < s.ctx.pos + s.txn.din.length
        then memRead s.ctx.lanes j ^^^ s.txn.din.getD (j - s.ctx.pos) 0 else memRead s.ctx.lanes j) ∧
      (s.ctx.pos + s.txn.din.length < s.ctx.alg.rate →
        Answers .absorb s { s.ctx with lanes := b, pos := s.ctx.pos + s.txn.din.length } [] []) ∧
      (s.ctx.pos + s.txn.din.length = s.ctx.alg.rate →
        Answers .absorb s { s.ctx with lanes := keccakF b, pos := 0 } [] [])

/-- R145: absorbing a message chunk by chunk, whatever the split, leaves the state that absorbing it whole leaves, and
`FINALIZE` after it the state that `ABSORB_ONCE` leaves. -/
def Obligations.AbsorbEquivalence : Prop :=
  ∀ (s : State) (winit wonce : CmdWord) (chunks : List (List Byte)), s.build.params.Ok →
    (winit, wonce) ∈ [(0x00000010, 0x00000013), (0x00000110, 0x00000113)] →
    ∃ t u t' v : State,
      Runs (chunks.length + 1)
        { s with pending := issue winit 0 [] :: chunks.map (issue 0x00000011 0) } t ∧
      Runs 2 { s with pending := [issue winit 0 [], issue 0x00000011 0 chunks.flatten] } u ∧
      t.ctx = u.ctx ∧ t.fault = s.fault ∧ u.fault = s.fault ∧
      Runs (chunks.length + 2)
        { s with pending := issue winit 0 [] :: chunks.map (issue 0x00000011 0) ++ [issue 0x00000012 0 []] } t' ∧
      Runs 1 { s with pending := [issue wonce 0 chunks.flatten] } v ∧
      t'.ctx = v.ctx ∧ t'.fault = s.fault ∧ v.fault = s.fault

/-- R146: `FINALIZE`, byte by byte: `d` at the cursor, 0x80 (bit 63 of lane `r/8 - 1`) in the last byte of the rate, no
permutation. -/
def Obligations.FinalizeRule : Prop :=
  decode 0x00000012 = .ok .finalize ∧
  ∀ s : State, s.build.params.Ok → s.Inv →
    (s.ctx.phase ≠ .absorbing → Faults .finalize s .errPhase) ∧
    (s.ctx.phase = .absorbing → s.txn.din ≠ [] ∨ s.txn.cin ≠ [] → Faults .finalize s .errLength) ∧
    (s.ctx.phase = .absorbing → s.txn.din = [] → s.txn.cin = [] →
      ∃ b : Lanes,
        Answers .finalize s { s.ctx with lanes := b, pos := s.ctx.alg.rate, phase := .finalized } [] [] ∧
        ∀ j, j < 200 → memRead b j =
          memRead s.ctx.lanes j ^^^ (if j = s.ctx.pos then s.ctx.alg.ds else 0)
            ^^^ (if j = s.ctx.alg.rate - 1 then 0x80 else 0))

/-- R93: `INIT`, `ABSORB` and `FINALIZE` together absorb the blocks of the padded message, permuting after every block
except the last. -/
def Obligations.PaddedMessage : Prop :=
  (∀ (alg : Alg) (m : List Byte), (padded alg m).length = (m.length / alg.rate + 1) * alg.rate) ∧
  ∀ (s : State) (w : CmdWord) (alg : Alg) (m : List Byte), s.build.params.Ok →
    (w, alg) ∈ [(0x00000010, .shake128), (0x00000110, .shake256)] →
    ∃ t : State,
      Runs 3 { s with pending := [issue w 0 [], issue 0x00000011 0 m, issue 0x00000012 0 []] } t ∧
      t.ctx = { lanes := finalLanes alg m, pos := alg.rate, phase := .finalized, alg := alg } ∧ t.fault = s.fault

/-- R148, R147: `ABSORB_ONCE.SHAKE128` and `ABSORB_ONCE.SHAKE256`, in every phase. -/
def Obligations.AbsorbOnceRule : Prop :=
  decode 0x00000013 = .ok .absorbOnceShake128 ∧ decode 0x00000113 = .ok .absorbOnceShake256 ∧
  ∀ (i : Instr) (alg : Alg), (i, alg) ∈ [(.absorbOnceShake128, .shake128), (.absorbOnceShake256, .shake256)] →
    ∀ s : State, s.build.params.Ok →
      (s.txn.cin ≠ [] → Faults i s .errLength) ∧
      (s.txn.cin = [] →
        Answers i s { lanes := finalLanes alg s.txn.din, pos := alg.rate, phase := .finalized, alg := alg } [] [])

/-- R149: `SQUEEZE` emits the next `ARG` bytes of the output stream and leaves the cursor behind the last of them. In
`FINALIZED` and `SQUEEZING` the cursor is in `[1, r]` (R25). -/
def Obligations.SqueezeRule : Prop :=
  decode 0x00000014 = .ok .squeeze ∧
  ∀ s : State, s.build.params.Ok → s.Inv →
    (s.ctx.phase = .empty ∨ s.ctx.phase = .absorbing → Faults .squeeze s .errPhase) ∧
    (s.ctx.phase = .finalized ∨ s.ctx.phase = .squeezing →
      (s.txn.din ≠ [] ∨ s.txn.cin ≠ [] → Faults .squeeze s .errLength) ∧
      (s.txn.din = [] → s.txn.cin = [] →
        Answers .squeeze s
          { s.ctx with
            lanes := keccakF^[(s.ctx.pos + s.txn.arg - 1) / s.ctx.alg.rate] s.ctx.lanes
            pos := s.ctx.pos + s.txn.arg - s.ctx.alg.rate * ((s.ctx.pos + s.txn.arg - 1) / s.ctx.alg.rate)
            phase := .squeezing }
          ((List.range s.txn.arg).map fun k => streamByte s.ctx.alg.rate s.ctx.lanes (s.ctx.pos + k)) []))

/-- R150: squeezing `n1` and then `n2` bytes delivers what squeezing `n1 + n2` bytes delivers, and leaves the same
context. -/
def Obligations.SqueezeEquivalence : Prop :=
  ∀ (s : State) (n1 n2 : Nat), s.build.params.Ok → s.ctx.phase = .finalized ∨ s.ctx.phase = .squeezing →
    ∃ (t1 t2 u : State) (d1 d2 : List Byte),
      Runs 1 { s with pending := [issue 0x00000014 n1 [], issue 0x00000014 n2 []] } t1 ∧
      t1.response = some { status := .ok, dout := d1, cout := [] } ∧
      Runs 2 { s with pending := [issue 0x00000014 n1 [], issue 0x00000014 n2 []] } t2 ∧
      t2.response = some { status := .ok, dout := d2, cout := [] } ∧
      Runs 1 { s with pending := [issue 0x00000014 (n1 + n2) []] } u ∧
      u.response = some { status := .ok, dout := d1 ++ d2, cout := [] } ∧ t2.ctx = u.ctx

/-- R151, R297: `SQUEEZEBLOCKS`; and, in the last conjunct, that it delivers what `SQUEEZE` of `ARG * r` bytes delivers,
which R151 marks as its own inference from R149. -/
def Obligations.SqueezeblocksRule : Prop :=
  decode 0x00000015 = .ok .squeezeblocks ∧
  ∀ s : State, s.build.params.Ok →
    (s.ctx.phase = .empty ∨ s.ctx.phase = .absorbing → Faults .squeezeblocks s .errPhase) ∧
    (s.ctx.phase = .finalized ∨ s.ctx.phase = .squeezing →
      (s.ctx.pos ≠ s.ctx.alg.rate → Faults .squeezeblocks s .errCursor) ∧
      (s.ctx.pos = s.ctx.alg.rate →
        (s.txn.din ≠ [] ∨ s.txn.cin ≠ [] → Faults .squeezeblocks s .errLength) ∧
        (s.txn.din = [] → s.txn.cin = [] →
          ∃ dout : List Byte,
            dout = (List.range s.txn.arg).flatMap
              (fun n => (List.range s.ctx.alg.rate).map fun i => memRead (keccakF^[n + 1] s.ctx.lanes) i) ∧
            Answers .squeezeblocks s
              { s.ctx with lanes := keccakF^[s.txn.arg] s.ctx.lanes, phase := .squeezing } dout [] ∧
            Answers .squeeze { s with txn := { s.txn with arg := s.txn.arg * s.ctx.alg.rate } }
              { s.ctx with lanes := keccakF^[s.txn.arg] s.ctx.lanes, phase := .squeezing } dout [])))

/-- R152: `RELEASE`, in every phase. -/
def Obligations.ReleaseRule : Prop :=
  decode 0x00000016 = .ok .release ∧
  ∀ s : State, s.build.params.Ok →
    (s.txn.din ≠ [] ∨ s.txn.cin ≠ [] → Faults .release s .errLength) ∧
    (s.txn.din = [] → s.txn.cin = [] →
      ∃ c : Context, Answers .release s c [] [] ∧ (∀ j : Fin 25, c.lanes[j] = 0) ∧ c.pos = 0 ∧
        c.alg = .shake128 ∧ c.phase = .empty)

/-! ### The hash/XOF facade -/

/-- R172, R173, R171, R178: `SHAKE128` and `SHAKE256`, in every phase: the first `ARG` bytes of the stream that follows
the padded message, and the context wiped. -/
def Obligations.ShakeRule : Prop :=
  decode 0x00000020 = .ok .shake128 ∧ decode 0x00000120 = .ok .shake256 ∧
  ∀ (i : Instr) (alg : Alg), (i, alg) ∈ [(.shake128, .shake128), (.shake256, .shake256)] →
    ∀ s : State, s.build.params.Ok →
      (s.txn.cin ≠ [] → Faults i s .errLength) ∧
      (s.txn.cin = [] →
        Answers i s State.reset.ctx
          ((List.range s.txn.arg).map fun k => streamByte alg.rate (keccakF (finalLanes alg s.txn.din)) k) [])

/-- R171: a one-shot XOF delivers what `ABSORB_ONCE` and `SQUEEZE` deliver. -/
def Obligations.OneShotEqualsIncremental : Prop :=
  ∀ (s : State) (wshot wonce : CmdWord) (m : List Byte) (n : Nat), s.build.params.Ok →
    (wshot, wonce) ∈ [(0x00000020, 0x00000013), (0x00000120, 0x00000113)] →
    ∃ t u : State,
      Runs 1 { s with pending := [issue wshot n m] } t ∧
      Runs 2 { s with pending := [issue wonce 0 m, issue 0x00000014 n []] } u ∧
      t.response = u.response ∧ ∃ r, t.response = some r ∧ r.status = .ok

/-- R176, R177, R175, R178: `SHA3_256` and `SHA3_512`, in every phase: the first 32 or 64 state bytes after one
permutation, and the context wiped. -/
def Obligations.Sha3Rule : Prop :=
  decode 0x00000220 = .ok .sha3_256 ∧ decode 0x00000320 = .ok .sha3_512 ∧
  ∀ (i : Instr) (alg : Alg) (len : Nat), (i, alg, len) ∈ [(.sha3_256, .sha3_256, 32), (.sha3_512, .sha3_512, 64)] →
    ∀ s : State, s.build.params.Ok →
      (s.txn.cin ≠ [] → Faults i s .errLength) ∧
      (s.txn.cin = [] →
        Answers i s State.reset.ctx
          ((List.range len).map fun j => memRead (keccakF (finalLanes alg s.txn.din)) j) [])

/-! ### Rounding and decomposition -/

/-- R192, R190: `POWER2ROUND`. -/
def Obligations.Power2roundRule : Prop :=
  decode 0x00000030 = .ok .power2round ∧
  ∀ s : State, s.build.params.Ok →
    (s.txn.din ≠ [] ∨ s.txn.cin.length ≠ 1 → Faults .power2round s .errLength) ∧
    ∀ w : Coeff, s.txn.din = [] → s.txn.cin = [w] →
      (w.toInt < 0 ∨ (s.build.params.Q : Int) ≤ w.toInt → Faults .power2round s .errRange) ∧
      (0 ≤ w.toInt → w.toInt < s.build.params.Q →
        ∃ (cout : List Coeff) (a1 : Int), Answers .power2round s s.ctx [] cout ∧
          a1 = (w.toInt + 2 ^ (s.build.params.D - 1) - 1) / 2 ^ s.build.params.D ∧
          cout.map BitVec.toInt = [w.toInt - a1 * 2 ^ s.build.params.D, a1])

/-- R193: the results of `POWER2ROUND`: (a), (b), (d), and (c) for the records whose `Q - 1` rounds down at the top,
`(Q-1) mod 2^D <= 2^(D-1)`, which the three columns of R7 do (log entry 9). -/
def Obligations.Power2roundProperties : Prop :=
  ∀ (s : State) (w : Coeff), s.build.params.Ok → s.txn.din = [] → s.txn.cin = [w] → 0 ≤ w.toInt →
    w.toInt < s.build.params.Q →
    ∃ (cout : List Coeff) (a0 a1 : Int), Answers .power2round s s.ctx [] cout ∧
      cout.map BitVec.toInt = [a0, a1] ∧ w.toInt = a1 * 2 ^ s.build.params.D + a0 ∧
      -2 ^ (s.build.params.D - 1) < a0 ∧ a0 ≤ 2 ^ (s.build.params.D - 1) ∧ 0 ≤ a1 ∧
      (((s.build.params.Q : Int) - 1) % 2 ^ s.build.params.D ≤ 2 ^ (s.build.params.D - 1) →
        a1 ≤ ((s.build.params.Q : Int) - 1) / 2 ^ s.build.params.D) ∧
      a0 = (if w.toInt % 2 ^ s.build.params.D > 2 ^ s.build.params.D / 2
            then w.toInt % 2 ^ s.build.params.D - 2 ^ s.build.params.D else w.toInt % 2 ^ s.build.params.D)

/-- R195, R194: `DECOMPOSE`. -/
def Obligations.DecomposeRule : Prop :=
  decode 0x00000031 = .ok .decompose ∧
  ∀ s : State, s.build.params.Ok →
    (s.txn.din ≠ [] ∨ s.txn.cin.length ≠ 1 → Faults .decompose s .errLength) ∧
    ∀ w : Coeff, s.txn.din = [] → s.txn.cin = [w] →
      (w.toInt < 0 ∨ (s.build.params.Q : Int) ≤ w.toInt → Faults .decompose s .errRange) ∧
      (0 ≤ w.toInt → w.toInt < s.build.params.Q →
        ∃ (cout : List Coeff) (a0 a1 : Int), Answers .decompose s s.ctx [] cout ∧
          cout.map BitVec.toInt = [a0, a1] ∧ Decomposes s.build.params w.toInt a0 a1)

/-- R196: the results of `DECOMPOSE`: the congruence, the intervals of each branch, when the wrap-around branch is
taken, and the one input that gives `a0 = -GAMMA2`. -/
def Obligations.DecomposeProperties : Prop :=
  ∀ (s : State) (w : Coeff), s.build.params.Ok → s.txn.din = [] → s.txn.cin = [w] → 0 ≤ w.toInt →
    w.toInt < s.build.params.Q →
    ∃ (cout : List Coeff) (a0 a1 : Int), Answers .decompose s s.ctx [] cout ∧
      cout.map BitVec.toInt = [a0, a1] ∧
      (s.build.params.Q : Int) ∣ a1 * (2 * s.build.params.GAMMA2) + a0 - w.toInt ∧
      0 ≤ a1 ∧ a1 ≤ (s.build.params.M : Int) - 1 ∧
      (w.toInt < (s.build.params.Q : Int) - s.build.params.GAMMA2 →
        a1 * (2 * s.build.params.GAMMA2) + a0 = w.toInt ∧ -(s.build.params.GAMMA2 : Int) < a0 ∧
        a0 ≤ s.build.params.GAMMA2) ∧
      ((s.build.params.Q : Int) - s.build.params.GAMMA2 ≤ w.toInt →
        a1 = 0 ∧ a0 = w.toInt - s.build.params.Q ∧ -(s.build.params.GAMMA2 : Int) ≤ a0 ∧ a0 ≤ -1) ∧
      (a0 = -(s.build.params.GAMMA2 : Int) ↔ w.toInt = (s.build.params.Q : Int) - s.build.params.GAMMA2)

/-- R199: `MAKE_HINT`. -/
def Obligations.MakeHintRule : Prop :=
  decode 0x00000032 = .ok .makeHint ∧
  ∀ s : State, s.build.params.Ok →
    (s.txn.din ≠ [] ∨ s.txn.cin.length ≠ 2 → Faults .makeHint s .errLength) ∧
    ∀ w0 w1 : Coeff, s.txn.din = [] → s.txn.cin = [w0, w1] →
      (w1.toInt < 0 ∨ (s.build.params.M : Int) ≤ w1.toInt → Faults .makeHint s .errRange) ∧
      (0 ≤ w1.toInt → w1.toInt < s.build.params.M →
        (w0.toInt > s.build.params.GAMMA2 ∨ w0.toInt < -(s.build.params.GAMMA2 : Int) ∨
          (w0.toInt = -(s.build.params.GAMMA2 : Int) ∧ w1.toInt ≠ 0) → Answers .makeHint s s.ctx [] [1]) ∧
        (¬ (w0.toInt > s.build.params.GAMMA2 ∨ w0.toInt < -(s.build.params.GAMMA2 : Int) ∨
          (w0.toInt = -(s.build.params.GAMMA2 : Int) ∧ w1.toInt ≠ 0)) → Answers .makeHint s s.ctx [] [0]))

/-- R200: what the hint means: it is 1 exactly when `a1*2*GAMMA2 + a0` has another high part than `a1`. R200 claims this
for `|a0| <= 4*GAMMA2` and the scheme's two values of `GAMMA2` (`M` is 44 or 16); with `M = 2` it holds up to
`3*GAMMA2`. -/
def Obligations.HintMeaning : Prop :=
  ∀ (s : State) (w0 w1 : Coeff) (b0 b1 : Int), s.build.params.Ok → s.txn.din = [] → s.txn.cin = [w0, w1] →
    0 ≤ w1.toInt → w1.toInt < s.build.params.M →
    |w0.toInt| ≤ 3 * s.build.params.GAMMA2 ∨ (3 ≤ s.build.params.M ∧ |w0.toInt| ≤ 4 * s.build.params.GAMMA2) →
    Decomposes s.build.params
      ((w1.toInt * (2 * s.build.params.GAMMA2) + w0.toInt) % s.build.params.Q) b0 b1 →
    (b1 ≠ w1.toInt → Answers .makeHint s s.ctx [] [1]) ∧ (b1 = w1.toInt → Answers .makeHint s s.ctx [] [0])

/-- R202: `USE_HINT`. -/
def Obligations.UseHintRule : Prop :=
  decode 0x00000033 = .ok .useHint ∧
  ∀ s : State, s.build.params.Ok →
    (s.txn.din ≠ [] ∨ s.txn.cin.length ≠ 2 → Faults .useHint s .errLength) ∧
    ∀ w h : Coeff, s.txn.din = [] → s.txn.cin = [w, h] →
      (w.toInt < 0 ∨ (s.build.params.Q : Int) ≤ w.toInt ∨ (h.toInt ≠ 0 ∧ h.toInt ≠ 1) →
        Faults .useHint s .errRange) ∧
      (0 ≤ w.toInt → w.toInt < s.build.params.Q → h.toInt = 0 ∨ h.toInt = 1 →
        ∃ (cout : List Coeff) (a0 a1 : Int), Decomposes s.build.params w.toInt a0 a1 ∧
          Answers .useHint s s.ctx [] cout ∧
          cout.map BitVec.toInt =
            [if h.toInt = 0 then a1 else if a0 > 0 then (a1 + 1) % s.build.params.M
             else (a1 - 1) % s.build.params.M])

/-- R203: the hint round trip through the two commands: `USE_HINT` of `r` and the hint `MAKE_HINT` gives for `r + z`
recovers the high part of `r + z`. -/
def Obligations.HintRoundTrip : Prop :=
  ∀ (s : State) (r z r0 r1 b0 b1 : Int), s.build.params.Ok → 0 ≤ r → r < s.build.params.Q →
    -(s.build.params.GAMMA2 : Int) ≤ z → z ≤ s.build.params.GAMMA2 → Decomposes s.build.params r r0 r1 →
    Decomposes s.build.params ((r + z) % s.build.params.Q) b0 b1 →
    ∃ h : Coeff,
      Answers .makeHint
        { s with txn := { s.txn with din := [], cin := [BitVec.ofInt 32 (r0 + z), BitVec.ofInt 32 r1] } }
        s.ctx [] [h] ∧
      Answers .useHint { s with txn := { s.txn with din := [], cin := [BitVec.ofInt 32 r, h] } }
        s.ctx [] [BitVec.ofInt 32 b1]

/-! ### Packing -/

/-- R222, R223: the bit packer, bit by bit, and that packing and unpacking are inverse to each other. -/
def Obligations.BitPacker : Prop :=
  (∀ (u : List Nat) (w : Nat), 1 ≤ w → 8 ∣ u.length * w → (∀ x ∈ u, x < 2 ^ w) →
    (bitPack u w).length = u.length * w / 8 ∧
    (∀ k, k < u.length * w → bufferBit (bitPack u w) k = (u.getD (k / w) 0).testBit (k % w)) ∧
    bitUnpack (bitPack u w) w u.length = u) ∧
  ∀ (b : List Byte) (w n : Nat), 1 ≤ w → 8 * b.length = n * w →
    (bitUnpack b w n).length = n ∧ (∀ x ∈ bitUnpack b w n, x < 2 ^ w) ∧ bitPack (bitUnpack b w n) w = b

/-- R232, R226; layout R95: `PACK_PK`. -/
def Obligations.PackPkRule : Prop :=
  decode 0x00000040 = .ok .packPk ∧
  ∀ (s : State) (p : Params), p = s.build.params → p.Ok →
    (s.txn.din.length ≠ p.SEEDBYTES ∨ s.txn.cin.length ≠ p.K * p.N → Faults .packPk s .errLength) ∧
    (s.txn.din.length = p.SEEDBYTES → s.txn.cin.length = p.K * p.N →
      (¬ Within 0 1023 s.txn.cin → Faults .packPk s .errRange) ∧
      (Within 0 1023 s.txn.cin →
        ∃ dout : List Byte, Answers .packPk s s.ctx dout [] ∧ dout.length = p.PKBYTES ∧
          slice dout 0 p.SEEDBYTES = s.txn.din ∧
          ∀ i j, i < p.K → j < p.N →
            HoldsField dout (p.SEEDBYTES + i * p.POLYT1BYTES) 10 j (coeffAt s.txn.cin (i * p.N + j)).toNat))

/-- R233: `UNPACK_PK`, which refuses no content of a buffer of the right size. -/
def Obligations.UnpackPkRule : Prop :=
  decode 0x00000041 = .ok .unpackPk ∧
  ∀ (s : State) (p : Params), p = s.build.params → p.Ok →
    (s.txn.din.length ≠ p.PKBYTES ∨ s.txn.cin ≠ [] → Faults .unpackPk s .errLength) ∧
    (s.txn.din.length = p.PKBYTES → s.txn.cin = [] →
      ∃ cout : List Coeff, Answers .unpackPk s s.ctx (slice s.txn.din 0 p.SEEDBYTES) cout ∧
        cout.length = p.K * p.N ∧
        ∀ i j u, i < p.K → j < p.N → HoldsField s.txn.din (p.SEEDBYTES + i * p.POLYT1BYTES) 10 j u →
          coeffAt cout (i * p.N + j) = u)

/-- R235, R227, R228; layout R96, R234: `PACK_SK`, for either order of the packed fields. -/
def Obligations.PackSkRule : Prop :=
  decode 0x00000042 = .ok .packSk ∧
  ∀ (s : State) (p : Params) (o : SkOffsets), p = s.build.params → o = skOffsets p s.build.skOrder → p.Ok →
    (s.txn.din.length ≠ 2 * p.SEEDBYTES + p.TRBYTES ∨ s.txn.cin.length ≠ (2 * p.K + p.L) * p.N →
      Faults .packSk s .errLength) ∧
    (s.txn.din.length = 2 * p.SEEDBYTES + p.TRBYTES → s.txn.cin.length = (2 * p.K + p.L) * p.N →
      (¬ SkBounds p s.txn.cin → Faults .packSk s .errRange) ∧
      (SkBounds p s.txn.cin →
        ∃ dout : List Byte, Answers .packSk s s.ctx dout [] ∧ dout.length = p.SKBYTES ∧
          slice dout o.seed p.SEEDBYTES = slice s.txn.din 0 p.SEEDBYTES ∧
          slice dout o.tr p.TRBYTES = slice s.txn.din p.SEEDBYTES p.TRBYTES ∧
          slice dout o.key p.SEEDBYTES = slice s.txn.din (p.SEEDBYTES + p.TRBYTES) p.SEEDBYTES ∧
          (∀ i j, i < p.K → j < p.N →
            HoldsField dout (o.t0 + i * p.POLYT0BYTES) p.T0BITS j
              (2 ^ (p.D - 1) - coeffAt s.txn.cin (i * p.N + j)).toNat) ∧
          (∀ i j, i < p.L → j < p.N →
            HoldsField dout (o.s1 + i * p.POLYETABYTES) p.ETABITS j
              ((p.ETA : Int) - coeffAt s.txn.cin ((p.K + i) * p.N + j)).toNat) ∧
          ∀ i j, i < p.K → j < p.N →
            HoldsField dout (o.s2 + i * p.POLYETABYTES) p.ETABITS j
              ((p.ETA : Int) - coeffAt s.txn.cin ((p.K + p.L + i) * p.N + j)).toNat))

/-- R236, R234: `UNPACK_SK`: `ERR_RANGE` exactly when a stored `s1` or `s2` field is above `2*ETA`. Nothing is said of a
coefficient that is no signed 32-bit integer (`ETA >= 2^31`; log entry 5). -/
def Obligations.UnpackSkRule : Prop :=
  decode 0x00000043 = .ok .unpackSk ∧
  ∀ (s : State) (p : Params) (o : SkOffsets), p = s.build.params → o = skOffsets p s.build.skOrder → p.Ok →
    (s.txn.din.length ≠ p.SKBYTES ∨ s.txn.cin ≠ [] → Faults .unpackSk s .errLength) ∧
    (s.txn.din.length = p.SKBYTES → s.txn.cin = [] →
      ((∃ i j u, i < p.L ∧ j < p.N ∧ HoldsField s.txn.din (o.s1 + i * p.POLYETABYTES) p.ETABITS j u ∧
          2 * p.ETA < u) ∨
        (∃ i j u, i < p.K ∧ j < p.N ∧ HoldsField s.txn.din (o.s2 + i * p.POLYETABYTES) p.ETABITS j u ∧
          2 * p.ETA < u) → Faults .unpackSk s .errRange) ∧
      ((∀ i j u, i < p.L → j < p.N → HoldsField s.txn.din (o.s1 + i * p.POLYETABYTES) p.ETABITS j u →
          u ≤ 2 * p.ETA) →
        (∀ i j u, i < p.K → j < p.N → HoldsField s.txn.din (o.s2 + i * p.POLYETABYTES) p.ETABITS j u →
          u ≤ 2 * p.ETA) →
        ∃ cout : List Coeff,
          Answers .unpackSk s s.ctx
            (slice s.txn.din o.seed p.SEEDBYTES ++ slice s.txn.din o.tr p.TRBYTES
              ++ slice s.txn.din o.key p.SEEDBYTES) cout ∧
          cout.length = (2 * p.K + p.L) * p.N ∧
          (∀ i j u, i < p.K → j < p.N → HoldsField s.txn.din (o.t0 + i * p.POLYT0BYTES) p.T0BITS j u →
            coeffAt cout (i * p.N + j) = 2 ^ (p.D - 1) - u) ∧
          (∀ i j u, i < p.L → j < p.N → HoldsField s.txn.din (o.s1 + i * p.POLYETABYTES) p.ETABITS j u →
            OnPort (p.ETA - u) → coeffAt cout ((p.K + i) * p.N + j) = p.ETA - u) ∧
          ∀ i j u, i < p.K → j < p.N → HoldsField s.txn.din (o.s2 + i * p.POLYETABYTES) p.ETABITS j u →
            OnPort (p.ETA - u) → coeffAt cout ((p.K + p.L + i) * p.N + j) = p.ETA - u))

/-- R266, R260, R262; layout R97, R98: `PACK_SIG`: the challenge hash, the rows of `z`, and the hint section: marker `i`
is the number of ones in rows `0 .. i`, index byte `k` is the column of the `k`-th one in row-major order, and the
unused capacity is zero. -/
def Obligations.PackSigRule : Prop :=
  decode 0x00000044 = .ok .packSig ∧
  ∀ (s : State) (p : Params), p = s.build.params → p.Ok →
    (s.txn.din.length ≠ p.CTILDEBYTES ∨ s.txn.cin.length ≠ (p.L + p.K) * p.N → Faults .packSig s .errLength) ∧
    (s.txn.din.length = p.CTILDEBYTES → s.txn.cin.length = (p.L + p.K) * p.N →
      (¬ SigBounds p s.txn.cin → Faults .packSig s .errRange) ∧
      (SigBounds p s.txn.cin →
        ∃ (dout : List Byte) (h : List Coeff), h = s.txn.cin.drop (p.L * p.N) ∧
          Answers .packSig s s.ctx dout [] ∧ dout.length = p.SIGBYTES ∧
          slice dout 0 p.CTILDEBYTES = s.txn.din ∧
          (∀ i j, i < p.L → j < p.N →
            HoldsField dout (p.CTILDEBYTES + i * p.POLYZBYTES) p.ZBITS j
              ((p.GAMMA1 : Int) - coeffAt s.txn.cin (i * p.N + j)).toNat) ∧
          (∀ i, i < p.K → hintByte p dout (p.OMEGA + i) = (h.take ((i + 1) * p.N)).count 1) ∧
          (∀ i j, i < p.K → j < p.N → coeffAt h (i * p.N + j) = 1 →
            hintByte p dout ((h.take (i * p.N + j)).count 1) = j) ∧
          ∀ m, h.count 1 ≤ m → m < p.OMEGA → hintByte p dout m = 0))

/-- R268, R264: `UNPACK_SIG`: `MALFORMED`, without `FAULT`, exactly when the hint section breaks one of the checks (a) to
(e); else the challenge hash, `z`, and the matrix with a one at every column its row lists. Nothing is said of a `z`
coefficient that is no signed 32-bit integer (`GAMMA1 >= 2^31`; log entry 5). -/
def Obligations.UnpackSigRule : Prop :=
  decode 0x00000045 = .ok .unpackSig ∧
  ∀ (s : State) (p : Params), p = s.build.params → p.Ok →
    (s.txn.din.length ≠ p.SIGBYTES ∨ s.txn.cin ≠ [] → Faults .unpackSig s .errLength) ∧
    (s.txn.din.length = p.SIGBYTES → s.txn.cin = [] →
      (¬ HintWellFormed p s.txn.din → Malforms .unpackSig s) ∧
      (HintWellFormed p s.txn.din →
        ∃ cout : List Coeff, Answers .unpackSig s s.ctx (slice s.txn.din 0 p.CTILDEBYTES) cout ∧
          cout.length = (p.L + p.K) * p.N ∧
          (∀ i j u, i < p.L → j < p.N →
            HoldsField s.txn.din (p.CTILDEBYTES + i * p.POLYZBYTES) p.ZBITS j u →
            OnPort (p.GAMMA1 - u) → coeffAt cout (i * p.N + j) = p.GAMMA1 - u) ∧
          ∀ i j, i < p.K → j < p.N →
            ((∃ q, countBefore p s.txn.din i ≤ q ∧ q < countBefore p s.txn.din (i + 1) ∧
                hintByte p s.txn.din q = j) → coeffAt cout ((p.L + i) * p.N + j) = 1) ∧
            ((¬ ∃ q, countBefore p s.txn.din i ≤ q ∧ q < countBefore p s.txn.din (i + 1) ∧
                hintByte p s.txn.din q = j) → coeffAt cout ((p.L + i) * p.N + j) = 0)))

/-- R238, R270: what a `PACK` command delivers, the matching `UNPACK` command takes back to the same operands. -/
def Obligations.PackThenUnpack : Prop :=
  ∀ (i j : Instr) (s t : State) (r : Response),
    (i, j) ∈ [(.packPk, .unpackPk), (.packSk, .unpackSk), (.packSig, .unpackSig)] →
    exec i s = .next t → t.response = some r → r.status = .ok →
    Answers j { s with txn := { s.txn with din := r.dout, cin := [] } } s.ctx s.txn.din s.txn.cin

/-- R238 (converse), R265 (2), R268: what an `UNPACK` command accepts, the matching `PACK` command takes back to the same
buffer: each encoding is canonical. For the public key this holds under every good record; the secret key needs `ETA`, the
signature `GAMMA1`, below 2^31, since a wider coefficient reaches no 32-bit port (R31; log entry 5). -/
def Obligations.UnpackThenPack : Prop :=
  ∀ (i j : Instr) (s t : State) (r : Response), FitsPort s.build.params i →
    (i, j) ∈ [(.unpackPk, .packPk), (.unpackSk, .packSk), (.unpackSig, .packSig)] →
    exec i s = .next t → t.response = some r → r.status = .ok →
    Answers j { s with txn := { s.txn with din := r.dout, cin := r.cout } } s.ctx s.txn.din []

/-- R221, R261, R268: unpacking re-establishes the bound of every coefficient it delivers. -/
def Obligations.UnpackedWithinBounds : Prop :=
  ∀ (s t : State) (r : Response), t.response = some r → r.status = .ok →
    (exec .unpackPk s = .next t → Within 0 1023 r.cout) ∧
    (FitsPort s.build.params .unpackSk → exec .unpackSk s = .next t → SkBounds s.build.params r.cout) ∧
    (FitsPort s.build.params .unpackSig → exec .unpackSig s = .next t → SigBounds s.build.params r.cout)

end Statements
end

