-- ==== Sys2Proof/Laws/State.lean ====
section
/-! SUPPORT. One lemma per field per update of the state and of the context, each true by unfolding, so that no later
proof unfolds a record update. -/

namespace Sys2Proof.Machine

@[simp] theorem State.raise_ctx (s : State) (e : Failure) :
    (s.raise e).ctx = s.ctx := rfl

@[simp] theorem State.raise_fault (s : State) (e : Failure) :
    (s.raise e).fault = faultAfter s.fault (.failed e) := rfl

@[simp] theorem State.raise_build (s : State) (e : Failure) :
    (s.raise e).build = s.build := rfl

@[simp] theorem State.raise_txn (s : State) (e : Failure) :
    (s.raise e).txn = s.txn := rfl

@[simp] theorem State.raise_pending (s : State) (e : Failure) :
    (s.raise e).pending = s.pending := rfl

@[simp] theorem State.raise_response (s : State) (e : Failure) :
    (s.raise e).response = some { status := .failed e, dout := [], cout := [] } := rfl

@[simp] theorem State.deliver_ctx (s : State) (e : Effect) :
    (s.deliver e).ctx = e.ctx := rfl

@[simp] theorem State.deliver_fault (s : State) (e : Effect) :
    (s.deliver e).fault = s.fault := rfl

@[simp] theorem State.deliver_build (s : State) (e : Effect) :
    (s.deliver e).build = s.build := rfl

@[simp] theorem State.deliver_txn (s : State) (e : Effect) :
    (s.deliver e).txn = s.txn := rfl

@[simp] theorem State.deliver_pending (s : State) (e : Effect) :
    (s.deliver e).pending = s.pending := rfl

@[simp] theorem State.deliver_response (s : State) (e : Effect) :
    (s.deliver e).response = some { status := .ok, dout := e.dout, cout := e.cout } := rfl

@[simp] theorem State.begin_ctx (s : State) (t : Transaction) (rest : List HostEvent) :
    (s.begin t rest).ctx = s.ctx := rfl

@[simp] theorem State.begin_fault (s : State) (t : Transaction) (rest : List HostEvent) :
    (s.begin t rest).fault = s.fault := rfl

@[simp] theorem State.begin_build (s : State) (t : Transaction) (rest : List HostEvent) :
    (s.begin t rest).build = s.build := rfl

@[simp] theorem State.begin_txn (s : State) (t : Transaction) (rest : List HostEvent) :
    (s.begin t rest).txn = t := rfl

@[simp] theorem State.begin_pending (s : State) (t : Transaction) (rest : List HostEvent) :
    (s.begin t rest).pending = rest := rfl

@[simp] theorem State.begin_response (s : State) (t : Transaction) (rest : List HostEvent) :
    (s.begin t rest).response = s.response := rfl

@[simp] theorem State.applyReset_ctx (s : State) (rest : List HostEvent) :
    (s.applyReset rest).ctx = Context.empty := rfl

@[simp] theorem State.applyReset_fault (s : State) (rest : List HostEvent) :
    (s.applyReset rest).fault = false := rfl

@[simp] theorem State.applyReset_build (s : State) (rest : List HostEvent) :
    (s.applyReset rest).build = s.build := rfl

@[simp] theorem State.applyReset_txn (s : State) (rest : List HostEvent) :
    (s.applyReset rest).txn = Transaction.bare 0 := rfl

@[simp] theorem State.applyReset_pending (s : State) (rest : List HostEvent) :
    (s.applyReset rest).pending = rest := rfl

@[simp] theorem State.applyReset_response (s : State) (rest : List HostEvent) :
    (s.applyReset rest).response = none := rfl

@[simp] theorem State.withFetchWord_ctx (s : State) (nbits w : Nat) :
    (s.withFetchWord nbits w).ctx = s.ctx := rfl

@[simp] theorem State.withFetchWord_fault (s : State) (nbits w : Nat) :
    (s.withFetchWord nbits w).fault = s.fault := rfl

@[simp] theorem State.withFetchWord_build (s : State) (nbits w : Nat) :
    (s.withFetchWord nbits w).build = s.build := rfl

@[simp] theorem State.withFetchWord_txn (s : State) (nbits w : Nat) :
    (s.withFetchWord nbits w).txn = s.txn := rfl

@[simp] theorem State.withFetchWord_pending (s : State) (nbits w : Nat) :
    (s.withFetchWord nbits w).pending = putWord (tableWord nbits w) s.pending := rfl

@[simp] theorem State.withFetchWord_response (s : State) (nbits w : Nat) :
    (s.withFetchWord nbits w).response = s.response := rfl

@[simp] theorem Context.permuted_lanes (c : Context) : (c.permuted).lanes = keccakF c.lanes := rfl

@[simp] theorem Context.permuted_pos (c : Context) : (c.permuted).pos = c.pos := rfl

@[simp] theorem Context.permuted_phase (c : Context) : (c.permuted).phase = c.phase := rfl

@[simp] theorem Context.permuted_alg (c : Context) : (c.permuted).alg = c.alg := rfl

@[simp] theorem Context.nextBlock_lanes (c : Context) : (c.nextBlock).lanes = keccakF c.lanes := rfl

@[simp] theorem Context.nextBlock_pos (c : Context) : (c.nextBlock).pos = 0 := rfl

@[simp] theorem Context.nextBlock_phase (c : Context) : (c.nextBlock).phase = c.phase := rfl

@[simp] theorem Context.nextBlock_alg (c : Context) : (c.nextBlock).alg = c.alg := rfl

@[simp] theorem padBlock_lanes (c : Context) : (padBlock c).lanes = xorLane (memXor c.lanes c.pos c.alg.ds) (c.rate / 8 - 1) 0x8000000000000000 := rfl

@[simp] theorem padBlock_pos (c : Context) : (padBlock c).pos = c.rate := rfl

@[simp] theorem padBlock_phase (c : Context) : (padBlock c).phase = c.phase := rfl

@[simp] theorem padBlock_alg (c : Context) : (padBlock c).alg = c.alg := rfl

@[simp] theorem finalizeContext_lanes (c : Context) : (finalizeContext c).lanes = (padBlock c).lanes := rfl

@[simp] theorem finalizeContext_pos (c : Context) : (finalizeContext c).pos = c.rate := rfl

@[simp] theorem finalizeContext_phase (c : Context) : (finalizeContext c).phase = .finalized := rfl

@[simp] theorem finalizeContext_alg (c : Context) : (finalizeContext c).alg = c.alg := rfl

@[simp] theorem initContext_lanes (alg : Alg) : (initContext alg).lanes = Lanes.zero := rfl

@[simp] theorem initContext_pos (alg : Alg) : (initContext alg).pos = 0 := rfl

@[simp] theorem initContext_phase (alg : Alg) : (initContext alg).phase = .absorbing := rfl

@[simp] theorem initContext_alg (alg : Alg) : (initContext alg).alg = alg := rfl

@[simp] theorem Context.empty_lanes : Context.empty.lanes = Lanes.zero := rfl

@[simp] theorem Context.empty_pos : Context.empty.pos = 0 := rfl

@[simp] theorem Context.empty_phase : Context.empty.phase = .empty := rfl

@[simp] theorem Context.empty_alg : Context.empty.alg = .shake128 := rfl

@[simp] theorem State.resetOf_ctx (b : Build) : (State.resetOf b).ctx = Context.empty := rfl

@[simp] theorem State.resetOf_fault (b : Build) : (State.resetOf b).fault = false := rfl

@[simp] theorem State.resetOf_build (b : Build) : (State.resetOf b).build = b := rfl

@[simp] theorem State.resetOf_txn (b : Build) : (State.resetOf b).txn = Transaction.bare 0 := rfl

@[simp] theorem State.resetOf_pending (b : Build) : (State.resetOf b).pending = [] := rfl

@[simp] theorem State.resetOf_response (b : Build) : (State.resetOf b).response = none := rfl

end Sys2Proof.Machine
end

