-- ==== Sys2Proof/Laws/Ops.lean ====
section
/-! SUPPORT. The laws of the shared operations: the state byte space, positional numbers, the coefficient port, and the
end of a command. -/

namespace Sys2Proof.Machine

/-! ### The state byte space -/

theorem getElem_xorLane (a : Lanes) (k : Nat) (v : Lane) (j : Nat) (hj : j < 25) :
    (xorLane a k v)[j] = if j = k then a[j] ^^^ v else a[j] := by
  unfold xorLane
  split
  · next h =>
    rw [Vector.getElem_set]
    by_cases hk : j = k
    · subst hk; simp
    · simp [hk, Ne.symm hk]
  · next h => rw [if_neg (by omega)]

theorem memRead_xorLane (a : Lanes) (k : Nat) (v : Lane) (j : Nat) (hj : j < 200) :
    memRead (xorLane a k v) j =
      if j / 8 = k then memRead a j ^^^ v.extractLsb' (8 * (j % 8)) 8 else memRead a j := by
  have h25 : j / 8 < 25 := by omega
  simp only [memRead, h25, dite_true, getElem_xorLane]
  split
  · apply BitVec.eq_of_getLsbD_eq
    intro i hi
    simp only [BitVec.getLsbD_xor, BitVec.getLsbD_extractLsb', hi, decide_true, Bool.true_and]
  · rfl

theorem memRead_of_ge (a : Lanes) (j : Nat) (hj : 200 ≤ j) : memRead a j = 0 := by
  rw [memRead, dif_neg (by omega)]

/-- R51 seen through R52: absorbing `b` at `i` XORs it into state byte `i` and into no other. -/
theorem memRead_memXor (a : Lanes) (i : Nat) (b : Byte) (j : Nat) (hj : j < 200) :
    memRead (memXor a i b) j = if j = i then memRead a j ^^^ b else memRead a j := by
  rw [memXor, memRead_xorLane a _ _ j hj]
  by_cases hji : j = i
  · subst hji
    simp only [if_true]
    congr 1
    apply BitVec.eq_of_getLsbD_eq
    intro k hk
    have h8 : j % 8 < 8 := Nat.mod_lt _ (by omega)
    have h1 : ¬ 8 * (j % 8) + k < 8 * (j % 8) := by omega
    have h2 : 8 * (j % 8) + k < 64 := by omega
    have h3 : 8 * (j % 8) + k - 8 * (j % 8) = k := by omega
    have h4 : k < 64 := by omega
    simp only [BitVec.getLsbD_extractLsb', hk, decide_true, Bool.true_and, BitVec.getLsbD_shiftLeft, h1, h2, h3,
      BitVec.getLsbD_setWidth, h4, decide_false, Bool.not_false]
  · rw [if_neg hji]
    split
    · next h =>
      have hz : (BitVec.setWidth 64 b <<< (8 * (i % 8))).extractLsb' (8 * (j % 8)) 8 = 0 := by
        apply BitVec.eq_of_getLsbD_eq
        intro k hk
        have hne : j % 8 ≠ i % 8 := by omega
        have hj8 : j % 8 < 8 := Nat.mod_lt _ (by omega)
        have hi8 : i % 8 < 8 := Nat.mod_lt _ (by omega)
        simp only [BitVec.getLsbD_extractLsb', hk, decide_true, Bool.true_and, BitVec.getLsbD_shiftLeft,
          BitVec.getLsbD_setWidth, BitVec.ofNat_eq_ofNat, BitVec.getLsbD_zero]
        by_cases hlt : 8 * (j % 8) + k < 8 * (i % 8)
        · simp [hlt]
        · have : b.getLsbD (8 * (j % 8) + k - 8 * (i % 8)) = false := by
            apply BitVec.getLsbD_of_ge
            omega
          simp [this]
      rw [hz]
      simp
    · rfl

/-- Bit 63 of the last lane of a rate of `r` bytes is bit 7 of state byte `r - 1` (R57). -/
theorem memRead_topBit (a : Lanes) (r j : Nat) (hr : r % 8 = 0) (h0 : 0 < r) (hj : j < 200) :
    memRead (xorLane a (r / 8 - 1) 0x8000000000000000) j =
      if j = r - 1 then memRead a j ^^^ 0x80 else memRead a j := by
  rw [memRead_xorLane a _ _ j hj]
  have h8 : j % 8 < 8 := Nat.mod_lt _ (by omega)
  by_cases hk : j / 8 = r / 8 - 1
  · rw [if_pos hk]
    by_cases hjr : j = r - 1
    · rw [if_pos hjr]
      have : j % 8 = 7 := by omega
      rw [this]; rfl
    · rw [if_neg hjr]
      have h7 : j % 8 < 7 := by omega
      have hz : (0x8000000000000000 : Lane).extractLsb' (8 * (j % 8)) 8 = 0 := by
        generalize j % 8 = m at h7
        interval_cases m <;> rfl
      rw [hz]; simp
  · rw [if_neg hk, if_neg (by omega)]

/-- Two states with the same 200 bytes are the same. -/
theorem lanes_ext (a b : Lanes) (h : ∀ i, i < 200 → memRead a i = memRead b i) : a = b := by
  apply Vector.ext
  intro k hk
  apply BitVec.eq_of_getLsbD_eq
  intro i hi
  have := h (8 * k + i / 8) (by omega)
  have h1 : (8 * k + i / 8) / 8 = k := by omega
  have h2 : (8 * k + i / 8) % 8 = i / 8 := by omega
  simp only [memRead, h1, hk, dite_true, h2] at this
  have := congrArg (fun x => BitVec.getLsbD x (i % 8)) this
  have h3 : i % 8 < 8 := Nat.mod_lt _ (by omega)
  have h4 : 8 * (i / 8) + i % 8 = i := by omega
  simpa [BitVec.getLsbD_extractLsb', h3, h4] using this

theorem length_stateBytes (n : Nat) (a : Lanes) : (stateBytes n a).length = n := by simp [stateBytes]

theorem getElem_stateBytes (n : Nat) (a : Lanes) (k : Nat) (hk : k < (stateBytes n a).length) :
    (stateBytes n a)[k] = memRead a k := by simp [stateBytes]

theorem getElem?_stateBytes (n : Nat) (a : Lanes) (k : Nat) (hk : k < n) :
    (stateBytes n a)[k]? = some (memRead a k) := by simp [stateBytes, hk]

theorem memRead_zero (j : Nat) : memRead Lanes.zero j = 0 := by
  unfold memRead
  split
  · simp [Lanes.zero]
  · rfl

/-! ### Positional numbers -/

theorem ofFields_lt (w : Nat) (u : List Nat) (h : ∀ x ∈ u, x < 2 ^ w) : ofFields w u < 2 ^ (w * u.length) := by
  induction u with
  | nil => simp [ofFields]
  | cons a t ih =>
    have ha := h a (by simp)
    have ht := ih fun x hx => h x (by simp [hx])
    simp only [ofFields, List.length_cons, Nat.mul_add, Nat.mul_one, pow_add]
    have : 2 ^ w * ofFields w t + 2 ^ w ≤ 2 ^ w * 2 ^ (w * t.length) := by
      rw [← Nat.mul_succ]; exact Nat.mul_le_mul_left _ ht
    rw [Nat.mul_comm (2 ^ (w * t.length))]
    omega

theorem length_toFields (w n S : Nat) : (toFields w n S).length = n := by
  induction n generalizing S with
  | zero => rfl
  | succ n ih => simp [toFields, ih]

theorem toFields_lt (w n S : Nat) : ∀ x ∈ toFields w n S, x < 2 ^ w := by
  induction n generalizing S with
  | zero => simp [toFields]
  | succ n ih =>
    intro x hx
    rcases List.mem_cons.mp hx with h | h
    · subst h; exact Nat.mod_lt _ (by positivity)
    · exact ih _ x h

/-- Field `j` is `floor(S / 2^(j*w)) mod 2^w`, as R222 and R223 write it. -/
theorem getElem_toFields (w n S j : Nat) (hj : j < (toFields w n S).length) :
    (toFields w n S)[j] = S / 2 ^ (j * w) % 2 ^ w := by
  induction n generalizing S j with
  | zero => simp [toFields] at hj
  | succ n ih =>
    cases j with
    | zero => simp [toFields]
    | succ j =>
      simp only [toFields, List.getElem_cons_succ]
      rw [ih, Nat.div_div_eq_div_mul, ← pow_add]
      congr 3; ring

theorem toFields_ofFields (w : Nat) (u : List Nat) (h : ∀ x ∈ u, x < 2 ^ w) :
    toFields w u.length (ofFields w u) = u := by
  induction u with
  | nil => rfl
  | cons a t ih =>
    have ha := h a (by simp)
    simp only [List.length_cons, toFields, ofFields]
    rw [Nat.add_mul_mod_self_left, Nat.mod_eq_of_lt ha, Nat.add_mul_div_left _ _ (by positivity),
      Nat.div_eq_of_lt ha, Nat.zero_add, ih fun x hx => h x (by simp [hx])]

theorem ofFields_toFields (w n S : Nat) (h : S < 2 ^ (w * n)) : ofFields w (toFields w n S) = S := by
  induction n generalizing S with
  | zero => simp at h; simp [toFields, ofFields, h]
  | succ n ih =>
    simp only [toFields, ofFields]
    rw [ih, Nat.mod_add_div]
    rw [Nat.div_lt_iff_lt_mul (by positivity), ← pow_add]
    rwa [Nat.mul_add, Nat.mul_one] at h

/-- Bit `k` of the number with fields `u` is bit `k mod w` of field `floor(k / w)` (R222). -/
theorem testBit_ofFields (w : Nat) (hw : 1 ≤ w) (u : List Nat) (h : ∀ x ∈ u, x < 2 ^ w) (k : Nat) :
    (ofFields w u).testBit k = (u.getD (k / w) 0).testBit (k % w) := by
  induction u generalizing k with
  | nil => simp [ofFields]
  | cons a t ih =>
    have ha : a < 2 ^ w := h a (by simp)
    rw [ofFields, Nat.add_comm, Nat.testBit_two_pow_mul_add _ ha]
    split
    · next hk => rw [Nat.div_eq_of_lt hk, Nat.mod_eq_of_lt hk]; rfl
    · next hk =>
      rw [ih (fun x hx => h x (by simp [hx]))]
      have h1 : k / w = (k - w) / w + 1 := by
        rw [Nat.div_eq_sub_div (by omega) (by omega)]
      have h2 : k % w = (k - w) % w := Nat.mod_eq_sub_mod (by omega)
      rw [h1, h2]; rfl

theorem byteVals_lt (b : List Byte) : ∀ x ∈ byteVals b, x < 2 ^ 8 := by
  intro x hx
  obtain ⟨y, -, rfl⟩ := List.mem_map.mp hx
  exact y.isLt

theorem length_byteVals (b : List Byte) : (byteVals b).length = b.length := by simp [byteVals]

theorem map_ofNat_byteVals (b : List Byte) : (byteVals b).map (BitVec.ofNat 8) = b := by
  simp [byteVals, Function.comp_def]

theorem byteVals_map_ofNat (u : List Nat) (h : ∀ x ∈ u, x < 2 ^ 8) : byteVals (u.map (BitVec.ofNat 8)) = u := by
  unfold byteVals
  rw [List.map_map]
  conv_rhs => rw [← List.map_id u]
  apply List.map_congr_left
  intro x hx
  simpa using h x hx

theorem getD_byteVals (b : List Byte) (k : Nat) : (byteVals b).getD k 0 = (b.getD k 0).toNat := by
  simp only [byteVals, List.getD_eq_getElem?_getD, List.getElem?_map]
  cases b[k]? <;> rfl

/-- Bit `k` of the number of a byte sequence is bit `k mod 8` of byte `floor(k / 8)` (R94). -/
theorem testBit_byteVals (b : List Byte) (k : Nat) :
    (ofFields 8 (byteVals b)).testBit k = (b.getD (k / 8) 0).getLsbD (k % 8) := by
  rw [testBit_ofFields 8 (by omega) _ (byteVals_lt b), getD_byteVals]; rfl

/-! ### Slices -/

theorem length_slice {α : Type} (b : List α) (i n : Nat) : (slice b i n).length = min n (b.length - i) := by
  simp [slice]

theorem slice_append_slice {α : Type} (b : List α) (i m n : Nat) :
    slice b i m ++ slice b (i + m) n = slice b i (m + n) := by
  simp only [slice]
  rw [List.take_add, List.drop_drop]

theorem slice_zero_all {α : Type} (b : List α) (n : Nat) (h : b.length ≤ n) : slice b 0 n = b := by
  simp [slice, List.take_of_length_le h]

theorem slice_prefix {α : Type} (a b : List α) (n : Nat) (h : a.length = n) : slice (a ++ b) 0 n = a := by
  subst h; simp [slice]

theorem slice_skip {α : Type} (a b : List α) (i n m : Nat) (h : a.length = m) (hi : m ≤ i) :
    slice (a ++ b) i n = slice b (i - m) n := by
  subst h
  simp only [slice]
  rw [List.drop_append, List.drop_of_length_le hi, List.nil_append]

theorem getD_slice {α : Type} (b : List α) (i n k : Nat) (d : α) (hk : k < n) :
    (slice b i n).getD k d = b.getD (i + k) d := by
  simp [slice, hk, List.getElem?_drop]

theorem getD_slice_of_ge {α : Type} (b : List α) (i n k : Nat) (d : α) (hk : n ≤ k) :
    (slice b i n).getD k d = d := by
  simp [slice, Nat.not_lt.mpr hk]

/-! ### A state as bytes -/

/-- State byte `j` of the lanes of a byte sequence is its byte `j` (R54). -/
theorem memRead_lanesOfBytes (b : List Byte) (j : Nat) (hj : j < 200) : memRead (lanesOfBytes b) j = b.getD j 0 := by
  have h25 : j / 8 < 25 := by omega
  have h8 : j % 8 < 8 := Nat.mod_lt _ (by omega)
  simp only [memRead, h25, dite_true, lanesOfBytes, Vector.getElem_ofFn]
  apply BitVec.eq_of_getLsbD_eq
  intro i hi
  have h1 : (8 * (j % 8) + i) / 8 = j % 8 := by omega
  have h2 : (8 * (j % 8) + i) % 8 = i := by omega
  have h3 : 8 * (j % 8) + i < 64 := by omega
  rw [BitVec.getLsbD_extractLsb', BitVec.getLsbD_ofNat, testBit_byteVals, h1, h2, getD_slice _ _ _ _ _ h8,
    Nat.div_add_mod]
  simp [hi, h3]

/-- The 200 bytes of a state, read back as lanes, are the state. -/
theorem lanesOfBytes_stateBytes (a : Lanes) : lanesOfBytes (stateBytes 200 a) = a := by
  apply lanes_ext
  intro i hi
  rw [memRead_lanesOfBytes _ _ hi]
  simp [stateBytes, hi]

/-! ### The coefficient port -/

theorem toPort_of_range (c : Int) (h : -2 ^ 31 ≤ c ∧ c < 2 ^ 31) : toPort c = BitVec.ofInt 32 c := if_pos h

theorem toInt_toPort (c : Int) (h : -2 ^ 31 ≤ c ∧ c < 2 ^ 31) : (toPort c).toInt = c := by
  rw [toPort_of_range c h]
  rw [BitVec.toInt_ofInt_eq_self (by omega)] <;> omega

theorem toPort_toInt (w : Coeff) : toPort w.toInt = w := by
  rw [toPort_of_range]
  · exact BitVec.ofInt_toInt
  · have h1 := BitVec.le_toInt w
    have h2 := BitVec.toInt_lt (x := w)
    omega

theorem toPorts_coeffVals (c : List Coeff) : toPorts (coeffVals c) = c := by
  simp [toPorts, coeffVals, Function.comp_def, toPort_toInt]

theorem length_toPorts (c : List Int) : (toPorts c).length = c.length := by simp [toPorts]

theorem length_coeffVals (c : List Coeff) : (coeffVals c).length = c.length := by simp [coeffVals]

theorem coeffVals_toPorts (c : List Int) (h : ∀ x ∈ c, -2 ^ 31 ≤ x ∧ x < 2 ^ 31) : coeffVals (toPorts c) = c := by
  unfold coeffVals toPorts
  rw [List.map_map]
  conv_rhs => rw [← List.map_id c]
  exact List.map_congr_left fun x hx => toInt_toPort x (h x hx)

theorem coeffVals_range (c : List Coeff) : ∀ x ∈ coeffVals c, -2 ^ 31 ≤ x ∧ x < (2 : Int) ^ 31 := by
  intro x hx
  obtain ⟨w, -, rfl⟩ := List.mem_map.mp hx
  have h1 := BitVec.le_toInt w
  have h2 := BitVec.toInt_lt (x := w)
  omega

/-! ### The end of a command -/

theorem guarded_of_ok (s : State) (r : Except Failure Effect) (h : s.build.params.Ok) :
    s.guarded r = .next (s.respond r) := if_pos h

theorem guarded_of_bad (s : State) (r : Except Failure Effect) (h : ¬ s.build.params.Ok) :
    s.guarded r = .refused .badParams := if_neg h

/-- Everything the end of a command can do. -/
theorem guarded_next {s t : State} {r : Except Failure Effect} (h : s.guarded r = .next t) :
    s.build.params.Ok ∧ ((∃ e, r = .ok e ∧ t = s.deliver e) ∨ ∃ f, r = .error f ∧ t = s.raise f) := by
  unfold State.guarded at h
  split at h
  · next hok =>
    refine ⟨hok, ?_⟩
    have ht : s.respond r = t := by injection h
    subst ht
    cases r with
    | ok e => exact .inl ⟨e, rfl, rfl⟩
    | error f => exact .inr ⟨f, rfl, rfl⟩
  · cases h

end Sys2Proof.Machine
end

