-- ==== Sys2Proof/Laws/Sizes.lean ====
section
/-! SUPPORT. The laws of the constants and the derived sizes (`spec/00_scope.md` R6, R8, R9). -/

namespace Sys2Proof

/-- R9's definition of `ceil_log2`: the least `w` with `2^w >= x`. -/
theorem ceilLog2_le_iff (x w : Nat) : ceilLog2 x ≤ w ↔ x ≤ 2 ^ w := by
  unfold ceilLog2
  split
  · next h =>
    have : 1 ≤ 2 ^ w := Nat.one_le_two_pow
    omega
  · next h =>
    have hx : x - 1 ≠ 0 := by omega
    rw [Nat.add_one_le_iff, Nat.log2_lt hx]
    omega

theorem le_two_pow_ceilLog2 (x : Nat) : x ≤ 2 ^ ceilLog2 x := (ceilLog2_le_iff x _).mp le_rfl

theorem ceilLog2_two_pow (w : Nat) : ceilLog2 (2 ^ w) = w := by
  apply le_antisymm
  · exact (ceilLog2_le_iff _ _).mpr le_rfl
  · by_contra hlt
    have := (ceilLog2_le_iff (2 ^ w) (ceilLog2 (2 ^ w))).mp le_rfl
    have h2 : 2 ^ ceilLog2 (2 ^ w) < 2 ^ w := Nat.pow_lt_pow_right (by omega) (by omega)
    omega

/-- "equals `D` for every `D >= 1`" (R9). -/
theorem Params.T0BITS_eq_D (p : Params) (h : 1 ≤ p.D) : p.T0BITS = p.D := by
  unfold Params.T0BITS
  apply le_antisymm
  · rw [ceilLog2_le_iff]
    have : 2 ^ p.D = 2 ^ (p.D - 1) + 2 ^ (p.D - 1) := by
      conv_lhs => rw [show p.D = p.D - 1 + 1 by omega, pow_succ]
      ring
    have h1 : 1 ≤ 2 ^ (p.D - 1) := Nat.one_le_two_pow
    omega
  · by_contra hlt
    have hle : ceilLog2 (2 ^ (p.D - 1) + 1) ≤ p.D - 1 := by omega
    rw [ceilLog2_le_iff] at hle
    omega

/-- R261: the `ZBITS`-bit codes are `0 .. 2*GAMMA1 - 1`. -/
theorem Params.two_pow_ZBITS (p : Params) (h : p.P7) : 2 ^ p.ZBITS = 2 * p.GAMMA1 := by
  unfold Params.ZBITS
  have : 2 * p.GAMMA1 = 2 ^ (Nat.log2 p.GAMMA1 + 1) := by
    rw [pow_succ, h, Nat.mul_comm]
  rw [this, ceilLog2_two_pow]

theorem Params.ETABITS_fits (p : Params) : 2 * p.ETA < 2 ^ p.ETABITS := le_two_pow_ceilLog2 _

/-- Every packed polynomial is a whole number of bytes (P4). -/
theorem Params.polyBytes_mul (p : Params) (h : p.P4) (w : Nat) : 8 * p.polyBytes w = p.N * w := by
  unfold Params.polyBytes
  obtain ⟨k, hk⟩ := Nat.dvd_of_mod_eq_zero h.2.2
  rw [hk, Nat.mul_assoc, Nat.mul_div_cancel_left _ (by omega)]

/-- `Q - 1 = M * 2*GAMMA2` (P3). -/
theorem Params.M_mul (p : Params) (h : p.P3) : p.M * (2 * p.GAMMA2) = p.Q - 1 := by
  unfold Params.M
  exact Nat.div_mul_cancel (Nat.dvd_of_mod_eq_zero h.2.1)

namespace Machine

theorem two_pow_D (p : Params) (h : 1 ≤ p.D) : 2 ^ p.D = 2 * 2 ^ (p.D - 1) := by
  conv_lhs => rw [show p.D = p.D - 1 + 1 by omega, pow_succ]
  ring

theorem Alg.rate_pos (a : Alg) : 0 < a.rate := by cases a <;> decide

theorem Alg.rate_le (a : Alg) : a.rate ≤ 168 := by cases a <;> decide

theorem Alg.rate_mod (a : Alg) : a.rate % 8 = 0 := by cases a <;> decide

theorem Alg.rate_ge (a : Alg) : 72 ≤ a.rate := by cases a <;> decide

/-- What a hash extracts lies below the rate (R175). -/
theorem Alg.hash_lt_rate (a : Alg) : 8 * a.hashLanes < a.rate := by cases a <;> decide

end Machine

end Sys2Proof
end

