-- ==== Sys2Proof/Laws/Exec.lean ====
section
/-! SUPPORT. What performing a command can do, said once: every command is `State.perform` of its own rule. -/

namespace Sys2Proof.Machine

/-- The rule of each command. -/
def ruleOf : Instr → State → Except Failure Effect
  | .permute => permuteRule
  | .rdstat => rdstatRule
  | .initShake128 => initRule .shake128
  | .initShake256 => initRule .shake256
  | .absorb => absorbRule
  | .finalize => finalizeRule
  | .absorbOnceShake128 => absorbOnceRule .shake128
  | .absorbOnceShake256 => absorbOnceRule .shake256
  | .squeeze => squeezeRule
  | .squeezeblocks => squeezeblocksRule
  | .release => releaseRule
  | .shake128 => xofRule .shake128
  | .shake256 => xofRule .shake256
  | .sha3_256 => hashRule .sha3_256
  | .sha3_512 => hashRule .sha3_512
  | .power2round => power2roundRule
  | .decompose => decomposeRule
  | .makeHint => makeHintRule
  | .useHint => useHintRule
  | .packPk => packPkRule
  | .unpackPk => unpackPkRule
  | .packSk => packSkRule
  | .unpackSk => unpackSkRule
  | .packSig => packSigRule
  | .unpackSig => unpackSigRule

theorem exec_eq_perform (i : Instr) (s : State) : exec i s = s.perform i (ruleOf i) := by cases i <;> rfl

theorem perform_of_bad (s : State) (i : Instr) (rule : State → Except Failure Effect)
    (h : ¬ s.build.params.Ok) : s.perform i rule = .refused .badParams := guarded_of_bad s _ h

theorem perform_of_check (s : State) (i : Instr) (rule : State → Except Failure Effect) (f : Failure)
    (hok : s.build.params.Ok) (h : s.precheck i = some f) : s.perform i rule = .next (s.raise f) := by
  rw [State.perform, h]; exact guarded_of_ok s _ hok

theorem perform_of_ready (s : State) (i : Instr) (rule : State → Except Failure Effect)
    (hok : s.build.params.Ok) (h : s.precheck i = none) : s.perform i rule = .next (s.respond (rule s)) := by
  rw [State.perform, h]; exact guarded_of_ok s _ hok

/-- Everything a command can do when it answers a next state: fail a check, fail in its rule, or succeed. -/
theorem perform_next {s t : State} {i : Instr} {rule : State → Except Failure Effect}
    (h : s.perform i rule = .next t) :
    s.build.params.Ok ∧
      ((∃ f, s.precheck i = some f ∧ t = s.raise f) ∨
       (s.precheck i = none ∧ ∃ f, rule s = .error f ∧ t = s.raise f) ∨
       (s.precheck i = none ∧ ∃ e, rule s = .ok e ∧ t = s.deliver e)) := by
  obtain ⟨hok, hr⟩ := guarded_next h
  refine ⟨hok, ?_⟩
  cases hc : s.precheck i with
  | some f =>
    left
    simp only [hc] at hr
    rcases hr with ⟨e, he, -⟩ | ⟨g, hg, ht⟩
    · cases he
    · cases hg; exact ⟨f, rfl, ht⟩
  | none =>
    right
    simp only [hc] at hr
    rcases hr with ⟨e, he, ht⟩ | ⟨g, hg, ht⟩
    · exact .inr ⟨rfl, e, he, ht⟩
    · exact .inl ⟨rfl, g, hg, ht⟩

/-- A command never stops with a fault. -/
theorem perform_ne_fault (s : State) (i : Instr) (rule : State → Except Failure Effect) (r : Fault) :
    s.perform i rule ≠ .fault r := nomatch r

/-- The checks pass exactly when the phase, the cursor and the lengths are right (R85). -/
theorem precheck_eq_none (s : State) (i : Instr) :
    s.precheck i = none ↔ i.allowedIn s.ctx.phase = true ∧
      (i.needsFullCursor = true → s.ctx.pos = s.ctx.alg.rate) ∧ lengthsOk s.build.params i s.txn = true := by
  unfold State.precheck
  by_cases h1 : i.allowedIn s.ctx.phase = true <;> by_cases h2 : i.needsFullCursor = true <;>
    by_cases h3 : s.ctx.pos = s.ctx.alg.rate <;> by_cases h4 : lengthsOk s.build.params i s.txn = true <;>
    simp_all

/-- What a failed check reports: one of the three faults of R85 steps 2 to 4. -/
theorem precheck_eq_some {s : State} {i : Instr} {f : Failure} (h : s.precheck i = some f) :
    (f = .errPhase ∧ i.allowedIn s.ctx.phase = false) ∨
    (f = .errCursor ∧ i.needsFullCursor = true ∧ i.allowedIn s.ctx.phase = true ∧ s.ctx.pos ≠ s.ctx.alg.rate) ∨
    (f = .errLength ∧ i.allowedIn s.ctx.phase = true ∧ lengthsOk s.build.params i s.txn = false) := by
  unfold State.precheck at h
  by_cases h1 : i.allowedIn s.ctx.phase = true <;> by_cases h2 : i.needsFullCursor = true <;>
    by_cases h3 : s.ctx.pos = s.ctx.alg.rate <;> by_cases h4 : lengthsOk s.build.params i s.txn = true <;>
    simp_all

theorem lengthsOk_iff (p : Params) (i : Instr) (t : Transaction) :
    lengthsOk p i t = true ↔ (∀ n, i.dinLen p = some n → t.din.length = n) ∧ t.cin.length = i.cinLen p := by
  unfold lengthsOk
  cases i.dinLen p <;> simp

/-- A command of a bad build is refused, whatever it is. -/
theorem exec_of_bad (i : Instr) (s : State) (h : ¬ s.build.params.Ok) : exec i s = .refused .badParams := by
  rw [exec_eq_perform]; exact perform_of_bad s i _ h

/-- Everything one step can do. -/
theorem step_cases (s : State) :
    (s.pending = [] ∧ step s = .next s) ∨
    (∃ rest, s.pending = .reset :: rest ∧ step s = .next (s.applyReset rest)) ∨
    (∃ t rest i, s.pending = .command t :: rest ∧ decode t.cmd = .ok i ∧ step s = exec i (s.begin t rest)) ∨
    (∃ t rest e, s.pending = .command t :: rest ∧ decode t.cmd = .error e ∧
      step s = (s.begin t rest).performIllegal) := by
  unfold step
  cases hp : s.pending with
  | nil => exact .inl ⟨rfl, rfl⟩
  | cons ev rest =>
    cases ev with
    | reset => exact .inr (.inl ⟨rest, rfl, rfl⟩)
    | command t =>
      cases hd : decode t.cmd with
      | ok i => exact .inr (.inr (.inl ⟨t, rest, i, rfl, hd, by simp [hd]⟩))
      | error e => exact .inr (.inr (.inr ⟨t, rest, e, rfl, hd, by simp [hd]⟩))

/-- A command whose checks pass ends as its rule says. -/
theorem exec_of_ready {i : Instr} {s : State} (hok : s.build.params.Ok) (h1 : i.allowedIn s.ctx.phase = true)
    (h2 : i.needsFullCursor = true → s.ctx.pos = s.ctx.alg.rate) (h3 : lengthsOk s.build.params i s.txn = true) :
    exec i s = .next (s.respond (ruleOf i s)) := by
  rw [exec_eq_perform]
  exact perform_of_ready s i _ hok ((precheck_eq_none s i).mpr ⟨h1, h2, h3⟩)

theorem exec_of_phase {i : Instr} {s : State} (hok : s.build.params.Ok) (h : i.allowedIn s.ctx.phase = false) :
    exec i s = .next (s.raise .errPhase) := by
  rw [exec_eq_perform]
  exact perform_of_check s i _ _ hok (by simp [State.precheck, h])

theorem exec_of_cursor {i : Instr} {s : State} (hok : s.build.params.Ok) (h1 : i.allowedIn s.ctx.phase = true)
    (h2 : i.needsFullCursor = true) (h3 : s.ctx.pos ≠ s.ctx.alg.rate) : exec i s = .next (s.raise .errCursor) := by
  rw [exec_eq_perform]
  exact perform_of_check s i _ _ hok (by simp [State.precheck, h1, h2, h3])

theorem exec_of_length {i : Instr} {s : State} (hok : s.build.params.Ok) (h1 : i.allowedIn s.ctx.phase = true)
    (h2 : i.needsFullCursor = true → s.ctx.pos = s.ctx.alg.rate) (h3 : lengthsOk s.build.params i s.txn = false) :
    exec i s = .next (s.raise .errLength) := by
  rw [exec_eq_perform]
  refine perform_of_check s i _ _ hok ?_
  by_cases hc : i.needsFullCursor = true
  · simp [State.precheck, h1, h2 hc, h3]
  · simp [State.precheck, h1, hc, h3]

/-- Everything a command can do when it answers a next state. -/
theorem exec_cases {i : Instr} {s t : State} (h : exec i s = .next t) :
    s.build.params.Ok ∧
      ((∃ f, s.precheck i = some f ∧ t = s.raise f) ∨
       (s.precheck i = none ∧ ∃ f, ruleOf i s = .error f ∧ t = s.raise f) ∨
       (s.precheck i = none ∧ ∃ e, ruleOf i s = .ok e ∧ t = s.deliver e)) :=
  perform_next (exec_eq_perform i s ▸ h)

/-- A command of a good build always answers. -/
theorem exec_answers (i : Instr) (s : State) (hok : s.build.params.Ok) :
    (∃ f, exec i s = .next (s.raise f)) ∨ ∃ e, exec i s = .next (s.deliver e) := by
  rw [exec_eq_perform]
  cases hc : s.precheck i with
  | some f => exact .inl ⟨f, perform_of_check s i _ f hok hc⟩
  | none =>
    rw [perform_of_ready s i _ hok hc]
    cases ruleOf i s with
    | ok e => exact .inr ⟨e, rfl⟩
    | error f => exact .inl ⟨f, rfl⟩

/-- An illegal word of a good build ends in `ERR_OPCODE`. -/
theorem performIllegal_of_ok (s : State) (hok : s.build.params.Ok) :
    s.performIllegal = .next (s.raise .errOpcode) := guarded_of_ok s _ hok

theorem faultAfter_of_fault (fault : Bool) (f : Failure) (h : f ≠ .malformed) :
    faultAfter fault (.failed f) = true := by
  cases f <;> simp_all [faultAfter, Status.isFault, Failure.isFault]

theorem faultAfter_malformed (fault : Bool) : faultAfter fault (.failed .malformed) = fault := by
  simp [faultAfter, Status.isFault, Failure.isFault]

/-- `raise` of a fault, field by field. -/
theorem raise_of_fault (s : State) (f : Failure) (h : f ≠ .malformed) :
    s.raise f = { s with fault := true, response := some { status := .failed f, dout := [], cout := [] } } := by
  simp only [State.raise, faultAfter_of_fault _ _ h]

/-- `raise MALFORMED`, field by field. -/
theorem raise_malformed (s : State) :
    s.raise .malformed = { s with response := some { status := .failed .malformed, dout := [], cout := [] } } := by
  simp only [State.raise, faultAfter_malformed]

/-! ### Responses -/

open Claims in
/-- A command whose checks pass and whose rule succeeds answers what the rule delivers. -/
theorem answers_of {i : Instr} {s : State} {e : Effect} (hok : s.build.params.Ok)
    (h1 : i.allowedIn s.ctx.phase = true) (h2 : i.needsFullCursor = true → s.ctx.pos = s.ctx.alg.rate)
    (h3 : ∀ n, i.dinLen s.build.params = some n → s.txn.din.length = n)
    (h4 : s.txn.cin.length = i.cinLen s.build.params) (h : ruleOf i s = .ok e) : Answers i s e.ctx e.dout e.cout := by
  unfold Answers
  rw [exec_of_ready hok h1 h2 ((lengthsOk_iff _ _ _).mpr ⟨h3, h4⟩), h]
  rfl

open Claims in
/-- A command whose checks pass and whose rule fails raises that failure. -/
theorem faults_of {i : Instr} {s : State} {f : Failure} (hf : f ≠ .malformed) (hok : s.build.params.Ok)
    (h1 : i.allowedIn s.ctx.phase = true) (h2 : i.needsFullCursor = true → s.ctx.pos = s.ctx.alg.rate)
    (h3 : ∀ n, i.dinLen s.build.params = some n → s.txn.din.length = n)
    (h4 : s.txn.cin.length = i.cinLen s.build.params) (h : ruleOf i s = .error f) : Faults i s f := by
  unfold Faults
  rw [exec_of_ready hok h1 h2 ((lengthsOk_iff _ _ _).mpr ⟨h3, h4⟩), h]
  exact congrArg _ (raise_of_fault s f hf)

open Claims in
theorem faults_of_phase {i : Instr} {s : State} (hok : s.build.params.Ok) (h : i.allowedIn s.ctx.phase = false) :
    Faults i s .errPhase :=
  (exec_of_phase hok h).trans (by rw [raise_of_fault _ _ (by decide)])

open Claims in
theorem faults_of_cursor {i : Instr} {s : State} (hok : s.build.params.Ok) (h1 : i.allowedIn s.ctx.phase = true)
    (h2 : i.needsFullCursor = true) (h3 : s.ctx.pos ≠ s.ctx.alg.rate) : Faults i s .errCursor :=
  (exec_of_cursor hok h1 h2 h3).trans (by rw [raise_of_fault _ _ (by decide)])

open Claims in
theorem faults_of_length {i : Instr} {s : State} (hok : s.build.params.Ok) (h1 : i.allowedIn s.ctx.phase = true)
    (h2 : i.needsFullCursor = true → s.ctx.pos = s.ctx.alg.rate)
    (h3 : (∃ n, i.dinLen s.build.params = some n ∧ s.txn.din.length ≠ n) ∨
      s.txn.cin.length ≠ i.cinLen s.build.params) : Faults i s .errLength := by
  have : lengthsOk s.build.params i s.txn = false := by
    rw [← Bool.not_eq_true, lengthsOk_iff]
    rintro ⟨a, b⟩
    rcases h3 with ⟨n, hn, hne⟩ | h
    · exact hne (a n hn)
    · exact h b
  exact (exec_of_length hok h1 h2 this).trans (by rw [raise_of_fault _ _ (by decide)])

/-- R84's table and the checks of the machine demand the same lengths. -/
theorem lengthRow_din (i : Instr) (p : Params) (r n : Nat) : (i.lengthRow p r n).din = i.dinLen p := by
  cases i <;> rfl

theorem lengthRow_cin (i : Instr) (p : Params) (r n : Nat) : (i.lengthRow p r n).cin = i.cinLen p := by
  cases i <;> rfl

theorem needsFullCursor_iff (i : Instr) : i.needsFullCursor = true ↔ i = .squeezeblocks := by
  cases i <;> decide

/-! ### Runs -/

open Claims in
theorem runs_add (m n : Nat) {s t u : State} (h1 : Runs m s t) (h2 : Runs n t u) : Runs (m + n) s u := by
  induction m generalizing s with
  | zero =>
    unfold Runs at h1
    subst h1
    rwa [Nat.zero_add]
  | succ m ih =>
    obtain ⟨v, hv, hr⟩ := h1
    rw [Nat.add_right_comm]
    exact ⟨v, hv, ih hr⟩

open Claims in
/-- One step on an issued command whose checks pass and whose rule succeeds. -/
theorem step_issue {s : State} {w : CmdWord} {arg : Nat} {d : List Byte} {rest : List HostEvent} {i : Instr}
    {e : Effect} (hok : s.build.params.Ok) (hp : s.pending = issue w arg d :: rest) (hd : decode w = .ok i)
    (h1 : i.allowedIn s.ctx.phase = true) (h2 : i.needsFullCursor = true → s.ctx.pos = s.ctx.alg.rate)
    (h3 : ∀ n, i.dinLen s.build.params = some n → d.length = n) (h4 : i.cinLen s.build.params = 0)
    (hr : ruleOf i { s with txn := { cmd := w, arg := arg, din := d, cin := [] }, pending := rest } = .ok e) :
    step s = .next
      { s with
        txn := { cmd := w, arg := arg, din := d, cin := [] }, pending := rest, ctx := e.ctx
        response := some { status := .ok, dout := e.dout, cout := e.cout } } := by
  have hs : step s = exec i { s with txn := { cmd := w, arg := arg, din := d, cin := [] }, pending := rest } := by
    unfold step
    rw [hp]
    simp only [issue, hd]
    rfl
  rw [hs]
  exact answers_of (i := i)
    (s := { s with txn := { cmd := w, arg := arg, din := d, cin := [] }, pending := rest }) hok h1 h2 h3 h4.symm hr

end Sys2Proof.Machine
end

