-- ==== Sys2Proof/Laws/Packing.lean ====
section
/-! SUPPORT. The laws of the bit packer, of vectors packed row by row, and of the codecs. -/

namespace Sys2Proof.Machine

/-! ### The bit packer -/

theorem length_bitPack (u : List Nat) (w : Nat) : (bitPack u w).length = u.length * w / 8 := by
  simp [bitPack, length_toFields]

theorem byteVals_bitPack (u : List Nat) (w : Nat) :
    byteVals (bitPack u w) = toFields 8 (u.length * w / 8) (ofFields w u) :=
  byteVals_map_ofNat _ (toFields_lt 8 _ _)

/-- Packed bytes hold the whole number `S` (R222). -/
theorem ofFields_bitPack (u : List Nat) (w : Nat) (h8 : 8 ∣ u.length * w) (h : ∀ x ∈ u, x < 2 ^ w) :
    ofFields 8 (byteVals (bitPack u w)) = ofFields w u := by
  rw [byteVals_bitPack]
  apply ofFields_toFields
  rw [Nat.mul_div_cancel' h8, Nat.mul_comm]
  exact ofFields_lt w u h

theorem length_bitUnpack (b : List Byte) (w n : Nat) : (bitUnpack b w n).length = n := length_toFields _ _ _

theorem bitUnpack_lt (b : List Byte) (w n : Nat) : ∀ x ∈ bitUnpack b w n, x < 2 ^ w := toFields_lt _ _ _

theorem bitUnpack_bitPack (u : List Nat) (w : Nat) (h8 : 8 ∣ u.length * w) (h : ∀ x ∈ u, x < 2 ^ w) :
    bitUnpack (bitPack u w) w u.length = u := by
  rw [bitUnpack, ofFields_bitPack u w h8 h, toFields_ofFields w u h]

theorem bitPack_bitUnpack (b : List Byte) (w n : Nat) (h : 8 * b.length = n * w) :
    bitPack (bitUnpack b w n) w = b := by
  have hlt : ofFields 8 (byteVals b) < 2 ^ (w * n) := by
    have := ofFields_lt 8 (byteVals b) (byteVals_lt b)
    rwa [length_byteVals, h, Nat.mul_comm] at this
  rw [bitPack, length_bitUnpack, bitUnpack, ofFields_toFields w n _ hlt, ← h, Nat.mul_div_cancel_left _ (by omega)]
  have := toFields_ofFields 8 (byteVals b) (byteVals_lt b)
  rw [length_byteVals] at this
  rw [this, map_ofNat_byteVals]

/-- Bit `k` of the packed bytes is bit `k mod w` of field `floor(k / w)` (R222). -/
theorem bit_bitPack (u : List Nat) (w : Nat) (hw : 1 ≤ w) (h8 : 8 ∣ u.length * w) (h : ∀ x ∈ u, x < 2 ^ w) (k : Nat) :
    ((bitPack u w).getD (k / 8) 0).getLsbD (k % 8) = (u.getD (k / w) 0).testBit (k % w) := by
  rw [← testBit_byteVals, ofFields_bitPack u w h8 h, testBit_ofFields w hw u h]

/-- Bit `m` of field `j` of a packed polynomial is bit `j*w + m` of its bit string (R94, R223). -/
theorem testBit_bitUnpack (b : List Byte) (w n j m : Nat) (hj : j < n) (hm : m < w) :
    ((bitUnpack b w n).getD j 0).testBit m = (b.getD ((j * w + m) / 8) 0).getLsbD ((j * w + m) % 8) := by
  have hl : j < (toFields w n (ofFields 8 (byteVals b))).length := by rw [length_toFields]; exact hj
  rw [bitUnpack, List.getD_eq_getElem _ _ hl, getElem_toFields, ← testBit_byteVals]
  simp [Nat.testBit_mod_two_pow, Nat.testBit_div_two_pow, hm, Nat.add_comm]

/-! ### Vectors, row by row -/

theorem length_flatMap_rows {α : Type} (rows m : Nat) (f : Nat → List α) (h : ∀ i, i < rows → (f i).length = m) :
    ((List.range rows).flatMap f).length = rows * m := by
  induction rows with
  | zero => simp
  | succ n ih =>
    rw [List.range_succ, List.flatMap_append, List.length_append, ih fun i hi => h i (by omega)]
    simp [h n (by omega), Nat.succ_mul]

theorem getD_flatMap_rows {α : Type} (rows m : Nat) (f : Nat → List α) (h : ∀ i, i < rows → (f i).length = m)
    (i j : Nat) (hi : i < rows) (hj : j < m) (d : α) :
    ((List.range rows).flatMap f).getD (i * m + j) d = (f i).getD j d := by
  induction rows with
  | zero => omega
  | succ n ih =>
    have hl := length_flatMap_rows n m f fun i hi => h i (by omega)
    rw [List.range_succ, List.flatMap_append]
    by_cases hin : i < n
    · have : i * m + j < n * m := by
        calc i * m + j < i * m + m := by omega
          _ = (i + 1) * m := by ring
          _ ≤ n * m := Nat.mul_le_mul_right _ hin
      rw [← ih (fun i hi => h i (by omega)) hin]
      simp only [List.getD_eq_getElem?_getD]
      rw [List.getElem?_append_left (by omega)]
    · have : i = n := by omega
      subst this
      simp only [List.getD_eq_getElem?_getD]
      rw [List.getElem?_append_right (by omega), hl]
      simp

theorem rowOf_flatMap_rows {α : Type} (rows m : Nat) (f : Nat → List α) (h : ∀ i, i < rows → (f i).length = m)
    (i : Nat) (hi : i < rows) : rowOf ((List.range rows).flatMap f) m i = f i := by
  induction rows with
  | zero => omega
  | succ n ih =>
    have hl := length_flatMap_rows n m f fun i hi => h i (by omega)
    rw [List.range_succ, List.flatMap_append, rowOf]
    by_cases hin : i < n
    · have : (i + 1) * m ≤ n * m := Nat.mul_le_mul_right _ hin
      rw [Nat.add_mul, Nat.one_mul] at this
      rw [← ih (fun i hi => h i (by omega)) hin, rowOf, slice, slice, List.drop_append_of_le_length (by omega),
        List.take_append_of_le_length (by rw [List.length_drop]; omega)]
    · have hn : i = n := by omega
      subst hn
      rw [slice_skip _ _ _ _ _ hl le_rfl, Nat.sub_self]
      simp only [List.flatMap_cons, List.flatMap_nil, List.append_nil]
      exact slice_zero_all _ _ (by rw [h i (by omega)])

theorem flatMap_rowOf {α : Type} (v : List α) (rows n : Nat) (h : v.length = rows * n) :
    ((List.range rows).flatMap fun i => rowOf v n i) = v := by
  have key : ∀ r, r ≤ rows → ((List.range r).flatMap fun i => rowOf v n i) = v.take (r * n) := by
    intro r hr
    induction r with
    | zero => simp
    | succ r ih =>
      rw [List.range_succ, List.flatMap_append, ih (by omega), Nat.succ_mul, List.take_add]
      simp [rowOf, slice]
  rw [key rows le_rfl, ← h, List.take_length]

theorem length_rowOf {α : Type} (v : List α) (rows n i : Nat) (h : v.length = rows * n) (hi : i < rows) :
    (rowOf v n i).length = n := by
  have : (i + 1) * n ≤ rows * n := Nat.mul_le_mul_right _ hi
  rw [Nat.add_mul, Nat.one_mul] at this
  rw [rowOf, length_slice, h]
  omega

theorem mem_of_mem_slice {α : Type} {v : List α} {i n : Nat} {x : α} (h : x ∈ slice v i n) : x ∈ v :=
  List.mem_of_mem_drop (List.mem_of_mem_take h)

/-! ### Codecs -/

/-- What makes a codec one: on the bound it encodes into codes of its width and decodes back, and on the codes it
decodes into the bound and encodes back. -/
structure Codec.Good (c : Codec) : Prop where
  width_pos : 1 ≤ c.width
  enc_lt : ∀ x, c.inBound x = true → c.enc x < 2 ^ c.width
  enc_code : ∀ x, c.inBound x = true → c.isCode (c.enc x) = true
  dec_enc : ∀ x, c.inBound x = true → c.dec (c.enc x) = x
  dec_bound : ∀ u, u < 2 ^ c.width → c.isCode u = true → c.inBound (c.dec u) = true
  enc_dec : ∀ u, u < 2 ^ c.width → c.isCode u = true → c.enc (c.dec u) = u

/-- R226. -/
theorem t1Codec_good : t1Codec.Good where
  width_pos := by decide
  enc_lt x h := by
    simp only [t1Codec, T1BITS, decide_eq_true_eq] at h ⊢
    omega
  enc_code _ _ := rfl
  dec_enc x h := by
    simp only [t1Codec, decide_eq_true_eq] at h ⊢
    omega
  dec_bound u h _ := by
    simp only [t1Codec, T1BITS, decide_eq_true_eq] at h ⊢
    omega
  enc_dec u _ _ := by simp [t1Codec]

/-- R227: every `D`-bit code is the code of one coefficient in the bound. -/
theorem t0Codec_good (p : Params) (h : p.P2) : (t0Codec p).Good := by
  have hd := h.1
  have hw : (t0Codec p).width = p.D := p.T0BITS_eq_D hd
  have h2 := two_pow_D p hd
  have h1 : 1 ≤ 2 ^ (p.D - 1) := Nat.one_le_two_pow
  have hc : ((2 ^ (p.D - 1) : Nat) : Int) = 2 ^ (p.D - 1) := by push_cast; rfl
  constructor
  · rw [hw]; exact hd
  · intro x hx
    rw [hw, h2]
    simp only [t0Codec, decide_eq_true_eq] at hx ⊢
    rw [← hc] at hx ⊢
    omega
  · intro x _; rfl
  · intro x hx
    simp only [t0Codec, decide_eq_true_eq] at hx ⊢
    rw [← hc] at hx ⊢
    omega
  · intro u hu _
    rw [hw, h2] at hu
    simp only [t0Codec, decide_eq_true_eq]
    rw [← hc]
    omega
  · intro u hu _
    rw [hw, h2] at hu
    simp only [t0Codec]
    rw [← hc]
    omega

/-- R228: the codes are `0 .. 2*ETA`. -/
theorem etaCodec_good (p : Params) (h : p.P6) : (etaCodec p).Good := by
  have hf := p.ETABITS_fits
  have he := h.1
  constructor
  · show 1 ≤ p.ETABITS
    by_contra h0
    have : p.ETABITS = 0 := by omega
    rw [this] at hf
    omega
  · intro x hx
    show (p.ETA - x).toNat < 2 ^ p.ETABITS
    simp only [etaCodec, decide_eq_true_eq] at hx
    omega
  · intro x hx
    simp only [etaCodec, decide_eq_true_eq] at hx ⊢
    omega
  · intro x hx
    simp only [etaCodec, decide_eq_true_eq] at hx ⊢
    omega
  · intro u _ hu
    simp only [etaCodec, decide_eq_true_eq] at hu ⊢
    omega
  · intro u _ hu
    simp only [etaCodec, decide_eq_true_eq] at hu ⊢
    omega

/-- R260, R261: every `ZBITS`-bit code is the code of one coefficient in the bound. -/
theorem zCodec_good (p : Params) (h6 : p.P6) (h : p.P7) : (zCodec p).Good := by
  have hz := p.two_pow_ZBITS h
  have hg := h6.2
  constructor
  · show 1 ≤ p.ZBITS
    by_contra h0
    have : p.ZBITS = 0 := by omega
    rw [this] at hz
    omega
  · intro x hx
    show (p.GAMMA1 - x).toNat < 2 ^ p.ZBITS
    simp only [zCodec, decide_eq_true_eq] at hx
    omega
  · intro x _; rfl
  · intro x hx
    simp only [zCodec, decide_eq_true_eq] at hx ⊢
    omega
  · intro u hu _
    have hu' : u < 2 ^ p.ZBITS := hu
    simp only [zCodec, decide_eq_true_eq]
    omega
  · intro u hu _
    simp only [zCodec]
    omega

/-! ### Packed vectors -/

/-- The bytes of a packed vector, in bounds or not. -/
def packedRows (p : Params) (c : Codec) (v : List Int) (rows : Nat) : List Byte :=
  (List.range rows).flatMap fun i => packRow c (rowOf v p.N i)

theorem packVec_of_bound (p : Params) (c : Codec) (v : List Int) (rows : Nat) (h : v.all c.inBound = true) :
    packVec p c v rows = .ok (packedRows p c v rows) := if_pos h

theorem packVec_of_range (p : Params) (c : Codec) (v : List Int) (rows : Nat) (h : v.all c.inBound = false) :
    packVec p c v rows = .error .errRange := by simp [packVec, h]

theorem packVec_eq_ok {p : Params} {c : Codec} {v : List Int} {rows : Nat} {b : List Byte}
    (h : packVec p c v rows = .ok b) : v.all c.inBound = true ∧ b = packedRows p c v rows := by
  unfold packVec at h
  split at h
  · next hb => exact ⟨hb, by injection h with h; exact h.symm⟩
  · cases h

theorem packVec_eq_error {p : Params} {c : Codec} {v : List Int} {rows : Nat} {f : Failure}
    (h : packVec p c v rows = .error f) : f = .errRange ∧ v.all c.inBound = false := by
  unfold packVec at h
  split at h
  · cases h
  · next hb => exact ⟨by injection h with h; exact h.symm, by simpa using hb⟩

theorem length_packRow (p : Params) (c : Codec) (row : List Int) (h : row.length = p.N) :
    (packRow c row).length = p.polyBytes c.width := by
  simp [packRow, length_bitPack, h, Params.polyBytes]

theorem length_packedRows (p : Params) (c : Codec) (v : List Int) (rows : Nat) (h : v.length = rows * p.N) :
    (packedRows p c v rows).length = rows * p.polyBytes c.width :=
  length_flatMap_rows _ _ _ fun i hi => length_packRow p c _ (length_rowOf v rows p.N i h hi)

theorem rowOf_packedRows (p : Params) (c : Codec) (v : List Int) (rows i : Nat) (h : v.length = rows * p.N)
    (hi : i < rows) : rowOf (packedRows p c v rows) (p.polyBytes c.width) i = packRow c (rowOf v p.N i) :=
  rowOf_flatMap_rows _ _ _ (fun i hi => length_packRow p c _ (length_rowOf v rows p.N i h hi)) i hi

theorem length_unpackFields (p : Params) (c : Codec) (b : List Byte) (rows : Nat) :
    (unpackFields p c b rows).length = rows * p.N :=
  length_flatMap_rows _ _ _ fun _ _ => length_bitUnpack _ _ _

theorem rowOf_unpackFields (p : Params) (c : Codec) (b : List Byte) (rows i : Nat) (hi : i < rows) :
    rowOf (unpackFields p c b rows) p.N i = bitUnpack (rowOf b (p.polyBytes c.width) i) c.width p.N :=
  rowOf_flatMap_rows _ _ _ (fun _ _ => length_bitUnpack _ _ _) i hi

theorem unpackFields_lt (p : Params) (c : Codec) (b : List Byte) (rows : Nat) :
    ∀ u ∈ unpackFields p c b rows, u < 2 ^ c.width := by
  intro u hu
  obtain ⟨i, -, hi⟩ := List.mem_flatMap.mp hu
  exact bitUnpack_lt _ _ _ u hi

theorem rowOf_map {α β : Type} (f : α → β) (v : List α) (n i : Nat) : rowOf (v.map f) n i = (rowOf v n i).map f := by
  simp [rowOf, slice, List.map_take, List.map_drop]

/-- The fields of a packed vector are the codes of its coefficients. -/
theorem unpackFields_packedRows (p : Params) (c : Codec) (hc : c.Good) (h4 : p.P4) (v : List Int) (rows : Nat)
    (h : v.length = rows * p.N) (hb : v.all c.inBound = true) :
    unpackFields p c (packedRows p c v rows) rows = v.map c.enc := by
  have hbound : ∀ x ∈ v, c.inBound x = true := List.all_eq_true.mp hb
  have hrow : ∀ i, i < rows →
      bitUnpack (rowOf (packedRows p c v rows) (p.polyBytes c.width) i) c.width p.N = rowOf (v.map c.enc) p.N i := by
    intro i hi
    have hl := length_rowOf v rows p.N i h hi
    rw [rowOf_packedRows p c v rows i h hi, rowOf_map, packRow]
    have hN : ((rowOf v p.N i).map c.enc).length = p.N := by simp [hl]
    have h8 : 8 ∣ ((rowOf v p.N i).map c.enc).length * c.width := by
      rw [hN]; exact ⟨_, (p.polyBytes_mul h4 c.width).symm⟩
    have := bitUnpack_bitPack ((rowOf v p.N i).map c.enc) c.width h8 (by
      intro x hx
      obtain ⟨y, hy, rfl⟩ := List.mem_map.mp hx
      exact hc.enc_lt y (hbound y (mem_of_mem_slice hy)))
    rwa [hN] at this
  have hv : (v.map c.enc).length = rows * p.N := by simpa using h
  rw [← flatMap_rowOf (v.map c.enc) rows p.N hv]
  unfold unpackFields
  rw [List.flatMap_congr]
  intro i hi
  exact hrow i (List.mem_range.mp hi)

/-- Unpacking a packed vector gives it back (R238, R270). -/
theorem unpackVec_packedRows (p : Params) (c : Codec) (hc : c.Good) (h4 : p.P4) (v : List Int) (rows : Nat)
    (h : v.length = rows * p.N) (hb : v.all c.inBound = true) :
    unpackVec p c (packedRows p c v rows) rows = .ok v := by
  have hbound : ∀ x ∈ v, c.inBound x = true := List.all_eq_true.mp hb
  unfold unpackVec
  simp only [unpackFields_packedRows p c hc h4 v rows h hb]
  rw [if_pos]
  · congr 1
    rw [List.map_map]
    conv_rhs => rw [← List.map_id v]
    exact List.map_congr_left fun x hx => hc.dec_enc x (hbound x hx)
  · rw [List.all_map, List.all_eq_true]
    exact fun x hx => hc.enc_code x (hbound x hx)

theorem unpackVec_eq_ok {p : Params} {c : Codec} {b : List Byte} {rows : Nat} {v : List Int}
    (h : unpackVec p c b rows = .ok v) :
    (∀ u ∈ unpackFields p c b rows, c.isCode u = true) ∧ v = (unpackFields p c b rows).map c.dec := by
  unfold unpackVec at h
  simp only at h
  split at h
  · next hb => exact ⟨List.all_eq_true.mp hb, by injection h with h; exact h.symm⟩
  · cases h

theorem unpackVec_eq_error {p : Params} {c : Codec} {b : List Byte} {rows : Nat} {f : Failure}
    (h : unpackVec p c b rows = .error f) : f = .errRange ∧ ∃ u ∈ unpackFields p c b rows, c.isCode u = false := by
  unfold unpackVec at h
  simp only at h
  split at h
  · cases h
  · next hb => exact ⟨by injection h with h; exact h.symm, by simpa using hb⟩

theorem unpackVec_of_codes (p : Params) (c : Codec) (b : List Byte) (rows : Nat)
    (h : ∀ u ∈ unpackFields p c b rows, c.isCode u = true) :
    unpackVec p c b rows = .ok ((unpackFields p c b rows).map c.dec) := by
  unfold unpackVec
  exact if_pos (List.all_eq_true.mpr h)

theorem unpackVec_of_not_codes (p : Params) (c : Codec) (b : List Byte) (rows : Nat)
    (h : ∃ u ∈ unpackFields p c b rows, c.isCode u = false) : unpackVec p c b rows = .error .errRange := by
  unfold unpackVec
  refine if_neg ?_
  rw [List.all_eq_true]
  intro hall
  obtain ⟨u, hu, hf⟩ := h
  rw [hall u hu] at hf
  cases hf

/-- What `PackVec` accepts, `UnpackVec` gives back (R238). -/
theorem unpackVec_packVec {p : Params} {c : Codec} {v : List Int} {rows : Nat} {b : List Byte} (hc : c.Good)
    (h4 : p.P4) (hl : v.length = rows * p.N) (h : packVec p c v rows = .ok b) : unpackVec p c b rows = .ok v := by
  obtain ⟨hb, rfl⟩ := packVec_eq_ok h
  exact unpackVec_packedRows p c hc h4 v rows hl hb

/-- What a vector unpacks to is in its bound, of the right length, and packs back to the same bytes. -/
theorem unpackVec_back {p : Params} {c : Codec} {b : List Byte} {rows : Nat} {v : List Int} (hc : c.Good) (h4 : p.P4)
    (hl : b.length = rows * p.polyBytes c.width) (h : unpackVec p c b rows = .ok v) :
    v.length = rows * p.N ∧ v.all c.inBound = true ∧ packedRows p c v rows = b := by
  obtain ⟨hcode, rfl⟩ := unpackVec_eq_ok h
  have hlt := unpackFields_lt p c b rows
  have hlen := length_unpackFields p c b rows
  refine ⟨by simpa using hlen, ?_, ?_⟩
  · rw [List.all_map, List.all_eq_true]
    exact fun u hu => hc.dec_bound u (hlt u hu) (hcode u hu)
  · conv_rhs => rw [← flatMap_rowOf b rows _ hl]
    unfold packedRows
    rw [List.flatMap_congr]
    intro i hi
    have hi := List.mem_range.mp hi
    rw [rowOf_map, packRow, List.map_map]
    have hid : (rowOf (unpackFields p c b rows) p.N i).map (c.enc ∘ c.dec) = rowOf (unpackFields p c b rows) p.N i := by
      conv_rhs => rw [← List.map_id (rowOf (unpackFields p c b rows) p.N i)]
      apply List.map_congr_left
      intro u hu
      have hu := mem_of_mem_slice hu
      exact hc.enc_dec u (hlt u hu) (hcode u hu)
    rw [hid, rowOf_unpackFields p c b rows i hi]
    apply bitPack_bitUnpack
    rw [length_rowOf b rows _ i hl hi]
    exact p.polyBytes_mul h4 c.width

/-- What `UnpackVec` accepts, `PackVec` gives back, for every codec and every bound (R238, the converse). -/
theorem packVec_unpackVec {p : Params} {c : Codec} {b : List Byte} {rows : Nat} {v : List Int} (hc : c.Good)
    (h4 : p.P4) (hl : b.length = rows * p.polyBytes c.width) (h : unpackVec p c b rows = .ok v) :
    packVec p c v rows = .ok b := by
  obtain ⟨-, hb, hp⟩ := unpackVec_back hc h4 hl h
  rw [packVec_of_bound p c v rows hb, hp]

end Sys2Proof.Machine
end

