-- ==== Sys2Proof/Laws/Buffers.lean ====
section
/-! SUPPORT. Fields of a packed buffer, by their bits: what `HoldsField` says of a buffer in terms of the unpacker. -/

namespace Sys2Proof.Machine

open Sys2Proof.Claims

/-- The value a field holds is the one the unpacker reads there. -/
theorem holdsField_iff (b : List Byte) (off w n j u : Nat) (hj : j < n) (h8 : 8 ∣ n * w) :
    HoldsField b off w j u ↔ (bitUnpack (slice b off (n * w / 8)) w n).getD j 0 = u := by
  have hlt : (bitUnpack (slice b off (n * w / 8)) w n).getD j 0 < 2 ^ w := by
    rw [List.getD_eq_getElem _ _ (by rw [length_bitUnpack]; exact hj)]
    exact bitUnpack_lt _ _ _ _ (List.getElem_mem _)
  have hbit : ∀ m, m < w → bufferBit b (8 * off + (j * w + m))
      = ((bitUnpack (slice b off (n * w / 8)) w n).getD j 0).testBit m := by
    intro m hm
    have hk : (j * w + m) / 8 < n * w / 8 := by
      have : (j + 1) * w ≤ n * w := Nat.mul_le_mul_right _ hj
      rw [add_mul, one_mul] at this
      obtain ⟨c, hc⟩ := h8
      rw [hc] at this ⊢
      omega
    rw [testBit_bitUnpack _ _ _ _ _ hj hm, getD_slice _ _ _ _ _ hk]
    unfold bufferBit
    rw [show (8 * off + (j * w + m)) / 8 = off + (j * w + m) / 8 by omega,
      show (8 * off + (j * w + m)) % 8 = (j * w + m) % 8 by omega]
  constructor
  · rintro ⟨hu, hm⟩
    apply Nat.eq_of_testBit_eq
    intro m
    by_cases h : m < w
    · rw [← hbit m h, hm m h]
    · have hp : 2 ^ w ≤ 2 ^ m := Nat.pow_le_pow_right (by omega) (by omega)
      rw [Nat.testBit_lt_two_pow (by omega), Nat.testBit_lt_two_pow (by omega)]
  · rintro rfl
    exact ⟨hlt, hbit⟩

/-- Every field holds one value. -/
theorem holdsField_exists (b : List Byte) (off w j : Nat) : ∃ u, HoldsField b off w j u := by
  refine ⟨(bitUnpack (slice b off ((8 * (j + 1)) * w / 8)) w (8 * (j + 1))).getD j 0, ?_⟩
  exact (holdsField_iff b off w (8 * (j + 1)) j _ (by omega) ⟨(j + 1) * w, by ring⟩).mpr rfl

theorem holdsField_unique {b : List Byte} {off w j u v : Nat} (hu : HoldsField b off w j u)
    (hv : HoldsField b off w j v) : u = v := by
  have h8 : 8 ∣ (8 * (j + 1)) * w := ⟨(j + 1) * w, by ring⟩
  rw [← (holdsField_iff b off w _ j u (by omega) h8).mp hu, (holdsField_iff b off w _ j v (by omega) h8).mp hv]

/-- Row `i` of the packed vector at byte offset `base`. -/
theorem rowOf_slice {α : Type} (b : List α) (base rows m i : Nat) (hi : i < rows) :
    rowOf (slice b base (rows * m)) m i = slice b (base + i * m) m := by
  unfold rowOf slice
  have : (i + 1) * m ≤ rows * m := Nat.mul_le_mul_right _ hi
  rw [add_mul, one_mul] at this
  rw [List.drop_take, List.take_take, List.drop_drop, min_eq_left (by omega)]

/-- The field of row `i` and column `j` of the packed vector at byte offset `base`. -/
theorem holdsField_iff_unpackFields (p : Params) (c : Codec) (h4 : p.P4) (b : List Byte) (base rows i j u : Nat)
    (hi : i < rows) (hj : j < p.N) :
    HoldsField b (base + i * p.polyBytes c.width) c.width j u ↔
      (unpackFields p c (slice b base (rows * p.polyBytes c.width)) rows).getD (i * p.N + j) 0 = u := by
  have h8 : 8 ∣ p.N * c.width := Dvd.dvd.mul_right (Nat.dvd_of_mod_eq_zero h4.2.2) _
  rw [holdsField_iff b _ _ p.N j u hj h8]
  unfold unpackFields
  rw [getD_flatMap_rows _ p.N _ (fun _ _ => length_bitUnpack _ _ _) i j hi hj, rowOf_slice _ _ _ _ _ hi]
  rfl

/-- The field of a buffer in which a packed vector stands at byte offset `base`. -/
theorem holdsField_packedRows (p : Params) (c : Codec) (hc : c.Good) (h4 : p.P4) (v : List Int) (b : List Byte)
    (base rows i j : Nat) (hv : v.length = rows * p.N) (hb : v.all c.inBound = true)
    (hs : slice b base (rows * p.polyBytes c.width) = packedRows p c v rows) (hi : i < rows) (hj : j < p.N) :
    HoldsField b (base + i * p.polyBytes c.width) c.width j (c.enc (v.getD (i * p.N + j) 0)) := by
  rw [holdsField_iff_unpackFields p c h4 b base rows i j _ hi hj, hs, unpackFields_packedRows p c hc h4 v rows hv hb]
  have hlt : i * p.N + j < v.length := by
    have : (i + 1) * p.N ≤ rows * p.N := Nat.mul_le_mul_right _ hi
    rw [add_mul, one_mul] at this
    omega
  rw [List.getD_eq_getElem _ _ (by rw [List.length_map]; exact hlt), List.getElem_map, List.getD_eq_getElem _ _ hlt]

theorem getD_coeffVals (c : List Coeff) (k : Nat) : (coeffVals c).getD k 0 = coeffAt c k := by
  unfold coeffVals coeffAt
  rw [List.getD_eq_getElem?_getD, List.getElem?_map, List.getD_eq_getElem?_getD]
  generalize getElem? c k = o
  cases o <;> rfl

theorem coeffVals_slice (c : List Coeff) (i n : Nat) : coeffVals (slice c i n) = slice (coeffVals c) i n := by
  simp [coeffVals, slice, List.map_take, List.map_drop]

theorem within_iff (lo hi : Int) (c : List Coeff) : Within lo hi c ↔ ∀ x ∈ coeffVals c, lo ≤ x ∧ x ≤ hi := by
  unfold Within coeffVals
  simp

end Sys2Proof.Machine
end

