-- ==== Sys2Proof/Laws/Decode.lean ====
section
/-! SUPPORT. The fields of a command word. -/

namespace Sys2Proof

/-- A command word is its three fields, `ZERO`, `ALG`, `OPC`, from the most significant down (R81). -/
theorem word_of_fields (w : CmdWord) : zeroField w ++ (algField w ++ opcField w) = w := by
  unfold zeroField algField opcField
  apply BitVec.eq_of_getLsbD_eq
  intro k hk
  simp only [BitVec.getLsbD_append, BitVec.getLsbD_extractLsb']
  by_cases h1 : k < 8
  · simp [h1, show k < 10 by omega]
  · by_cases h2 : k < 10
    · simp [h1, h2, show k - 8 < 2 by omega, show 8 + (k - 8) = k by omega]
    · simp [h2, show k - 10 < 22 by omega, show 10 + (k - 10) = k by omega]

/-- Equal fields, equal words. -/
theorem word_ext {w v : CmdWord} (h1 : zeroField w = zeroField v) (h2 : algField w = algField v)
    (h3 : opcField w = opcField v) : w = v := by
  rw [← word_of_fields w, h1, h2, h3, word_of_fields v]

end Sys2Proof
end

