-- ==== Sys2Proof/Laws/Hint.lean ====
section
/-! SUPPORT. The laws of the hint section: rows of ones, the checking decoder, and that each undoes the other
(`spec/45_packing_sig.md` R262 to R265). -/

namespace Sys2Proof.Machine

/-! ### Rows of ones -/

theorem onesOf_append (a b : List Int) : onesOf (a ++ b) = onesOf a ++ (onesOf b).map (a.length + ·) := by
  unfold onesOf
  rw [List.length_append, List.range_add, List.filter_append, List.filter_map]
  congr 1
  · apply List.filter_congr
    intro j hj
    have := List.mem_range.mp hj
    simp [List.getElem?_append, this]
  · congr 1
    apply List.filter_congr
    intro j hj
    simp [List.getElem?_append]

theorem length_onesOf (row : List Int) : (onesOf row).length = row.count 1 := by
  induction row with
  | nil => rfl
  | cons x t ih =>
    have := onesOf_append [x] t
    rw [List.singleton_append] at this
    rw [this, List.length_append, List.length_map, ih, List.count_cons, Nat.add_comm]
    congr 1
    by_cases hx : x = 1
    · subst hx; rfl
    · have : onesOf [x] = [] := by simp [onesOf, hx]
      rw [this]; simp [hx]

theorem onesOf_pairwise (row : List Int) : (onesOf row).Pairwise (· < ·) :=
  List.Pairwise.filter _ List.pairwise_lt_range

theorem mem_onesOf (row : List Int) (j : Nat) : j ∈ onesOf row ↔ j < row.length ∧ row.getD j 0 = 1 := by
  simp [onesOf]

/-- The index of a one is written at its rank (R98, R262). -/
theorem onesOf_getD_count (row : List Int) (j : Nat) (hj : row.getD j 0 = 1) :
    (onesOf row).getD ((row.take j).count 1) 0 = j := by
  have hlt : j < row.length := by
    by_contra hge
    rw [List.getD_eq_default _ _ (by omega)] at hj
    exact zero_ne_one hj
  have hsplit : row = row.take j ++ (1 :: row.drop (j + 1)) := by
    conv_lhs => rw [← List.take_append_drop j row, List.drop_eq_getElem_cons hlt]
    rw [List.getD_eq_getElem _ _ hlt] at hj
    rw [hj]
  have hl : (row.take j).length = j := by simp; omega
  have h1 := onesOf_append (row.take j) (1 :: row.drop (j + 1))
  rw [← hsplit] at h1
  have h2 := onesOf_append [1] (row.drop (j + 1))
  rw [List.singleton_append] at h2
  have h3 : onesOf [1] = [0] := rfl
  rw [h1, h2, h3, ← length_onesOf, hl]
  simp

theorem length_rowBits (n : Nat) (cols : List Nat) : (rowBits n cols).length = n := by simp [rowBits]

theorem getD_rowBits (n : Nat) (cols : List Nat) (j : Nat) (hj : j < n) (d : Int) :
    (rowBits n cols).getD j d = if j ∈ cols then 1 else 0 := by simp [rowBits, hj]

theorem rowBits_zero_or_one (n : Nat) (cols : List Nat) : ∀ x ∈ rowBits n cols, x = 0 ∨ x = 1 := by
  intro x hx
  obtain ⟨j, -, rfl⟩ := List.mem_map.mp hx
  split
  · exact .inr rfl
  · exact .inl rfl

theorem rowBits_onesOf (row : List Int) (h01 : ∀ x ∈ row, x = 0 ∨ x = 1) :
    rowBits row.length (onesOf row) = row := by
  apply List.ext_getElem
  · exact length_rowBits _ _
  · intro j h1 h2
    have := getD_rowBits row.length (onesOf row) j h2 0
    rw [List.getD_eq_getElem _ _ h1] at this
    rw [this]
    simp only [mem_onesOf, h2, true_and, List.getD_eq_getElem _ _ h2]
    rcases h01 _ (List.getElem_mem h2) with h | h <;> simp [h]

theorem onesOf_rowBits (n : Nat) (cols : List Nat) (hp : cols.Pairwise (· < ·)) (hlt : ∀ j ∈ cols, j < n) :
    onesOf (rowBits n cols) = cols := by
  apply List.Pairwise.eq_of_mem_iff (onesOf_pairwise _) hp
  intro j
  rw [mem_onesOf, length_rowBits]
  constructor
  · rintro ⟨h1, h2⟩
    rw [getD_rowBits _ _ _ h1] at h2
    by_contra hno
    rw [if_neg hno] at h2
    exact zero_ne_one h2
  · intro hj
    have := hlt j hj
    exact ⟨this, by rw [getD_rowBits _ _ _ this, if_pos hj]⟩

theorem strictlyIncreasing_iff (l : List Nat) : strictlyIncreasing l = true ↔ l.Pairwise (· < ·) := by
  induction l with
  | nil => simp [strictlyIncreasing]
  | cons a t ih =>
    cases t with
    | nil => simp [strictlyIncreasing]
    | cons b t =>
      rw [strictlyIncreasing, Bool.and_eq_true, ih, decide_eq_true_eq]
      constructor
      · rintro ⟨hab, ht⟩
        refine List.pairwise_cons.mpr ⟨?_, ht⟩
        intro x hx
        rcases List.mem_cons.mp hx with rfl | hx
        · exact hab
        · exact lt_trans hab (List.rel_of_pairwise_cons ht hx)
      · intro h
        exact ⟨List.rel_of_pairwise_cons h (by simp), (List.pairwise_cons.mp h).2⟩

/-! ### The row loop of the decoder -/

/-- The checks (b), (c), (a), (e) of R264 on the rows of the markers `cs` after the count `k`. -/
def RowsValid (p : Params) (idx : List Nat) : Nat → List Nat → Prop
  | _, [] => True
  | k, c :: cs => k ≤ c ∧ c ≤ p.OMEGA ∧ (slice idx k (c - k)).Pairwise (· < ·) ∧
      (∀ j ∈ slice idx k (c - k), j < p.N) ∧ RowsValid p idx c cs

/-- The columns of ones of the rows. -/
def rowsBetween (idx : List Nat) : Nat → List Nat → List (List Nat)
  | _, [] => []
  | k, c :: cs => slice idx k (c - k) :: rowsBetween idx c cs

/-- The count after the last row. -/
def lastCount : Nat → List Nat → Nat
  | k, [] => k
  | _, c :: cs => lastCount c cs

theorem decodeRows_of_valid (p : Params) (idx : List Nat) (k : Nat) (cs : List Nat) (h : RowsValid p idx k cs) :
    decodeRows p idx k cs = .ok (rowsBetween idx k cs, lastCount k cs) := by
  induction cs generalizing k with
  | nil => rfl
  | cons c cs ih =>
    obtain ⟨h1, h2, h3, h4, h5⟩ := h
    have h3' := (strictlyIncreasing_iff _).mpr h3
    have h4' : (slice idx k (c - k)).all (fun j => decide (j < p.N)) = true := by simpa using h4
    rw [decodeRows, if_neg (by omega), if_neg (by omega), if_neg (by simp [h3']), if_neg (by simp [h4']), ih c h5]
    rfl

theorem decodeRows_of_invalid (p : Params) (idx : List Nat) (k : Nat) (cs : List Nat) (h : ¬ RowsValid p idx k cs) :
    decodeRows p idx k cs = .error .malformed := by
  induction cs generalizing k with
  | nil => exact absurd trivial h
  | cons c cs ih =>
    rw [decodeRows]
    split
    · rfl
    · split
      · rfl
      · split
        · rfl
        · split
          · rfl
          · next h1 h2 h3 h4 =>
            have : ¬ RowsValid p idx c cs := by
              intro hv
              apply h
              refine ⟨by omega, by omega, ?_, ?_, hv⟩
              · rw [← strictlyIncreasing_iff]; simpa using h3
              · simpa using h4
            rw [ih c this]
            rfl

theorem length_rowsBetween (idx : List Nat) (k : Nat) (cs : List Nat) : (rowsBetween idx k cs).length = cs.length := by
  induction cs generalizing k with
  | nil => rfl
  | cons c cs ih => simp [rowsBetween, ih]

theorem length_countsFrom (k : Nat) (rows : List (List Nat)) : (countsFrom k rows).length = rows.length := by
  induction rows generalizing k with
  | nil => rfl
  | cons r rs ih => simp [countsFrom, ih]

theorem countsFrom_le (k : Nat) (rows : List (List Nat)) : ∀ c ∈ countsFrom k rows, c ≤ k + rows.flatten.length := by
  induction rows generalizing k with
  | nil => simp [countsFrom]
  | cons r rs ih =>
    intro c hc
    simp only [List.flatten_cons, List.length_append]
    rcases List.mem_cons.mp hc with rfl | hc
    · omega
    · have := ih _ c hc
      omega

theorem getD_countsFrom (k : Nat) (rows : List (List Nat)) (i : Nat) (hi : i < rows.length) (d : Nat) :
    (countsFrom k rows).getD i d = k + (rows.take (i + 1)).flatten.length := by
  induction rows generalizing k i with
  | nil => simp at hi
  | cons r rs ih =>
    cases i with
    | zero => simp [countsFrom]
    | succ i =>
      rw [countsFrom, List.getD_cons_succ, ih _ _ (by simpa using hi)]
      simp
      omega

/-- Rows written one after another, with their running counts, pass every check and read back (R265 (1)). -/
theorem rowsValid_written (p : Params) (pre rest : List Nat) (rows : List (List Nat))
    (hp : ∀ r ∈ rows, r.Pairwise (· < ·)) (hlt : ∀ r ∈ rows, ∀ j ∈ r, j < p.N)
    (hcap : pre.length + rows.flatten.length ≤ p.OMEGA) :
    RowsValid p (pre ++ (rows.flatten ++ rest)) pre.length (countsFrom pre.length rows) ∧
      rowsBetween (pre ++ (rows.flatten ++ rest)) pre.length (countsFrom pre.length rows) = rows ∧
      lastCount pre.length (countsFrom pre.length rows) = pre.length + rows.flatten.length := by
  induction rows generalizing pre with
  | nil => exact ⟨trivial, rfl, by simp [countsFrom, lastCount]⟩
  | cons r rs ih =>
    have hsl : slice (pre ++ ((r :: rs).flatten ++ rest)) pre.length (pre.length + r.length - pre.length) = r := by
      rw [Nat.add_sub_cancel_left, List.flatten_cons, slice_skip _ _ _ _ _ rfl le_rfl, Nat.sub_self,
        List.append_assoc, slice_prefix _ _ _ rfl]
    simp only [List.flatten_cons, List.length_append] at hcap
    have hih := ih (pre ++ r) (fun x hx => hp x (by simp [hx])) (fun x hx => hlt x (by simp [hx])) (by
      simp only [List.length_append]; omega)
    rw [List.append_assoc, ← List.append_assoc r, List.length_append] at hih
    obtain ⟨h1, h2, h3⟩ := hih
    simp only [List.flatten_cons] at hsl ⊢
    refine ⟨?_, ?_, ?_⟩
    · rw [countsFrom, RowsValid, hsl]
      exact ⟨by omega, by omega, hp r (by simp), hlt r (by simp), h1⟩
    · rw [countsFrom, rowsBetween, hsl, h2]
    · rw [countsFrom, lastCount, h3, List.length_append]; omega

/-- What valid markers say of the rows between them (R265 (2)). -/
theorem rowsValid_read (p : Params) (idx : List Nat) (k : Nat) (cs : List Nat) (hidx : idx.length = p.OMEGA)
    (hk : k ≤ p.OMEGA) (h : RowsValid p idx k cs) :
    k ≤ lastCount k cs ∧ lastCount k cs ≤ p.OMEGA ∧
      (rowsBetween idx k cs).flatten = slice idx k (lastCount k cs - k) ∧
      countsFrom k (rowsBetween idx k cs) = cs ∧
      (∀ r ∈ rowsBetween idx k cs, r.Pairwise (· < ·) ∧ ∀ j ∈ r, j < p.N) := by
  induction cs generalizing k with
  | nil => simp [lastCount, rowsBetween, countsFrom, hk, slice]
  | cons c cs ih =>
    obtain ⟨h1, h2, h3, h4, h5⟩ := h
    obtain ⟨g1, g2, g3, g4, g5⟩ := ih c h2 h5
    have hlen : (slice idx k (c - k)).length = c - k := by rw [length_slice, hidx]; omega
    refine ⟨le_trans h1 g1, g2, ?_, ?_, ?_⟩
    · rw [rowsBetween, List.flatten_cons, g3, lastCount]
      have := slice_append_slice idx k (c - k) (lastCount c cs - c)
      rw [show k + (c - k) = c by omega] at this
      rw [this]
      congr 1
      omega
    · rw [rowsBetween, countsFrom, hlen, show k + (c - k) = c by omega, g4]
    · intro r hr
      rw [rowsBetween] at hr
      rcases List.mem_cons.mp hr with rfl | hr
      · exact ⟨h3, h4⟩
      · exact g5 r hr

/-! ### The matrix -/

theorem hintRows_eq (p : Params) (h : List Int) :
    hintRows p h = (List.range p.K).map fun i => onesOf (rowOf h p.N i) := rfl

theorem length_hintRows (p : Params) (h : List Int) : (hintRows p h).length = p.K := by simp [hintRows]

theorem hintRows_pairwise (p : Params) (h : List Int) : ∀ r ∈ hintRows p h, r.Pairwise (· < ·) := by
  intro r hr
  obtain ⟨i, -, rfl⟩ := List.mem_map.mp hr
  exact onesOf_pairwise _

theorem hintRows_lt (p : Params) (h : List Int) (hl : h.length = p.K * p.N) :
    ∀ r ∈ hintRows p h, ∀ j ∈ r, j < p.N := by
  intro r hr j hj
  obtain ⟨i, hi, rfl⟩ := List.mem_map.mp hr
  have := ((mem_onesOf _ _).mp hj).1
  rwa [length_rowOf h p.K p.N i hl (List.mem_range.mp hi)] at this

/-- The ones of the first rows are the ones of the first entries. -/
theorem count_take_rows (p : Params) (h : List Int) (i : Nat) (hi : i ≤ p.K) :
    ((hintRows p h).take i).flatten.length = (h.take (i * p.N)).count 1 := by
  induction i with
  | zero => simp
  | succ i ih =>
    have hlt : i < (hintRows p h).length := by rw [length_hintRows]; omega
    rw [List.take_succ_eq_append_getElem hlt, List.flatten_append, List.length_append, ih (by omega), Nat.succ_mul,
      List.take_add, List.count_append]
    simp [hintRows, length_onesOf, rowOf, slice]

theorem length_hintRows_flatten (p : Params) (h : List Int) (hl : h.length = p.K * p.N) :
    (hintRows p h).flatten.length = h.count 1 := by
  have := count_take_rows p h p.K le_rfl
  rwa [← hl, List.take_length, List.take_of_length_le (by rw [length_hintRows])] at this

/-- The index of a one stands at its rank in the whole matrix (R98, R262). -/
theorem getD_flatten_hintRows (p : Params) (h : List Int) (i j : Nat) (hi : i < p.K)
    (hj : j < p.N) (h1 : h.getD (i * p.N + j) 0 = 1) :
    (hintRows p h).flatten.getD ((h.take (i * p.N + j)).count 1) 0 = j := by
  have hlt : i < (hintRows p h).length := by rw [length_hintRows]; omega
  have hsplit : (hintRows p h).flatten = ((hintRows p h).take i).flatten ++
      (onesOf (rowOf h p.N i) ++ ((hintRows p h).drop (i + 1)).flatten) := by
    conv_lhs => rw [← List.take_append_drop i (hintRows p h), List.drop_eq_getElem_cons hlt]
    rw [List.flatten_append, List.flatten_cons]
    simp [hintRows]
  have hrow : (rowOf h p.N i).getD j 0 = 1 := by
    rw [rowOf, getD_slice _ _ _ _ _ hj]; exact h1
  have hcount : (h.take (i * p.N + j)).count 1
      = ((hintRows p h).take i).flatten.length + ((rowOf h p.N i).take j).count 1 := by
    rw [count_take_rows p h i (by omega), List.take_add, List.count_append]
    simp only [rowOf, slice]
    rw [List.take_take, Nat.min_eq_left (by omega)]
  have hrank : ((rowOf h p.N i).take j).count 1 < (onesOf (rowOf h p.N i)).length := by
    rw [length_onesOf]
    have hjl : j < (rowOf h p.N i).length := by
      by_contra hge
      rw [List.getD_eq_default _ _ (by omega)] at hrow
      exact zero_ne_one hrow
    rw [List.getD_eq_getElem _ _ hjl] at hrow
    conv_rhs => rw [← List.take_append_drop j (rowOf h p.N i), List.count_append, List.drop_eq_getElem_cons hjl, hrow]
    simp
  rw [hsplit, hcount]
  have hr := onesOf_getD_count _ _ hrow
  simp only [List.getD_eq_getElem?_getD] at hr ⊢
  rw [List.getElem?_append_right (by omega), Nat.add_sub_cancel_left, List.getElem?_append_left hrank]
  exact hr

theorem flatMap_rowBits_hintRows (p : Params) (h : List Int) (hl : h.length = p.K * p.N)
    (h01 : ∀ x ∈ h, x = 0 ∨ x = 1) : (hintRows p h).flatMap (rowBits p.N) = h := by
  rw [hintRows, List.flatMap_map]
  conv_rhs => rw [← flatMap_rowOf h p.K p.N hl]
  rw [List.flatMap_congr]
  intro i hi
  have hlen := length_rowOf h p.K p.N i hl (List.mem_range.mp hi)
  have := rowBits_onesOf (rowOf h p.N i) fun x hx => h01 x (mem_of_mem_slice hx)
  rwa [hlen] at this

theorem hintRows_flatMap (p : Params) (rows : List (List Nat)) (hk : rows.length = p.K)
    (hv : ∀ r ∈ rows, r.Pairwise (· < ·) ∧ ∀ j ∈ r, j < p.N) :
    (rows.flatMap (rowBits p.N)).length = p.K * p.N ∧ hintRows p (rows.flatMap (rowBits p.N)) = rows := by
  have hrange : rows = (List.range p.K).map fun i => rows.getD i [] := by
    apply List.ext_getElem
    · simp [hk]
    · intro i h1 h2
      simp [List.getElem?_eq_getElem h1]
  have hfm : rows.flatMap (rowBits p.N) = (List.range p.K).flatMap fun i => rowBits p.N (rows.getD i []) := by
    conv_lhs => rw [hrange, List.flatMap_map]
  rw [hfm]
  refine ⟨length_flatMap_rows _ _ _ fun i _ => length_rowBits _ _, ?_⟩
  conv_rhs => rw [hrange]
  rw [hintRows]
  apply List.map_congr_left
  intro i hi
  have hi := List.mem_range.mp hi
  rw [rowOf_flatMap_rows p.K p.N _ (fun i _ => length_rowBits _ _) i hi]
  have hmem : rows.getD i [] ∈ rows := by
    rw [List.getD_eq_getElem _ _ (by omega)]; exact List.getElem_mem _
  exact onesOf_rowBits _ _ (hv _ hmem).1 (hv _ hmem).2

/-! ### The section -/

/-- The numbers of a hint section: indices, zeros, markers (R98). -/
def hintNumbers (p : Params) (rows : List (List Nat)) : List Nat :=
  rows.flatten ++ List.replicate (p.OMEGA - rows.flatten.length) 0 ++ countsFrom 0 rows

theorem hintSection_eq (p : Params) (rows : List (List Nat)) :
    hintSection p rows = (hintNumbers p rows).map (BitVec.ofNat 8) := rfl

theorem length_hintNumbers (p : Params) (rows : List (List Nat)) (hk : rows.length = p.K)
    (hcap : rows.flatten.length ≤ p.OMEGA) : (hintNumbers p rows).length = p.OMEGA + p.K := by
  simp only [hintNumbers, List.length_append, List.length_replicate, length_countsFrom, hk]
  omega

/-- Every number of a hint section is a byte, because `N <= 256` and `OMEGA <= 255` (P4, P5). -/
theorem byteVals_hintSection (p : Params) (h4 : p.P4) (h5 : p.P5) (rows : List (List Nat))
    (hlt : ∀ r ∈ rows, ∀ j ∈ r, j < p.N) (hcap : rows.flatten.length ≤ p.OMEGA) :
    byteVals (hintSection p rows) = hintNumbers p rows := by
  rw [hintSection_eq]
  apply byteVals_map_ofNat
  intro x hx
  have hN := h4.2.1
  have hO := h5.1
  simp only [hintNumbers, List.mem_append] at hx
  rcases hx with (hx | hx) | hx
  · obtain ⟨r, hr, hj⟩ := List.mem_flatten.mp hx
    have := hlt r hr x hj
    omega
  · have := List.eq_of_mem_replicate hx
    omega
  · have := countsFrom_le 0 rows x hx
    omega

theorem hintEncode_of_bits (p : Params) (h : List Int) (h01 : ∀ x ∈ h, x = 0 ∨ x = 1) (hcap : h.count 1 ≤ p.OMEGA) :
    hintEncode p h = .ok (hintSection p (hintRows p h)) := by
  have hsum : h.sum = h.count 1 := by
    clear hcap
    induction h with
    | nil => rfl
    | cons x t ih =>
      rw [List.sum_cons, ih fun y hy => h01 y (by simp [hy]), List.count_cons]
      rcases h01 x (by simp) with hx | hx <;> subst hx <;> simp [add_comm]
  unfold hintEncode
  rw [if_neg, if_neg]
  · rw [hsum]; exact_mod_cast Nat.not_lt.mpr hcap
  · have : h.all (fun c => decide (c = 0 ∨ c = 1)) = true :=
      List.all_eq_true.mpr fun x hx => decide_eq_true (h01 x hx)
    simp only [this, Bool.not_true, Bool.false_eq_true, not_false_eq_true]

theorem hintEncode_of_not (p : Params) (h : List Int)
    (hno : ¬ ((∀ x ∈ h, x = 0 ∨ x = 1) ∧ h.count 1 ≤ p.OMEGA)) : hintEncode p h = .error .errRange := by
  unfold hintEncode
  split
  · rfl
  · next h1 =>
    rw [if_pos]
    have h01 : ∀ x ∈ h, x = 0 ∨ x = 1 := by
      have h2 : h.all (fun c => decide (c = 0 ∨ c = 1)) = true := by
        simpa only [Bool.not_eq_true', Bool.not_eq_false] using h1
      exact fun x hx => of_decide_eq_true (List.all_eq_true.mp h2 x hx)
    have hsum : h.sum = h.count 1 := by
      clear hno h1
      induction h with
      | nil => rfl
      | cons x t ih =>
        rw [List.sum_cons, ih fun y hy => h01 y (by simp [hy]), List.count_cons]
        rcases h01 x (by simp) with hx | hx <;> subst hx <;> simp [add_comm]
    rw [hsum]
    by_contra hle
    exact hno ⟨h01, by exact_mod_cast not_lt.mp hle⟩

/-- The index bytes and the markers of a hint section. -/
def hintIndices (p : Params) (hs : List Byte) : List Nat := byteVals (slice hs 0 p.OMEGA)

def hintMarkers (p : Params) (hs : List Byte) : List Nat := byteVals (slice hs p.OMEGA p.K)

/-- R264 in one condition. -/
def HintOk (p : Params) (hs : List Byte) : Prop :=
  RowsValid p (hintIndices p hs) 0 (hintMarkers p hs) ∧
    ∀ b ∈ (hintIndices p hs).drop (lastCount 0 (hintMarkers p hs)), b = 0

theorem hintDecode_of_ok (p : Params) (hs : List Byte) (h : HintOk p hs) :
    hintDecode p hs = .ok ((rowsBetween (hintIndices p hs) 0 (hintMarkers p hs)).flatMap (rowBits p.N)) := by
  unfold hintDecode
  simp only
  have := decodeRows_of_valid p (hintIndices p hs) 0 (hintMarkers p hs) h.1
  unfold hintIndices hintMarkers at this
  rw [this]
  show (if _ then _ else _) = _
  rw [if_pos]
  · rfl
  · rw [List.all_eq_true]
    intro b hb
    simpa using h.2 b hb

theorem hintDecode_of_not_ok (p : Params) (hs : List Byte) (h : ¬ HintOk p hs) :
    hintDecode p hs = .error .malformed := by
  unfold hintDecode
  simp only
  by_cases hv : RowsValid p (hintIndices p hs) 0 (hintMarkers p hs)
  · have := decodeRows_of_valid p (hintIndices p hs) 0 (hintMarkers p hs) hv
    unfold hintIndices hintMarkers at this
    rw [this]
    show (if _ then _ else _) = _
    rw [if_neg]
    rw [List.all_eq_true]
    intro hall
    apply h
    refine ⟨hv, fun b hb => ?_⟩
    simpa using hall b hb
  · have := decodeRows_of_invalid p (hintIndices p hs) 0 (hintMarkers p hs) hv
    unfold hintIndices hintMarkers at this
    rw [this]
    rfl

/-- R265 (1). -/
theorem hintDecode_hintSection (p : Params) (h4 : p.P4) (h5 : p.P5) (h : List Int) (hl : h.length = p.K * p.N)
    (h01 : ∀ x ∈ h, x = 0 ∨ x = 1) (hcap : h.count 1 ≤ p.OMEGA) :
    hintDecode p (hintSection p (hintRows p h)) = .ok h := by
  have hlt := hintRows_lt p h hl
  have hcap' : (hintRows p h).flatten.length ≤ p.OMEGA := by rw [length_hintRows_flatten p h hl]; exact hcap
  have hbytes := byteVals_hintSection p h4 h5 (hintRows p h) hlt hcap'
  have hk := length_hintRows p h
  have hlen := length_hintNumbers p (hintRows p h) hk hcap'
  have hsl : ∀ i n, byteVals (slice (hintSection p (hintRows p h)) i n) = slice (hintNumbers p (hintRows p h)) i n := by
    intro i n
    rw [← hbytes]
    simp [byteVals, slice, List.map_drop, List.map_take]
  have hidx : hintIndices p (hintSection p (hintRows p h))
      = (hintRows p h).flatten ++ List.replicate (p.OMEGA - (hintRows p h).flatten.length) 0 := by
    rw [hintIndices, hsl, hintNumbers]
    exact slice_prefix _ _ _ (by simp only [List.length_append, List.length_replicate]; omega)
  have hmk : hintMarkers p (hintSection p (hintRows p h)) = countsFrom 0 (hintRows p h) := by
    rw [hintMarkers, hsl, hintNumbers,
      slice_skip _ _ _ _ p.OMEGA (by simp only [List.length_append, List.length_replicate]; omega) le_rfl,
      Nat.sub_self]
    exact slice_zero_all _ _ (by rw [length_countsFrom, hk])
  obtain ⟨g1, g2, g3⟩ := rowsValid_written p [] (List.replicate (p.OMEGA - (hintRows p h).flatten.length) 0)
    (hintRows p h) (hintRows_pairwise p h) hlt (by simpa using hcap')
  simp only [List.nil_append, List.length_nil, Nat.zero_add] at g1 g2 g3
  have hok : HintOk p (hintSection p (hintRows p h)) := by
    unfold HintOk
    rw [hidx, hmk]
    refine ⟨g1, ?_⟩
    rw [g3, List.drop_left]
    intro b hb
    exact List.eq_of_mem_replicate hb
  rw [hintDecode_of_ok p _ hok, hidx, hmk, g2, flatMap_rowBits_hintRows p h hl h01]

/-- R265 (2), (3): what is accepted is an encoding, of the matrix it decodes to. -/
theorem hintSection_hintDecode (p : Params) (hs : List Byte) (hlen : hs.length = p.OMEGA + p.K) (h : List Int)
    (hd : hintDecode p hs = .ok h) :
    h.length = p.K * p.N ∧ (∀ x ∈ h, x = 0 ∨ x = 1) ∧ h.count 1 ≤ p.OMEGA ∧
      hintSection p (hintRows p h) = hs := by
  have hok : HintOk p hs := by
    by_contra hno
    rw [hintDecode_of_not_ok p hs hno] at hd
    cases hd
  rw [hintDecode_of_ok p hs hok] at hd
  injection hd with hd
  have hil : (hintIndices p hs).length = p.OMEGA := by
    rw [hintIndices, length_byteVals, length_slice, hlen]; omega
  have hml : (hintMarkers p hs).length = p.K := by
    rw [hintMarkers, length_byteVals, length_slice, hlen]; omega
  obtain ⟨-, g2, g3, g4, g5⟩ := rowsValid_read p (hintIndices p hs) 0 (hintMarkers p hs) hil (by omega) hok.1
  rw [Nat.sub_zero] at g3
  have hrl : (rowsBetween (hintIndices p hs) 0 (hintMarkers p hs)).length = p.K := by
    rw [length_rowsBetween, hml]
  have hz := hok.2
  generalize hlast : lastCount 0 (hintMarkers p hs) = last at *
  generalize hrows : rowsBetween (hintIndices p hs) 0 (hintMarkers p hs) = rows at *
  obtain ⟨f1, f2⟩ := hintRows_flatMap p rows hrl g5
  have hflen : rows.flatten.length = last := by
    rw [g3, length_slice, hil]; omega
  subst hd
  refine ⟨f1, ?_, ?_, ?_⟩
  · intro x hx
    obtain ⟨r, -, hr⟩ := List.mem_flatMap.mp hx
    exact rowBits_zero_or_one _ _ x hr
  · rw [← length_hintRows_flatten p _ f1, f2, hflen]; exact g2
  · rw [f2, hintSection_eq, hintNumbers, hflen, g4, g3]
    have hidx : slice (hintIndices p hs) 0 last ++ List.replicate (p.OMEGA - last) 0 = hintIndices p hs := by
      conv_rhs => rw [← List.take_append_drop last (hintIndices p hs)]
      congr 1
      symm
      rw [List.eq_replicate_iff]
      exact ⟨by rw [List.length_drop, hil], hz⟩
    rw [hidx, hintIndices, hintMarkers, List.map_append, map_ofNat_byteVals, map_ofNat_byteVals]
    have := slice_append_slice hs 0 p.OMEGA p.K
    rw [Nat.zero_add] at this
    rw [this]
    exact slice_zero_all _ _ (by omega)

end Sys2Proof.Machine
end

