-- ==== Sys2Proof/Laws/HintBytes.lean ====
section
/-! SUPPORT. The hint section of a packed signature, by its bytes: what `HintWellFormed` says of a buffer in terms of
the decoder, and where the decoder puts its ones. -/

namespace Sys2Proof.Machine

open Sys2Proof.Claims

/-- The count before entry `i` of the markers `cs`, `k` before the first. -/
def countAt (k : Nat) (cs : List Nat) : Nat → Nat
  | 0 => k
  | i + 1 => cs.getD i 0

theorem pairwise_slice_iff (idx : List Nat) (k c : Nat) (hc : c ≤ idx.length) :
    (slice idx k (c - k)).Pairwise (· < ·) ↔ ∀ j, k < j → j < c → idx.getD (j - 1) 0 < idx.getD j 0 := by
  have hlen : (slice idx k (c - k)).length = c - k := by rw [length_slice]; omega
  have hget : ∀ m (hm : m < (slice idx k (c - k)).length), (slice idx k (c - k))[m] = idx.getD (k + m) 0 := by
    intro m hm
    rw [← getD_slice idx k (c - k) m 0 (by omega), List.getD_eq_getElem _ _ hm]
  rw [← List.isChain_iff_pairwise, List.isChain_iff_getElem]
  constructor
  · intro h j h1 h2
    have := h (j - 1 - k) (by omega)
    rw [hget, hget] at this
    rwa [show k + (j - 1 - k) = j - 1 by omega, show k + (j - 1 - k + 1) = j by omega] at this
  · intro h m hm
    rw [hget, hget]
    have := h (k + m + 1) (by omega) (by omega)
    rwa [show k + m + 1 - 1 = k + m by omega] at this

theorem forall_mem_slice_iff (idx : List Nat) (k c : Nat) (hc : c ≤ idx.length) (P : Nat → Prop) :
    (∀ x ∈ slice idx k (c - k), P x) ↔ ∀ j, k ≤ j → j < c → P (idx.getD j 0) := by
  have hlen : (slice idx k (c - k)).length = c - k := by rw [length_slice]; omega
  constructor
  · intro h j h1 h2
    have hm : j - k < (slice idx k (c - k)).length := by omega
    have := h _ (List.getElem_mem hm)
    rw [← List.getD_eq_getElem _ 0 hm, getD_slice _ _ _ _ _ (by omega)] at this
    rwa [show k + (j - k) = j by omega] at this
  · intro h x hx
    obtain ⟨m, hm, rfl⟩ := List.getElem_of_mem hx
    rw [← List.getD_eq_getElem _ 0 hm, getD_slice _ _ _ _ _ (by omega)]
    exact h _ (by omega) (by omega)

theorem mem_slice_iff (idx : List Nat) (k c x : Nat) (hc : c ≤ idx.length) :
    x ∈ slice idx k (c - k) ↔ ∃ j, k ≤ j ∧ j < c ∧ idx.getD j 0 = x := by
  have := forall_mem_slice_iff idx k c hc (· ≠ x)
  constructor
  · intro h
    by_contra hno
    push Not at hno
    exact this.mpr hno x h rfl
  · rintro ⟨j, h1, h2, h3⟩
    by_contra hno
    exact this.mp (fun y hy hyx => hno (hyx ▸ hy)) j h1 h2 h3

theorem rowsValid_iff (p : Params) (idx : List Nat) (hidx : idx.length = p.OMEGA) (k : Nat) (cs : List Nat) :
    RowsValid p idx k cs ↔ ∀ i, i < cs.length →
      countAt k cs i ≤ cs.getD i 0 ∧ cs.getD i 0 ≤ p.OMEGA ∧
      (∀ j, countAt k cs i < j → j < cs.getD i 0 → idx.getD (j - 1) 0 < idx.getD j 0) ∧
      ∀ j, countAt k cs i ≤ j → j < cs.getD i 0 → idx.getD j 0 < p.N := by
  induction cs generalizing k with
  | nil => simp [RowsValid]
  | cons c cs ih =>
    rw [RowsValid, ih c]
    constructor
    · rintro ⟨h1, h2, h3, h4, h5⟩ i hi
      cases i with
      | zero =>
        exact ⟨h1, h2, (pairwise_slice_iff idx k c (by omega)).mp h3,
          (forall_mem_slice_iff idx k c (by omega) (· < p.N)).mp h4⟩
      | succ i =>
        have := h5 i (by simpa using hi)
        cases i <;> exact this
    · intro h
      obtain ⟨h1, h2, h3, h4⟩ := h 0 (by simp)
      simp only [countAt, List.getD_cons_zero] at h1 h2 h3 h4
      refine ⟨h1, h2, (pairwise_slice_iff idx k c (by omega)).mpr h3,
        (forall_mem_slice_iff idx k c (by omega) (· < p.N)).mpr h4, ?_⟩
      intro i hi
      have := h (i + 1) (by simpa using hi)
      cases i <;> exact this

theorem lastCount_eq (k : Nat) (cs : List Nat) : lastCount k cs = countAt k cs cs.length := by
  induction cs generalizing k with
  | nil => rfl
  | cons c cs ih =>
    rw [lastCount, ih]
    cases cs <;> rfl

theorem getD_rowsBetween (idx : List Nat) (k : Nat) (cs : List Nat) (i : Nat) (hi : i < cs.length) :
    (rowsBetween idx k cs).getD i [] = slice idx (countAt k cs i) (cs.getD i 0 - countAt k cs i) := by
  induction cs generalizing k i with
  | nil => simp at hi
  | cons c cs ih =>
    cases i with
    | zero => rfl
    | succ i =>
      rw [rowsBetween, List.getD_cons_succ, ih c i (by simpa using hi)]
      cases i <;> rfl

/-! ### The section inside the buffer -/

/-- The hint section of a packed signature. -/
def sigHint (p : Params) (b : List Byte) : List Byte := slice b (hintOffset p) p.HINTBYTES

theorem getD_hintIndices (p : Params) (b : List Byte) (m : Nat) (hm : m < p.OMEGA) :
    (hintIndices p (sigHint p b)).getD m 0 = hintByte p b m := by
  rw [hintIndices, getD_byteVals, getD_slice _ _ _ _ _ hm, sigHint, getD_slice _ _ _ _ _ (by
    unfold Params.HINTBYTES; omega), Nat.zero_add]
  rfl

theorem getD_hintMarkers (p : Params) (b : List Byte) (i : Nat) (hi : i < p.K) :
    (hintMarkers p (sigHint p b)).getD i 0 = hintByte p b (p.OMEGA + i) := by
  rw [hintMarkers, getD_byteVals, getD_slice _ _ _ _ _ hi, sigHint, getD_slice _ _ _ _ _ (by
    unfold Params.HINTBYTES; omega)]
  rfl

theorem length_sigHint (p : Params) (b : List Byte) (hb : b.length = p.SIGBYTES) :
    (sigHint p b).length = p.OMEGA + p.K := by
  rw [sigHint, length_slice, hb]
  unfold Params.SIGBYTES hintOffset Params.HINTBYTES
  omega

theorem length_hintIndices (p : Params) (b : List Byte) (hb : b.length = p.SIGBYTES) :
    (hintIndices p (sigHint p b)).length = p.OMEGA := by
  rw [hintIndices, length_byteVals, length_slice, length_sigHint p b hb]; omega

theorem length_hintMarkers (p : Params) (b : List Byte) (hb : b.length = p.SIGBYTES) :
    (hintMarkers p (sigHint p b)).length = p.K := by
  rw [hintMarkers, length_byteVals, length_slice, length_sigHint p b hb]; omega

theorem countAt_hintMarkers (p : Params) (b : List Byte) (i : Nat) (hi : i ≤ p.K) :
    countAt 0 (hintMarkers p (sigHint p b)) i = countBefore p b i := by
  cases i with
  | zero => rfl
  | succ i => exact getD_hintMarkers p b i hi

/-- The decoder accepts exactly the sections R264 calls well-formed. -/
theorem hintOk_iff (p : Params) (b : List Byte) (hb : b.length = p.SIGBYTES) :
    HintOk p (sigHint p b) ↔ HintWellFormed p b := by
  have hi := length_hintIndices p b hb
  have hm := length_hintMarkers p b hb
  unfold HintOk HintWellFormed
  rw [rowsValid_iff p _ hi, hm, lastCount_eq, hm, countAt_hintMarkers p b p.K le_rfl]
  apply and_congr
  · apply forall₂_congr
    intro i hik
    rw [countAt_hintMarkers p b i (by omega), getD_hintMarkers p b i hik]
    show _ ↔ countBefore p b i ≤ hintByte p b (p.OMEGA + i) ∧ hintByte p b (p.OMEGA + i) ≤ p.OMEGA ∧ _
    apply and_congr_right
    intro _
    apply and_congr_right
    intro hc
    apply and_congr
    · apply forall_congr'
      intro j
      apply imp_congr_right
      intro _
      constructor
      · intro h hj
        have hj : j < hintByte p b (p.OMEGA + i) := hj
        have := h hj
        rwa [getD_hintIndices _ _ _ (by omega), getD_hintIndices _ _ _ (by omega)] at this
      · intro h hj
        rw [getD_hintIndices _ _ _ (by omega), getD_hintIndices _ _ _ (by omega)]
        exact h hj
    · apply forall_congr'
      intro j
      apply imp_congr_right
      intro _
      constructor
      · intro h hj
        have hj : j < hintByte p b (p.OMEGA + i) := hj
        have := h hj
        rwa [getD_hintIndices _ _ _ (by omega)] at this
      · intro h hj
        rw [getD_hintIndices _ _ _ (by omega)]
        exact h hj
  · constructor
    · intro h j h1 h2
      have hlt : j - countBefore p b p.K < ((hintIndices p (sigHint p b)).drop (countBefore p b p.K)).length := by
        rw [List.length_drop, hi]; omega
      have := h _ (List.getElem_mem hlt)
      rw [List.getElem_drop, ← List.getD_eq_getElem _ 0, getD_hintIndices _ _ _ (by omega)] at this
      rwa [show countBefore p b p.K + (j - countBefore p b p.K) = j by omega] at this
    · intro h x hx
      obtain ⟨m, hm', rfl⟩ := List.getElem_of_mem hx
      rw [List.length_drop, hi] at hm'
      rw [List.getElem_drop, ← List.getD_eq_getElem _ 0, getD_hintIndices _ _ _ (by omega)]
      exact h _ (by omega) (by omega)

/-- Entry `(i, j)` of the matrix a well-formed section decodes to. -/
theorem getD_decoded (p : Params) (b : List Byte) (hb : b.length = p.SIGBYTES) (h : HintWellFormed p b) (i j : Nat)
    (hi : i < p.K) (hj : j < p.N) :
    ∀ x, x = ((rowsBetween (hintIndices p (sigHint p b)) 0 (hintMarkers p (sigHint p b))).flatMap
        (rowBits p.N)).getD (i * p.N + j) 0 →
      ((∃ q, countBefore p b i ≤ q ∧ q < countBefore p b (i + 1) ∧ hintByte p b q = j) → x = 1) ∧
      ((¬ ∃ q, countBefore p b i ≤ q ∧ q < countBefore p b (i + 1) ∧ hintByte p b q = j) → x = 0) := by
  rintro x rfl
  have hm := length_hintMarkers p b hb
  have hlen : (rowsBetween (hintIndices p (sigHint p b)) 0 (hintMarkers p (sigHint p b))).length = p.K := by
    rw [length_rowsBetween, hm]
  have e : (rowsBetween (hintIndices p (sigHint p b)) 0 (hintMarkers p (sigHint p b))).flatMap (rowBits p.N)
      = (List.range p.K).flatMap fun i => rowBits p.N
        ((rowsBetween (hintIndices p (sigHint p b)) 0 (hintMarkers p (sigHint p b))).getD i []) := by
    conv_lhs => rw [show rowsBetween (hintIndices p (sigHint p b)) 0 (hintMarkers p (sigHint p b))
      = (List.range p.K).map fun i =>
        (rowsBetween (hintIndices p (sigHint p b)) 0 (hintMarkers p (sigHint p b))).getD i [] by
          apply List.ext_getElem
          · rw [hlen, List.length_map, List.length_range]
          · intro n h1 h2
            rw [List.getElem_map, List.getElem_range, List.getD_eq_getElem _ _ h1]]
    rw [List.flatMap_map]
  rw [e, getD_flatMap_rows _ p.N _ (fun _ _ => length_rowBits _ _) i j hi hj, getD_rowBits _ _ _ hj,
    getD_rowsBetween _ _ _ _ (by rw [hm]; exact hi), countAt_hintMarkers p b i (by omega), getD_hintMarkers p b i hi]
  have hc : hintByte p b (p.OMEGA + i) ≤ p.OMEGA := (h.1 i hi).2.1
  suffices hiff : j ∈ slice (hintIndices p (sigHint p b)) (countBefore p b i)
      (hintByte p b (p.OMEGA + i) - countBefore p b i) ↔
      ∃ q, countBefore p b i ≤ q ∧ q < countBefore p b (i + 1) ∧ hintByte p b q = j by
    exact ⟨fun h => if_pos (hiff.mpr h), fun h => if_neg fun h' => h (hiff.mp h')⟩
  rw [mem_slice_iff _ _ _ _ (by rw [length_hintIndices p b hb]; exact hc)]
  apply exists_congr
  intro q
  apply and_congr_right
  intro _
  constructor
  · rintro ⟨h1, h2⟩
    rw [getD_hintIndices _ _ _ (by omega)] at h2
    exact ⟨h1, h2⟩
  · rintro ⟨h1, h2⟩
    have h1 : q < hintByte p b (p.OMEGA + i) := h1
    refine ⟨h1, ?_⟩
    rw [getD_hintIndices _ _ _ (by omega)]
    exact h2

end Sys2Proof.Machine
end

