-- ==== Sys2Proof/Laws/PerInstr.lean ====
section
/-! SUPPORT. Statements about every instruction, one lemma a constructor. -/

namespace Sys2Proof.Laws.RoundTrip

/-- The decoder reads the encoder's word of `i` as `i` (R81, R83). -/
def Statement (i : Instr) : Prop := decode (encode i) = .ok i

theorem permute : Statement .permute := by unfold Statement; decide

theorem rdstat : Statement .rdstat := by unfold Statement; decide

theorem initShake128 : Statement .initShake128 := by unfold Statement; decide

theorem initShake256 : Statement .initShake256 := by unfold Statement; decide

theorem absorb : Statement .absorb := by unfold Statement; decide

theorem finalize : Statement .finalize := by unfold Statement; decide

theorem absorbOnceShake128 : Statement .absorbOnceShake128 := by unfold Statement; decide

theorem absorbOnceShake256 : Statement .absorbOnceShake256 := by unfold Statement; decide

theorem squeeze : Statement .squeeze := by unfold Statement; decide

theorem squeezeblocks : Statement .squeezeblocks := by unfold Statement; decide

theorem release : Statement .release := by unfold Statement; decide

theorem shake128 : Statement .shake128 := by unfold Statement; decide

theorem shake256 : Statement .shake256 := by unfold Statement; decide

theorem sha3_256 : Statement .sha3_256 := by unfold Statement; decide

theorem sha3_512 : Statement .sha3_512 := by unfold Statement; decide

theorem power2round : Statement .power2round := by unfold Statement; decide

theorem decompose : Statement .decompose := by unfold Statement; decide

theorem makeHint : Statement .makeHint := by unfold Statement; decide

theorem useHint : Statement .useHint := by unfold Statement; decide

theorem packPk : Statement .packPk := by unfold Statement; decide

theorem unpackPk : Statement .unpackPk := by unfold Statement; decide

theorem packSk : Statement .packSk := by unfold Statement; decide

theorem unpackSk : Statement .unpackSk := by unfold Statement; decide

theorem packSig : Statement .packSig := by unfold Statement; decide

theorem unpackSig : Statement .unpackSig := by unfold Statement; decide

end Sys2Proof.Laws.RoundTrip
end

