-- ==== Sys2Proof/Laws/Permutation.lean ====
section
/-! SUPPORT. The step mappings of the permutation: what each does to a lane, and that each is injective. -/

namespace Sys2Proof.Machine

open Sys2Proof.Claims

/-! ### Rotation -/

theorem getLsbD_rol64 (v : Lane) (n b : Nat) (hn : n < 64) (hb : b < 64) :
    (rol64 v n).getLsbD b = v.getLsbD ((b + (64 - n)) % 64) := by
  unfold rol64
  split
  · next h => subst h; rw [show (b + (64 - 0)) % 64 = b by omega]
  · next h =>
    simp only [BitVec.getLsbD_or, BitVec.getLsbD_shiftLeft, BitVec.getLsbD_ushiftRight]
    by_cases hbn : b < n
    · rw [show (b + (64 - n)) % 64 = 64 - n + b by omega]; simp [hbn]
    · rw [show (b + (64 - n)) % 64 = b - n by omega, BitVec.getLsbD_of_ge v (64 - n + b) (by omega)]
      simp [hbn, hb]

theorem rol64_xor (v w : Lane) (n : Nat) (hn : n < 64) : rol64 (v ^^^ w) n = rol64 v n ^^^ rol64 w n := by
  apply BitVec.eq_of_getLsbD_eq
  intro b hb
  rw [BitVec.getLsbD_xor, getLsbD_rol64 _ _ _ hn hb, getLsbD_rol64 _ _ _ hn hb, getLsbD_rol64 _ _ _ hn hb,
    BitVec.getLsbD_xor]

theorem rol64_rol64 (v : Lane) (m n : Nat) (hm : m < 64) (hn : n < 64) :
    rol64 (rol64 v m) n = rol64 v ((m + n) % 64) := by
  apply BitVec.eq_of_getLsbD_eq
  intro b hb
  rw [getLsbD_rol64 _ _ _ hn hb, getLsbD_rol64 _ _ _ hm (by omega), getLsbD_rol64 _ _ _ (by omega) hb]
  congr 1
  omega

theorem rol64_injective (n : Nat) (hn : n < 64) (v w : Lane) (h : rol64 v n = rol64 w n) : v = w := by
  have := congrArg (fun u => rol64 u ((64 - n) % 64)) h
  simp only [rol64_rol64 _ _ _ hn (show (64 - n) % 64 < 64 by omega)] at this
  rw [show (n + (64 - n) % 64) % 64 = 0 by omega] at this
  exact this

/-! ### Lanes by their coordinates -/

theorem laneXY_lanesOf (f : Nat → Nat → Lane) (x y : Fin 5) : laneXY (lanesOf f) x y = f x.val y.val := by
  unfold laneXY lanesOf
  simp only [Vector.getElem_ofFn]
  rw [show (x.val + 5 * y.val) % 5 = x.val by omega, show (x.val + 5 * y.val) / 5 = y.val by omega]

theorem laneAt_eq (a : Lanes) (x y : Fin 5) (x' y' : Nat) (hx : x' % 5 = x.val) (hy : y' % 5 = y.val) :
    laneAt a x' y' = laneXY a x y := by
  unfold laneAt laneXY; simp only [hx, hy]

theorem laneXY_ext (a b : Lanes) (h : ∀ x y : Fin 5, laneXY a x y = laneXY b x y) : a = b := by
  apply Vector.ext
  intro i hi
  have := h ⟨i % 5, by omega⟩ ⟨i / 5, by omega⟩
  unfold laneXY at this
  simp only [show i % 5 + 5 * (i / 5) = i by omega] at this
  exact this

theorem laneXY_rho (a : Lanes) (x y : Fin 5) :
    laneXY (rho a) x y = rol64 (laneXY a x y) (rhoOffsets.getD (x.val + 5 * y.val) 0) := by
  unfold rho
  rw [laneXY_lanesOf, laneAt_eq a x y _ _ (by omega) (by omega)]

theorem laneXY_pi (a : Lanes) (x y : Fin 5) : laneXY (pi a) y (2 * x + 3 * y) = laneXY a x y := by
  unfold pi
  rw [laneXY_lanesOf]
  apply laneAt_eq
  · simp [Fin.val_add, Fin.val_mul]; omega
  · omega

theorem laneXY_chi (a : Lanes) (x y : Fin 5) :
    laneXY (chi a) x y = laneXY a x y ^^^ (~~~ laneXY a (x + 1) y &&& laneXY a (x + 2) y) := by
  unfold chi
  rw [laneXY_lanesOf, laneAt_eq a x y _ _ (by omega) (by omega),
    laneAt_eq a (x + 1) y _ _ (by simp [Fin.val_add]) (by omega),
    laneAt_eq a (x + 2) y _ _ (by simp [Fin.val_add]) (by omega)]

theorem thetaC_eq (a : Lanes) (x : Fin 5) : (thetaC a)[x.val] = column a x := by
  have lo : ∀ (k : Nat) (hk : k < 5), laneAt a x.val k = a[x.val + 5 * k]'(by omega) := by
    intro k hk
    unfold laneAt
    simp only [Nat.mod_eq_of_lt x.isLt, Nat.mod_eq_of_lt hk]
  unfold thetaC column
  simp only [Vector.getElem_ofFn]
  rw [lo 0 (by omega), lo 1 (by omega), lo 2 (by omega), lo 3 (by omega), lo 4 (by omega)]
  rfl

theorem laneXY_theta (a : Lanes) (x y : Fin 5) :
    laneXY (theta a) x y = laneXY a x y ^^^ (column a (x + 4) ^^^ rol64 (column a (x + 1)) 1) := by
  unfold theta
  rw [laneXY_lanesOf, laneAt_eq a x y _ _ (by omega) (by omega)]
  congr 1
  simp only [Nat.mod_eq_of_lt x.isLt]
  unfold thetaD
  simp only [Vector.getElem_ofFn]
  have c1 := thetaC_eq a (x + 4)
  have c2 := thetaC_eq a (x + 1)
  simp only [show (x + 4).val = (x.val + 4) % 5 by simp [Fin.val_add]] at c1
  simp only [show (x + 1).val = (x.val + 1) % 5 by simp [Fin.val_add]] at c2
  rw [c1, c2]

theorem column_eq (a : Lanes) (x : Fin 5) :
    column a x = laneXY a x 0 ^^^ laneXY a x 1 ^^^ laneXY a x 2 ^^^ laneXY a x 3 ^^^ laneXY a x 4 := rfl

/-! ### Injectivity -/

theorem xor_right_cancel {v w u : Lane} (h : v ^^^ u = w ^^^ u) : v = w := by
  have := congrArg (· ^^^ u) h
  simpa only [BitVec.xor_assoc, BitVec.xor_self, BitVec.xor_zero] using this

theorem rho_injective : Function.Injective rho := by
  intro a b h
  apply laneXY_ext
  intro x y
  apply rol64_injective (rhoOffsets.getD (x.val + 5 * y.val) 0) (by revert x y; decide)
  rw [← laneXY_rho, ← laneXY_rho, h]

theorem pi_injective : Function.Injective pi := by
  intro a b h
  apply laneXY_ext
  intro x y
  rw [← laneXY_pi a, ← laneXY_pi b, h]

/-- `Chi` on one bit of a row. -/
theorem chi_bits : ∀ a0 a1 a2 a3 a4 b0 b1 b2 b3 b4 : Bool,
    (a0 ^^ (!a1 && a2)) = (b0 ^^ (!b1 && b2)) → (a1 ^^ (!a2 && a3)) = (b1 ^^ (!b2 && b3)) →
    (a2 ^^ (!a3 && a4)) = (b2 ^^ (!b3 && b4)) → (a3 ^^ (!a4 && a0)) = (b3 ^^ (!b4 && b0)) →
    (a4 ^^ (!a0 && a1)) = (b4 ^^ (!b0 && b1)) →
    a0 = b0 ∧ a1 = b1 ∧ a2 = b2 ∧ a3 = b3 ∧ a4 = b4 := by
  decide

theorem chi_injective : Function.Injective chi := by
  intro a b h
  apply laneXY_ext
  intro x y
  apply BitVec.eq_of_getLsbD_eq
  intro k hk
  have hrow : ∀ x : Fin 5, ((laneXY a x y).getLsbD k ^^ (!(laneXY a (x + 1) y).getLsbD k && (laneXY a (x + 2) y).getLsbD k))
      = ((laneXY b x y).getLsbD k ^^ (!(laneXY b (x + 1) y).getLsbD k && (laneXY b (x + 2) y).getLsbD k)) := by
    intro x
    have e := congrArg (fun v => (laneXY v x y).getLsbD k) h
    simpa only [laneXY_chi, BitVec.getLsbD_xor, BitVec.getLsbD_and, BitVec.getLsbD_not, hk, decide_true,
      Bool.true_and] using e
  obtain ⟨h0, h1, h2, h3, h4⟩ := chi_bits _ _ _ _ _ _ _ _ _ _ (hrow 0) (hrow 1) (hrow 2) (hrow 3) (hrow 4)
  fin_cases x
  · exact h0
  · exact h1
  · exact h2
  · exact h3
  · exact h4

theorem iota_injective (ir : Nat) : Function.Injective fun a => iota a ir := by
  intro a b h
  apply Vector.ext
  intro i hi
  have e : (iota a ir)[i] = (iota b ir)[i] := congrArg (fun v : Lanes => v[i]) h
  unfold iota at e
  rw [getElem_xorLane _ _ _ _ hi, getElem_xorLane _ _ _ _ hi] at e
  split at e
  · exact xor_right_cancel e
  · exact e

/-- The map `P x ↦ P x + P (x - k) + rol64(P (x + k), n)` on planes of five lanes. `Theta` maps the column parities by
the one with `k = n = 1`. -/
def planeMap (k : Fin 5) (n : Nat) (P : Fin 5 → Lane) (x : Fin 5) : Lane :=
  P x ^^^ (P (x - k) ^^^ rol64 (P (x + k)) n)

theorem xor_cancel (a b c d e f : Lane) :
    (a ^^^ (b ^^^ c)) ^^^ ((b ^^^ (d ^^^ e)) ^^^ (c ^^^ (e ^^^ f))) = a ^^^ (d ^^^ f) := by
  apply BitVec.eq_of_getLsbD_eq
  intro i _
  simp only [BitVec.getLsbD_xor]
  generalize a.getLsbD i = a
  generalize b.getLsbD i = b
  generalize c.getLsbD i = c
  generalize d.getLsbD i = d
  generalize e.getLsbD i = e
  generalize f.getLsbD i = f
  revert a b c d e f
  decide

theorem planeMap_planeMap (k : Fin 5) (n : Nat) (hn : n < 64) (P : Fin 5 → Lane) :
    planeMap k n (planeMap k n P) = planeMap (k + k) ((n + n) % 64) P := by
  funext x
  unfold planeMap
  rw [rol64_xor _ _ _ hn, rol64_xor _ _ _ hn, rol64_rol64 _ _ _ hn hn, sub_add_cancel, add_sub_cancel_right,
    sub_sub, add_assoc, xor_cancel]

/-- Two planes with the same image under a map have the same image under its square. -/
theorem planeMap_congr {k k' : Fin 5} {n n' : Nat} (hn : n < 64) (hk : k + k = k') (hn' : (n + n) % 64 = n')
    {P P' : Fin 5 → Lane} (h : planeMap k n P = planeMap k n P') : planeMap k' n' P = planeMap k' n' P' := by
  subst hk hn'
  rw [← planeMap_planeMap k n hn, ← planeMap_planeMap k n hn, h]

theorem xor_cancel_row (a b c d e : Lane) :
    (a ^^^ (b ^^^ e)) ^^^ ((c ^^^ (d ^^^ b)) ^^^ (d ^^^ (e ^^^ c))) = a := by
  apply BitVec.eq_of_getLsbD_eq
  intro i _
  simp only [BitVec.getLsbD_xor]
  generalize a.getLsbD i = a
  generalize b.getLsbD i = b
  generalize c.getLsbD i = c
  generalize d.getLsbD i = d
  generalize e.getLsbD i = e
  revert a b c d e
  decide

theorem planeMap_four (P : Fin 5 → Lane) (x : Fin 5) : planeMap 4 0 P x = P x ^^^ (P (x + 1) ^^^ P (x + 4)) := by
  unfold planeMap rol64
  rw [if_pos rfl, show x - 4 = x + 1 by revert x; decide]

theorem planeMap_cube (P : Fin 5 → Lane) : planeMap 4 0 (planeMap 4 0 (planeMap 4 0 P)) = P := by
  funext x
  rw [planeMap_planeMap 4 0 (by omega)]
  have e : ∀ Q : Fin 5 → Lane, planeMap (4 + 4) ((0 + 0) % 64) Q x = Q x ^^^ (Q (x + 2) ^^^ Q (x + 3)) := by
    intro Q
    unfold planeMap rol64
    rw [if_pos rfl, show x - (4 + 4) = x + 2 by revert x; decide, show x + (4 + 4) = x + 3 by revert x; decide]
  rw [e, planeMap_four, planeMap_four, planeMap_four, add_assoc, add_assoc, add_assoc, add_assoc]
  exact xor_cancel_row (P x) (P (x + 1)) (P (x + 2)) (P (x + 3)) (P (x + 4))

theorem planeMap_injective : Function.Injective (planeMap 1 1) := by
  intro P P' h
  have h2 := planeMap_congr (k' := 2) (n' := 2) (by omega) rfl rfl h
  have h4 := planeMap_congr (k' := 4) (n' := 4) (by omega) rfl rfl h2
  have h8 := planeMap_congr (k' := 3) (n' := 8) (by omega) rfl rfl h4
  have h16 := planeMap_congr (k' := 1) (n' := 16) (by omega) rfl rfl h8
  have h32 := planeMap_congr (k' := 2) (n' := 32) (by omega) rfl rfl h16
  have h64 := planeMap_congr (k' := 4) (n' := 0) (by omega) rfl rfl h32
  rw [← planeMap_cube P, h64, planeMap_cube]

theorem column_theta (a : Lanes) : column (theta a) = planeMap 1 1 (column a) := by
  funext x
  rw [column_eq]
  simp only [laneXY_theta]
  show _ = column a x ^^^ (column a (x - 1) ^^^ rol64 (column a (x + 1)) 1)
  rw [show x - 1 = x + 4 by revert x; decide, column_eq a x]
  generalize column a (x + 4) ^^^ rol64 (column a (x + 1)) 1 = d
  apply BitVec.eq_of_getLsbD_eq
  intro i _
  simp only [BitVec.getLsbD_xor]
  generalize (laneXY a x 0).getLsbD i = p0
  generalize (laneXY a x 1).getLsbD i = p1
  generalize (laneXY a x 2).getLsbD i = p2
  generalize (laneXY a x 3).getLsbD i = p3
  generalize (laneXY a x 4).getLsbD i = p4
  generalize d.getLsbD i = d
  revert p0 p1 p2 p3 p4 d
  decide

theorem theta_injective : Function.Injective theta := by
  intro a b h
  have hcol : column a = column b := planeMap_injective (by rw [← column_theta, ← column_theta, h])
  apply laneXY_ext
  intro x y
  have e := congrArg (fun v => laneXY v x y) h
  simp only [laneXY_theta, hcol] at e
  exact xor_right_cancel e

theorem keccakRound_injective (ir : Nat) : Function.Injective fun a => keccakRound a ir := by
  intro a b h
  have h : iota (chi (pi (rho (theta a)))) ir = iota (chi (pi (rho (theta b)))) ir := h
  exact theta_injective (rho_injective (pi_injective (chi_injective (iota_injective ir h))))

end Sys2Proof.Machine
end

