-- ==== Sys2Proof/Laws/Rounding.lean ====
section
/-! SUPPORT. The laws of the rounding and decomposition unit. -/

namespace Sys2Proof.Machine

open Sys2Proof.Claims

/-- `Q - 1 = M * (2*GAMMA2)` over the integers (P3). -/
theorem Q_eq (p : Params) (h1 : p.P1) (h3 : p.P3) : (p.Q : Int) = p.M * (2 * p.GAMMA2) + 1 := by
  have h := p.M_mul h3
  have hq := h1.2.1
  have : p.M * (2 * p.GAMMA2) + 1 = p.Q := by omega
  rw [← this]; push_cast; ring

theorem two_le_M (p : Params) (h3 : p.P3) : (2 : Int) ≤ p.M := by
  have := h3.2.2
  exact_mod_cast this

theorem Q_lt (p : Params) (h1 : p.P1) : (p.Q : Int) < 2 ^ 31 := by exact_mod_cast h1.2.2

/-- A multiple of `m` and a remainder in `(-g, g]`, `m = 2*g`, determine each other (R11). -/
theorem centered_unique {g x y r s : Int} (h : x * (2 * g) + r = y * (2 * g) + s) (hr : -g < r) (hr' : r ≤ g)
    (hs : -g < s) (hs' : s ≤ g) : x = y ∧ r = s := by
  have hg : 0 < g := by omega
  have hxy : x = y := by
    rcases lt_trichotomy x y with hlt | heq | hgt
    · nlinarith
    · exact heq
    · nlinarith
  subst hxy
  exact ⟨rfl, by linarith⟩

/-- `a mod± (2*g)` is the remainder in `(-g, g]` (R11). -/
theorem modPM_spec (a g : Int) (hg : 0 < g) :
    ∃ q, a = q * (2 * g) + modPM a (2 * g) ∧ -g < modPM a (2 * g) ∧ modPM a (2 * g) ≤ g := by
  have h0 := Int.emod_nonneg a (show (2 * g) ≠ 0 by omega)
  have h1 := Int.emod_lt_of_pos a (show 0 < 2 * g by omega)
  have h2 := Int.mul_ediv_add_emod a (2 * g)
  have hh : 2 * g / 2 = g := by omega
  unfold modPM
  simp only [hh]
  split
  · refine ⟨a / (2 * g) + 1, ?_, by omega, by omega⟩
    rw [Int.add_mul, Int.mul_comm (a / (2 * g))]; omega
  · refine ⟨a / (2 * g), ?_, by omega, by omega⟩
    rw [Int.mul_comm (a / (2 * g))]; omega

/-- `Decompose` as R194 writes it is R194's definition. -/
theorem decompose_spec (p : Params) (h3 : p.P3) (a : Int) :
    Decomposes p a (decompose p a).1 (decompose p a).2 := by
  have hg : (0 : Int) < p.GAMMA2 := by exact_mod_cast h3.1
  obtain ⟨q, hq, hlo, hhi⟩ := modPM_spec a p.GAMMA2 hg
  have hr1 : (a - modPM a (2 * p.GAMMA2)) / (2 * p.GAMMA2) = q := by
    have : a - modPM a (2 * p.GAMMA2) = q * (2 * p.GAMMA2) := by linarith
    rw [this, Int.mul_ediv_cancel _ (by omega)]
  refine ⟨modPM a (2 * p.GAMMA2), q, hq, hlo, hhi, ?_⟩
  unfold decompose
  simp only [hr1]
  split
  · next h => exact .inl ⟨h, rfl, rfl⟩
  · next h => exact .inr ⟨h, rfl, rfl⟩

/-- R194 determines the two results. -/
theorem decomposes_unique {p : Params} {a x y x' y' : Int} (h : Decomposes p a x y) (h' : Decomposes p a x' y') :
    x = x' ∧ y = y' := by
  obtain ⟨r0, r1, ha, h1, h2, hc⟩ := h
  obtain ⟨s0, s1, hb, h3, h4, hd⟩ := h'
  obtain ⟨e1, e2⟩ := centered_unique (ha.symm.trans hb) h1 h2 h3 h4
  subst e1 e2
  rcases hc with ⟨h5, h6, h7⟩ | ⟨h5, h6, h7⟩ <;> rcases hd with ⟨g5, g6, g7⟩ | ⟨g5, g6, g7⟩
  · exact ⟨h6.trans g6.symm, h7.trans g7.symm⟩
  · exact absurd h5 g5
  · exact absurd g5 h5
  · exact ⟨h6.trans g6.symm, h7.trans g7.symm⟩

theorem decomposes_eq {p : Params} (h3 : p.P3) {a x y : Int} (h : Decomposes p a x y) : decompose p a = (x, y) := by
  obtain ⟨h1, h2⟩ := decomposes_unique (decompose_spec p h3 a) h
  exact Prod.ext h1 h2

/-- R196: each branch, when it is taken, and its intervals. -/
theorem decomposes_branches {p : Params} (h1 : p.P1) (h3 : p.P3) {a x y : Int} (h0 : 0 ≤ a) (hQ : a < p.Q)
    (h : Decomposes p a x y) :
    (a < (p.Q : Int) - p.GAMMA2 ∧ a = y * (2 * p.GAMMA2) + x ∧ -(p.GAMMA2 : Int) < x ∧ x ≤ p.GAMMA2 ∧ 0 ≤ y ∧
      y ≤ (p.M : Int) - 1) ∨
    ((p.Q : Int) - p.GAMMA2 ≤ a ∧ y = 0 ∧ x = a - p.Q ∧ -(p.GAMMA2 : Int) ≤ x ∧ x ≤ -1) := by
  have hg : (0 : Int) < p.GAMMA2 := by exact_mod_cast h3.1
  have hq := Q_eq p h1 h3
  have hM := two_le_M p h3
  obtain ⟨r0, r1, ha, hlo, hhi, hc⟩ := h
  rcases hc with ⟨e1, e2, e3⟩ | ⟨e1, e2, e3⟩
  · right
    subst e1
    refine ⟨by linarith, e3, e2, by linarith, by linarith⟩
  · left
    have hr1 : 0 ≤ r1 := by
      by_contra hneg
      nlinarith
    have hle : r1 ≤ (p.M : Int) - 1 := by
      by_contra hgt
      have hgt' : (p.M : Int) + 1 ≤ r1 := by omega
      nlinarith
    refine ⟨?_, by rw [e2, e3]; exact ha, by rw [e2]; exact hlo, by rw [e2]; exact hhi, by rw [e3]; exact hr1,
      by rw [e3]; exact hle⟩
    nlinarith

/-- Both results of `Decompose` are signed 32-bit integers (R191). -/
theorem decomposes_fits {p : Params} (h1 : p.P1) (h3 : p.P3) {a x y : Int} (h0 : 0 ≤ a) (hQ : a < p.Q)
    (h : Decomposes p a x y) : (-2 ^ 31 ≤ x ∧ x < 2 ^ 31) ∧ (-2 ^ 31 ≤ y ∧ y < 2 ^ 31) := by
  have hg : (0 : Int) < p.GAMMA2 := by exact_mod_cast h3.1
  have hq := Q_eq p h1 h3
  have hM := two_le_M p h3
  have hlt := Q_lt p h1
  have hG : (p.GAMMA2 : Int) < p.Q := by nlinarith
  have hMQ : (p.M : Int) < p.Q := by nlinarith
  rcases decomposes_branches h1 h3 h0 hQ h with ⟨-, -, h5, h6, h7, h8⟩ | ⟨-, h5, h6, h7, h8⟩
  · constructor <;> constructor <;> linarith
  · rw [h5]
    refine ⟨⟨by linarith, by linarith⟩, by norm_num, by norm_num⟩

/-- The closed form of R192 rounds to the nearest multiple of `2^D`, a tie downwards: R193 (a), (b). -/
theorem power2round_spec (p : Params) (h2 : p.P2) (a : Int) (h0 : 0 ≤ a) :
    a = (power2round p a).2 * 2 ^ p.D + (power2round p a).1 ∧ -2 ^ (p.D - 1) < (power2round p a).1 ∧
      (power2round p a).1 ≤ 2 ^ (p.D - 1) ∧ 0 ≤ (power2round p a).2 := by
  have hD : (2 : Int) ^ p.D = 2 * 2 ^ (p.D - 1) := by exact_mod_cast two_pow_D p h2.1
  have hpos : (0 : Int) < 2 ^ (p.D - 1) := by positivity
  simp only [power2round]
  rw [hD]
  generalize (2 : Int) ^ (p.D - 1) = g at hpos
  have e1 := Int.mul_ediv_add_emod (a + g - 1) (2 * g)
  have e2 := Int.emod_nonneg (a + g - 1) (show (2 * g) ≠ 0 by omega)
  have e3 := Int.emod_lt_of_pos (a + g - 1) (show 0 < 2 * g by omega)
  have e4 : 0 ≤ (a + g - 1) / (2 * g) := Int.ediv_nonneg (by omega) (by omega)
  generalize hq : (a + g - 1) / (2 * g) = q at *
  generalize (a + g - 1) % (2 * g) = m at *
  have hcomm : q * (2 * g) = 2 * g * q := Int.mul_comm _ _
  exact ⟨by omega, by omega, by omega, e4⟩

/-- R193 (c), which needs `(Q-1) mod 2^D <= 2^(D-1)` besides P1 to P7. -/
theorem power2round_le (p : Params) (h2 : p.P2) (a : Int) (h0 : 0 ≤ a) (hQ : a < p.Q)
    (hm : ((p.Q : Int) - 1) % 2 ^ p.D ≤ 2 ^ (p.D - 1)) :
    (power2round p a).2 ≤ ((p.Q : Int) - 1) / 2 ^ p.D := by
  obtain ⟨e1, e2, e3, e4⟩ := power2round_spec p h2 a h0
  have hD : (2 : Int) ^ p.D = 2 * 2 ^ (p.D - 1) := by exact_mod_cast two_pow_D p h2.1
  have hpos : (0 : Int) < 2 ^ (p.D - 1) := by positivity
  rw [hD] at e1 hm ⊢
  generalize (2 : Int) ^ (p.D - 1) = g at *
  have f1 := Int.mul_ediv_add_emod ((p.Q : Int) - 1) (2 * g)
  by_contra hgt
  have hge : ((p.Q : Int) - 1) / (2 * g) + 1 ≤ (power2round p a).2 := by omega
  nlinarith

/-- Both results of `power2round` are signed 32-bit integers (R191). -/
theorem power2round_fits (p : Params) (h1 : p.P1) (h2 : p.P2) (a : Int) (h0 : 0 ≤ a) (hQ : a < p.Q) :
    (-2 ^ 31 ≤ (power2round p a).1 ∧ (power2round p a).1 < 2 ^ 31) ∧
      (-2 ^ 31 ≤ (power2round p a).2 ∧ (power2round p a).2 < 2 ^ 31) := by
  obtain ⟨e1, e2, e3, e4⟩ := power2round_spec p h2 a h0
  have hD : (2 : Int) ^ p.D = 2 * 2 ^ (p.D - 1) := by exact_mod_cast two_pow_D p h2.1
  have hpos : (0 : Int) < 2 ^ (p.D - 1) := by positivity
  have hlt := Q_lt p h1
  have hDQ : (2 : Int) ^ p.D < p.Q := by exact_mod_cast h2.2.1
  rw [hD] at e1 hDQ
  generalize (2 : Int) ^ (p.D - 1) = g at *
  refine ⟨⟨by linarith, by linarith⟩, by linarith, ?_⟩
  nlinarith

/-- The branch of R194 that is not the wrap-around. -/
theorem decomposes_natural {p : Params} {a r0 r1 : Int} (h : a = r1 * (2 * p.GAMMA2) + r0)
    (hlo : -(p.GAMMA2 : Int) < r0) (hhi : r0 ≤ p.GAMMA2) (hM : r1 ≠ p.M) : Decomposes p a r0 r1 :=
  ⟨r0, r1, h, hlo, hhi, .inr ⟨hM, rfl, rfl⟩⟩

/-- The wrap-around branch of R194. -/
theorem decomposes_wrap {p : Params} {a r0 : Int} (h : a = p.M * (2 * p.GAMMA2) + r0)
    (hlo : -(p.GAMMA2 : Int) < r0) (hhi : r0 ≤ p.GAMMA2) : Decomposes p a (a - p.Q) 0 :=
  ⟨r0, p.M, h, hlo, hhi, .inl ⟨rfl, rfl, rfl⟩⟩

/-- R200: what `makeHint` says. -/
theorem makeHint_meaning (p : Params) (h1 : p.P1) (h3 : p.P3) (a0 a1 x y : Int) (hlo : 0 ≤ a1) (hhi : a1 < p.M)
    (hr : |a0| ≤ 3 * p.GAMMA2 ∨ (3 ≤ p.M ∧ |a0| ≤ 4 * p.GAMMA2))
    (h : Decomposes p ((a1 * (2 * p.GAMMA2) + a0) % p.Q) x y) :
    makeHint p a0 a1 = if y = a1 then 0 else 1 := by
  have hg : (0 : Int) < p.GAMMA2 := by exact_mod_cast h3.1
  have hq := Q_eq p h1 h3
  have hM := two_le_M p h3
  have hr4 : |a0| ≤ 4 * p.GAMMA2 := by rcases hr with h | h <;> linarith [h]
  have hfar : |a0| < (p.Q : Int) - p.GAMMA2 := by
    rcases hr with h | ⟨hM3, h⟩
    · nlinarith
    · have : (3 : Int) ≤ p.M := by exact_mod_cast hM3
      nlinarith
  obtain ⟨ha, hb⟩ := abs_le.mp hr4
  obtain ⟨hc, hd⟩ := abs_lt.mp hfar
  have hv0 := Int.emod_nonneg (a1 * (2 * p.GAMMA2) + a0) (show (p.Q : Int) ≠ 0 by nlinarith)
  have hvQ := Int.emod_lt_of_pos (a1 * (2 * p.GAMMA2) + a0) (show (0 : Int) < p.Q by nlinarith)
  have hk := Int.mul_ediv_add_emod (a1 * (2 * p.GAMMA2) + a0) p.Q
  generalize hv : (a1 * (2 * p.GAMMA2) + a0) % (p.Q : Int) = v at *
  generalize (a1 * (2 * p.GAMMA2) + a0) / (p.Q : Int) = k at *
  have hprod0 : 0 ≤ a1 * (2 * p.GAMMA2) := by positivity
  have hprodM : a1 * (2 * p.GAMMA2) ≤ (p.Q : Int) - 1 - 2 * p.GAMMA2 := by nlinarith
  have hk1 : -1 ≤ k := by nlinarith
  have hk2 : k ≤ 1 := by nlinarith
  unfold makeHint
  by_cases hcond : a0 > p.GAMMA2 ∨ a0 < -p.GAMMA2 ∨ (a0 = -p.GAMMA2 ∧ a1 ≠ 0)
  · rw [if_pos hcond, if_neg]
    intro hy
    rcases decomposes_branches h1 h3 hv0 hvQ h with ⟨-, f1, f2, f3, -, -⟩ | ⟨-, f1, f2, f3, f4⟩
    · have hx : a0 = x + k * p.Q := by rw [hy] at f1; linarith
      have hk0 : k = 0 := by
        rcases (show k = -1 ∨ k = 0 ∨ k = 1 by omega) with e | e | e
        · subst e; exfalso; linarith
        · exact e
        · subst e; exfalso; linarith
      subst hk0
      rcases hcond with hcond | hcond | ⟨hcond, -⟩ <;> linarith
    · have ha1 : a1 = 0 := hy.symm.trans f1
      have hx : a0 = x + (k + 1) * p.Q := by rw [ha1] at hk; linarith
      rcases (show k = -1 ∨ k = 0 ∨ k = 1 by omega) with e | e | e
      · subst e
        rcases hcond with hcond | hcond | ⟨-, hcond⟩
        · linarith
        · linarith
        · exact hcond ha1
      · subst e; linarith
      · subst e; linarith
  · rw [if_neg hcond, if_pos]
    push Not at hcond
    obtain ⟨g1, g2, g3⟩ := hcond
    by_cases hT : 0 ≤ a1 * (2 * p.GAMMA2) + a0
    · have hk0 : k = 0 := by
        rcases (show k = -1 ∨ k = 0 ∨ k = 1 by omega) with e | e | e
        · subst e; exfalso; linarith
        · exact e
        · subst e; exfalso; linarith
      subst hk0
      have hne : -(p.GAMMA2 : Int) < a0 := by
        by_contra hle
        have e : a0 = -p.GAMMA2 := by linarith
        have := g3 e
        rw [this] at hT
        linarith
      exact (decomposes_unique h (decomposes_natural (by linarith) hne g1 (ne_of_lt hhi))).2
    · have ha1 : a1 = 0 := by
        by_contra hne
        have : 1 ≤ a1 := by omega
        nlinarith
      have hk0 : k = -1 := by
        rcases (show k = -1 ∨ k = 0 ∨ k = 1 by omega) with e | e | e
        · exact e
        · subst e; exfalso; linarith
        · subst e; exfalso; linarith
      subst hk0
      rcases decomposes_branches h1 h3 hv0 hvQ h with ⟨f0, -, -, -, -, -⟩ | ⟨-, f1, -, -, -⟩
      · exfalso; rw [ha1] at hk; linarith
      · rw [f1, ha1]

/-- R203: the hint recovers the high part of `r + z`. -/
theorem useHint_makeHint (p : Params) (h1 : p.P1) (h3 : p.P3) (r z r0 r1 x y : Int) (h0 : 0 ≤ r) (hQ : r < p.Q)
    (hz : -(p.GAMMA2 : Int) ≤ z) (hz' : z ≤ p.GAMMA2) (hr : Decomposes p r r0 r1)
    (h : Decomposes p ((r + z) % p.Q) x y) : useHint p r (makeHint p (r0 + z) r1) = y := by
  have hg : (0 : Int) < p.GAMMA2 := by exact_mod_cast h3.1
  have hq := Q_eq p h1 h3
  have hM := two_le_M p h3
  have hbr := decomposes_branches h1 h3 h0 hQ hr
  have hr0 : -(p.GAMMA2 : Int) ≤ r0 ∧ r0 ≤ p.GAMMA2 := by
    rcases hbr with ⟨-, -, f1, f2, -, -⟩ | ⟨-, -, -, f1, f2⟩ <;> constructor <;> linarith
  have hr1 : 0 ≤ r1 ∧ r1 ≤ (p.M : Int) - 1 := by
    rcases hbr with ⟨-, -, -, -, f1, f2⟩ | ⟨-, f1, -, -, -⟩
    · exact ⟨f1, f2⟩
    · rw [f1]; exact ⟨le_rfl, by linarith⟩
  have hmod : (r + z) % (p.Q : Int) = (r1 * (2 * p.GAMMA2) + (r0 + z)) % p.Q := by
    rcases hbr with ⟨-, f, -⟩ | ⟨-, f1, f2, -⟩
    · congr 1; linarith
    · have : r1 * (2 * p.GAMMA2) + (r0 + z) = (r + z) - p.Q := by rw [f1, f2]; ring
      rw [this, Int.sub_emod_right]
  have habs : |r0 + z| ≤ 3 * p.GAMMA2 := abs_le.mpr ⟨by linarith [hr0.1], by linarith [hr0.2]⟩
  rw [hmod] at h
  have hmean := makeHint_meaning p h1 h3 (r0 + z) r1 x y hr1.1 (by linarith [hr1.2]) (.inl habs) h
  unfold useHint
  simp only [decomposes_eq h3 hr]
  by_cases hy : y = r1
  · rw [hmean, if_pos hy, if_pos rfl, hy]
  · rw [hmean, if_neg hy, if_neg one_ne_zero]
    have hcond : r0 + z > p.GAMMA2 ∨ r0 + z < -p.GAMMA2 ∨ (r0 + z = -p.GAMMA2 ∧ r1 ≠ 0) := by
      by_contra hno
      rw [if_neg hy, makeHint, if_neg hno] at hmean
      exact zero_ne_one hmean
    have small : ∀ t : Int, 0 ≤ t → t < p.Q → t % (p.Q : Int) = t := fun t a b => Int.emod_eq_of_lt a b
    split
    · next hpos =>
      have hup : r0 + z > p.GAMMA2 := by
        rcases hcond with hc | hc | ⟨hc, -⟩
        · exact hc
        · exfalso; linarith
        · exfalso; linarith
      have hT : r1 * (2 * p.GAMMA2) + (r0 + z) = (r1 + 1) * (2 * p.GAMMA2) + (r0 + z - 2 * p.GAMMA2) := by ring
      have hle : (r1 + 1) * (2 * p.GAMMA2) ≤ (p.Q : Int) - 1 := by nlinarith [hr1.2]
      have hnn : 0 ≤ r1 * (2 * p.GAMMA2) := mul_nonneg hr1.1 (by linarith)
      rw [small _ (by linarith) (by linarith [hr0.2]), hT] at h
      by_cases hlast : r1 + 1 = p.M
      · have := decomposes_wrap (p := p) (a := (r1 + 1) * (2 * p.GAMMA2) + (r0 + z - 2 * p.GAMMA2))
          (r0 := r0 + z - 2 * p.GAMMA2) (by rw [hlast]) (by linarith) (by linarith [hr0.2])
        rw [(decomposes_unique h this).2, hlast, Int.emod_self]
      · have := decomposes_natural (p := p) (a := (r1 + 1) * (2 * p.GAMMA2) + (r0 + z - 2 * p.GAMMA2))
          (r0 := r0 + z - 2 * p.GAMMA2) (r1 := r1 + 1) rfl (by linarith) (by linarith [hr0.2]) hlast
        rw [(decomposes_unique h this).2]
        exact Int.emod_eq_of_lt (by linarith [hr1.1]) (by omega)
    · next hneg =>
      have hdown : r0 + z ≤ -p.GAMMA2 := by
        rcases hcond with hc | hc | ⟨hc, -⟩
        · exfalso; linarith
        · linarith
        · linarith
      by_cases hz1 : r1 = 0
      · have hlt : r0 + z < -p.GAMMA2 := by
          rcases hcond with hc | hc | ⟨-, hc⟩
          · exfalso; linarith
          · exact hc
          · exact absurd hz1 hc
        have hv : (r1 * (2 * p.GAMMA2) + (r0 + z)) % (p.Q : Int)
            = (p.M - 1) * (2 * p.GAMMA2) + (2 * p.GAMMA2 + 1 + (r0 + z)) := by
          have e : r1 * (2 * p.GAMMA2) + (r0 + z)
              = ((p.M - 1) * (2 * p.GAMMA2) + (2 * p.GAMMA2 + 1 + (r0 + z))) - p.Q := by rw [hz1, hq]; ring
          rw [e, Int.sub_emod_right]
          apply small
          · nlinarith [hr0.1]
          · nlinarith [hr0.1]
        rw [hv] at h
        have := decomposes_natural (p := p) (a := (p.M - 1) * (2 * p.GAMMA2) + (2 * p.GAMMA2 + 1 + (r0 + z)))
          (r0 := 2 * p.GAMMA2 + 1 + (r0 + z)) (r1 := p.M - 1) rfl (by linarith [hr0.1]) (by linarith) (by omega)
        rw [(decomposes_unique h this).2, hz1, zero_sub]
        rw [show (-1 : Int) = (p.M - 1) - p.M by ring, Int.sub_emod_right]
        exact Int.emod_eq_of_lt (by linarith) (by linarith)
      · have h1r : 1 ≤ r1 := by have := hr1.1; omega
        have hT : r1 * (2 * p.GAMMA2) + (r0 + z) = (r1 - 1) * (2 * p.GAMMA2) + (r0 + z + 2 * p.GAMMA2) := by ring
        have hnn : 0 ≤ (r1 - 1) * (2 * p.GAMMA2) := mul_nonneg (by linarith) (by linarith)
        have hle : r1 * (2 * p.GAMMA2) ≤ (p.Q : Int) - 1 := by nlinarith [hr1.2]
        rw [small _ (by rw [hT]; linarith [hr0.1]) (by linarith), hT] at h
        have := decomposes_natural (p := p) (a := (r1 - 1) * (2 * p.GAMMA2) + (r0 + z + 2 * p.GAMMA2))
          (r0 := r0 + z + 2 * p.GAMMA2) (r1 := r1 - 1) rfl (by linarith [hr0.1]) (by linarith) (by have := hr1.2; omega)
        rw [(decomposes_unique h this).2]
        exact Int.emod_eq_of_lt (by linarith) (by linarith [hr1.2])

end Sys2Proof.Machine
end

