-- ==== Sys2Proof/Laws/Sponge.lean ====
section
/-! SUPPORT. The laws of the sponge: absorbing in closed form, the padding, and the output stream. -/

namespace Sys2Proof.Machine

open Sys2Proof.Claims

/-! ### Blocks -/

theorem getD_zeros_append (n : Nat) (d : List Byte) (j : Nat) :
    (zeros n ++ d).getD j 0 = if n ≤ j then d.getD (j - n) 0 else 0 := by
  simp only [zeros, List.getD_eq_getElem?_getD, List.getElem?_append, List.length_replicate]
  split
  · next h => rw [if_neg (by omega)]; simp [h]
  · next h => rw [if_pos (by omega)]

theorem length_zeros (n : Nat) : (zeros n).length = n := by simp [zeros]

/-- A block XORed in, byte by byte. -/
theorem memRead_xorBlock (a : Lanes) (block : List Byte) (j : Nat) (hj : j < 200) :
    memRead (xorBlock a block) j = memRead a j ^^^ block.getD j 0 := by
  rw [← memRead_lanesOfBytes block j hj]
  have h25 : j / 8 < 25 := by omega
  simp only [memRead, h25, dite_true, xorBlock, Vector.getElem_ofFn, Fin.getElem_fin]
  apply BitVec.eq_of_getLsbD_eq
  intro i hi
  simp [hi]

/-- The lanes that the last block of `absorbed` is XORed into. -/
def beforeLast (r : Nat) (a : Lanes) (data : List Byte) : Nat → Lanes
  | 0 => a
  | q + 1 => keccakF (absorbed r a data q)

theorem absorbed_eq (r : Nat) (a : Lanes) (data : List Byte) (q : Nat) :
    absorbed r a data q = xorBlock (beforeLast r a data q) (slice data (q * r) r) := by
  cases q with
  | zero => simp [absorbed, beforeLast]
  | succ q => rfl

/-- The first block apart from the others. -/
theorem absorbed_succ (r : Nat) (a : Lanes) (data : List Byte) (q : Nat) :
    absorbed r a data (q + 1) = absorbed r (keccakF (xorBlock a (slice data 0 r))) (data.drop r) q := by
  induction q with
  | zero =>
    simp only [absorbed]
    congr 1
    simp [slice, List.drop_drop]
  | succ q ih =>
    rw [absorbed, ih, absorbed]
    congr 1
    simp only [slice, List.drop_drop]
    congr 2
    ring

/-- Blocks that agree up to the last one. -/
theorem beforeLast_congr (r : Nat) (a : Lanes) (d d' : List Byte) (q : Nat)
    (h : ∀ i, i < q → slice d (i * r) r = slice d' (i * r) r) : beforeLast r a d q = beforeLast r a d' q := by
  induction q with
  | zero => rfl
  | succ q ih =>
    show keccakF (absorbed r a d q) = keccakF (absorbed r a d' q)
    rw [absorbed_eq, absorbed_eq, ih fun i hi => h i (by omega), h q (by omega)]

/-! ### Absorbing -/

theorem absorbBytes_append (c : Context) (d d' : List Byte) :
    absorbBytes c (d ++ d') = absorbBytes (absorbBytes c d) d' := List.foldl_append

theorem absorbBytes_nil (c : Context) : absorbBytes c [] = c := rfl

theorem absorbByte_phase (c : Context) (b : Byte) : (absorbByte c b).phase = c.phase := by
  unfold absorbByte; simp only; split <;> rfl

theorem absorbByte_alg (c : Context) (b : Byte) : (absorbByte c b).alg = c.alg := by
  unfold absorbByte; simp only; split <;> rfl

theorem absorbBytes_phase (c : Context) (d : List Byte) : (absorbBytes c d).phase = c.phase := by
  induction d generalizing c with
  | nil => rfl
  | cons b t ih => exact (ih _).trans (absorbByte_phase c b)

theorem absorbBytes_alg (c : Context) (d : List Byte) : (absorbBytes c d).alg = c.alg := by
  induction d generalizing c with
  | nil => rfl
  | cons b t ih => exact (ih _).trans (absorbByte_alg c b)

/-- Data that does not fill the block: nothing but XORs at and behind the cursor. -/
theorem absorbBytes_within (c : Context) (d : List Byte) (h : c.pos + d.length < c.rate) :
    absorbBytes c d = { c with lanes := xorBlock c.lanes (zeros c.pos ++ d), pos := c.pos + d.length } := by
  have hr : c.rate ≤ 168 := Alg.rate_le _
  induction d generalizing c with
  | nil =>
    have : xorBlock c.lanes (zeros c.pos ++ []) = c.lanes := by
      apply lanes_ext
      intro j hj
      rw [memRead_xorBlock _ _ _ hj, getD_zeros_append]
      simp
    rw [this]; rfl
  | cons b t ih =>
    have hl : c.pos + 1 ≠ c.rate := by simp at h; omega
    have hb : absorbByte c b = { c with lanes := memXor c.lanes c.pos b, pos := c.pos + 1 } := if_neg hl
    show absorbBytes (absorbByte c b) t = _
    rw [List.length_cons] at h
    rw [hb, ih { c with lanes := memXor c.lanes c.pos b, pos := c.pos + 1 }
      (by show c.pos + 1 + t.length < c.rate; omega) hr]
    have hlanes : xorBlock (memXor c.lanes c.pos b) (zeros (c.pos + 1) ++ t)
        = xorBlock c.lanes (zeros c.pos ++ b :: t) := by
      apply lanes_ext
      intro j hj
      rw [memRead_xorBlock _ _ _ hj, memRead_xorBlock _ _ _ hj, memRead_memXor _ _ _ _ hj, getD_zeros_append,
        getD_zeros_append]
      by_cases h1 : j = c.pos
      · subst h1
        have h2 : ¬ (c.pos + 1 ≤ c.pos) := by omega
        simp
      · by_cases h2 : c.pos + 1 ≤ j
        · have h3 : c.pos ≤ j := by omega
          have h4 : j - c.pos = (j - (c.pos + 1)) + 1 := by omega
          simp only [h1, h2, h3, h4, if_true, if_false, List.getD_cons_succ]
        · have h3 : ¬ c.pos ≤ j := by omega
          simp only [h1, h2, h3, if_false]
    simp only [hlanes, List.length_cons]
    congr 1
    omega

/-- Data that fills the block exactly: the permutation is applied at once. -/
theorem absorbBytes_fill (c : Context) (d : List Byte) (h : c.pos + d.length = c.rate) (hp : c.pos < c.rate) :
    absorbBytes c d = { c with lanes := keccakF (xorBlock c.lanes (zeros c.pos ++ d)), pos := 0 } := by
  have hr : c.rate ≤ 168 := Alg.rate_le _
  rcases List.eq_nil_or_concat d with hd | ⟨d', b, hd⟩
  · subst hd; simp at h; omega
  · subst hd
    rw [List.concat_eq_append, List.length_append] at h
    rw [List.concat_eq_append, absorbBytes_append, absorbBytes_within c d' (by simp at h; omega)]
    show absorbByte _ b = _
    simp only [absorbByte]
    rw [if_pos (by simp at h; simp only [Context.rate]; simp only [Context.rate] at h; omega)]
    have hlanes : memXor (xorBlock c.lanes (zeros c.pos ++ d')) (c.pos + d'.length) b
        = xorBlock c.lanes (zeros c.pos ++ (d' ++ [b])) := by
      apply lanes_ext
      intro j hj
      rw [memRead_xorBlock _ _ _ hj, memRead_memXor _ _ _ _ hj, memRead_xorBlock _ _ _ hj, getD_zeros_append,
        getD_zeros_append]
      by_cases h1 : j = c.pos + d'.length
      · subst h1
        simp
      · simp only [h1, if_false]
        congr 1
        split
        · simp only [List.getD_eq_getElem?_getD, List.getElem?_append]
          split
          · rfl
          · next h2 h3 =>
            have h4 : [b][j - c.pos - d'.length]? = none := by
              apply List.getElem?_eq_none
              rw [List.length_singleton]; omega
            rw [h4, List.getElem?_eq_none (by omega)]
        · rfl
    simp only [Context.nextBlock, hlanes]

/-- R141 in closed form. -/
theorem absorbBytes_eq (c : Context) (d : List Byte) (hp : c.pos < c.rate) :
    absorbBytes c d =
      { c with
        lanes := absorbed c.rate c.lanes (zeros c.pos ++ d) ((c.pos + d.length) / c.rate)
        pos := (c.pos + d.length) % c.rate } := by
  generalize hq : (c.pos + d.length) / c.rate = q
  induction q generalizing c d with
  | zero =>
    have h : c.pos + d.length < c.rate := by
      rcases Nat.div_eq_zero_iff.mp hq with h0 | h0 <;> omega
    have hl : (zeros c.pos ++ d).length ≤ c.rate := by simp [length_zeros]; omega
    rw [absorbBytes_within c d h, Nat.mod_eq_of_lt h, absorbed, slice_zero_all _ _ hl]
  | succ q ih =>
    have h : c.rate ≤ c.pos + d.length := by
      by_contra hlt
      rw [Nat.div_eq_of_lt (by omega)] at hq
      omega
    obtain ⟨d1, d2, hd, hl⟩ : ∃ d1 d2 : List Byte, d = d1 ++ d2 ∧ d1.length = c.rate - c.pos :=
      ⟨d.take (c.rate - c.pos), d.drop (c.rate - c.pos), (List.take_append_drop _ _).symm, by
        simp; omega⟩
    subst hd
    have hlen : (d1 ++ d2).length = d1.length + d2.length := List.length_append
    have hsum : c.pos + (d1 ++ d2).length = d2.length + c.rate := by rw [hlen]; omega
    rw [absorbBytes_append, absorbBytes_fill c d1 (by omega) hp]
    rw [hsum, Nat.add_div_right _ (by omega)] at hq
    rw [ih _ d2 (by show 0 < c.rate; omega) (by show (0 + d2.length) / c.rate = q; rw [Nat.zero_add]; omega)]
    rw [hsum, Nat.add_mod_right, absorbed_succ]
    have h1 : slice (zeros c.pos ++ (d1 ++ d2)) 0 c.rate = zeros c.pos ++ d1 := by
      rw [← List.append_assoc]
      exact slice_prefix _ _ _ (by simp [length_zeros]; omega)
    have h2 : (zeros c.pos ++ (d1 ++ d2)).drop c.rate = d2 := by
      rw [← List.append_assoc, List.drop_append_of_le_length (by simp [length_zeros]; omega),
        List.drop_of_length_le (by simp [length_zeros]; omega), List.nil_append]
    rw [h1, h2]
    simp [Context.rate, zeros]

theorem absorbBytes_pos (c : Context) (d : List Byte) (hp : c.pos < c.rate) :
    (absorbBytes c d).pos = (c.pos + d.length) % c.rate := by rw [absorbBytes_eq c d hp]

theorem absorbBytes_pos_lt (c : Context) (d : List Byte) (hp : c.pos < c.rate) :
    (absorbBytes c d).pos < c.rate := by
  rw [absorbBytes_pos c d hp]; exact Nat.mod_lt _ (by omega)

/-! ### Padding -/

theorem length_pad (r q : Nat) (d : Byte) (h : q < r) : (pad r q d).length = r - q := by
  unfold pad
  split
  · simp [length_zeros]; omega
  · simp; omega

theorem getD_pad (r q : Nat) (d : Byte) (h : q < r) (k : Nat) :
    (pad r q d).getD k 0 = (if k = 0 then d else 0) ^^^ (if k = r - q - 1 then 0x80 else 0) := by
  unfold pad
  split
  · next h2 =>
    simp only [List.getD_eq_getElem?_getD, zeros, List.getElem?_append, List.length_append, List.length_cons,
      List.length_nil, List.length_replicate]
    by_cases h0 : k = 0
    · subst h0
      have : ¬ 0 = r - q - 1 := by omega
      simp [this]
    · by_cases h1 : k = r - q - 1
      · subst h1
        have e1 : ¬ r - q - 1 < 0 + 1 + (r - q - 2) := by omega
        have e2 : r - q - 1 - (0 + 1 + (r - q - 2)) = 0 := by omega
        have e3 : r - q - 1 ≠ 0 := by omega
        simp [e1, e2, e3]
      · by_cases h3 : k < r - q - 1
        · have e1 : k < 0 + 1 + (r - q - 2) := by omega
          have e2 : ¬ k < 0 + 1 := by omega
          have e3 : k - (0 + 1) < r - q - 2 := by omega
          simp only [e1, e2, h0, h1, if_true, if_false, List.getElem?_replicate, e3]
          rfl
        · have e1 : ¬ k < 0 + 1 + (r - q - 2) := by omega
          have e2 : k - (0 + 1 + (r - q - 2)) ≠ 0 := by omega
          simp only [e1, h0, h1, if_false]
          rw [List.getElem?_eq_none (by simp; omega)]
          rfl
  · next h2 =>
    have e : r - q - 1 = 0 := by omega
    rw [e]
    cases k with
    | zero => simp
    | succ k => simp

/-- The padded message is a whole number of blocks (R93). -/
theorem length_padded (alg : Alg) (m : List Byte) :
    (padded alg m).length = (m.length / alg.rate + 1) * alg.rate := by
  have h := Alg.rate_pos alg
  have hm := Nat.mod_lt m.length h
  rw [padded, List.length_append, length_pad _ _ _ hm, Nat.add_mul, Nat.one_mul]
  have := Nat.div_add_mod m.length alg.rate
  rw [Nat.mul_comm] at this
  omega

/-- The padding, byte by byte (R146). -/
theorem memRead_padBlock (c : Context) (j : Nat) (hj : j < 200) :
    memRead (padBlock c).lanes j =
      memRead c.lanes j ^^^ (if j = c.pos then c.alg.ds else 0) ^^^ (if j = c.rate - 1 then 0x80 else 0) := by
  rw [padBlock_lanes, memRead_topBit _ c.rate _ (Alg.rate_mod _) (Alg.rate_pos _) hj, memRead_memXor _ _ _ _ hj]
  split <;> split <;> simp

/-- Absorbing and padding a message from the zero state: the blocks of the padded message (R93, R147). -/
theorem padBlock_absorbBytes (c : Context) (m : List Byte) (hl : c.lanes = Lanes.zero) (hp : c.pos = 0) :
    padBlock (absorbBytes c m) = { c with lanes := finalLanes c.alg m, pos := c.rate } := by
  have hr := Alg.rate_pos c.alg
  have hr' := Alg.rate_le c.alg
  rw [absorbBytes_eq c m (by rw [hp]; exact hr)]
  have key : ∀ x y : Context, x.lanes = y.lanes → x.pos = y.pos → x.phase = y.phase → x.alg = y.alg → x = y := by
    intro x y h1 h2 h3 h4
    cases x; cases y; simp_all
  apply key
  · apply lanes_ext
    intro j hj
    rw [memRead_padBlock _ _ hj]
    rw [hl, hp, Nat.zero_add]
    show memRead (absorbed c.alg.rate Lanes.zero m (m.length / c.alg.rate)) j
        ^^^ (if j = m.length % c.alg.rate then c.alg.ds else 0) ^^^ (if j = c.alg.rate - 1 then 0x80 else 0)
      = memRead (finalLanes c.alg m) j
    have hm := Nat.mod_lt m.length hr
    have hdiv := Nat.div_add_mod m.length c.alg.rate
    rw [finalLanes, absorbed_eq, absorbed_eq _ _ (padded c.alg m), memRead_xorBlock _ _ _ hj,
      memRead_xorBlock _ _ _ hj]
    have hpre : beforeLast c.alg.rate Lanes.zero m (m.length / c.alg.rate)
        = beforeLast c.alg.rate Lanes.zero (padded c.alg m) (m.length / c.alg.rate) := by
      apply beforeLast_congr
      intro i hi
      have hle : i * c.alg.rate + c.alg.rate ≤ m.length := by
        have : (i + 1) * c.alg.rate ≤ m.length / c.alg.rate * c.alg.rate := Nat.mul_le_mul_right _ hi
        rw [Nat.add_mul, Nat.one_mul] at this
        rw [Nat.mul_comm c.alg.rate] at hdiv
        omega
      simp only [slice, padded]
      rw [List.drop_append_of_le_length (by omega), List.take_append_of_le_length (by simp; omega)]
    rw [hpre, BitVec.xor_assoc, BitVec.xor_assoc]
    congr 1
    have hs : slice (padded c.alg m) (m.length / c.alg.rate * c.alg.rate) c.alg.rate
        = slice m (m.length / c.alg.rate * c.alg.rate) c.alg.rate ++ pad c.alg.rate (m.length % c.alg.rate) c.alg.ds := by
      rw [Nat.mul_comm] at hdiv
      simp only [slice, padded]
      rw [List.drop_append_of_le_length (by omega), List.take_of_length_le (by
        rw [List.length_append, length_pad _ _ _ hm]; simp; omega), List.take_of_length_le (by simp; omega)]
    have hsl : (slice m (m.length / c.alg.rate * c.alg.rate) c.alg.rate).length = m.length % c.alg.rate := by
      rw [Nat.mul_comm] at hdiv
      simp [slice]; omega
    rw [hs]
    generalize slice m (m.length / c.alg.rate * c.alg.rate) c.alg.rate = tail at hsl
    rw [← hsl] at hm ⊢
    by_cases hlt : j < tail.length
    · have e1 : ¬ j = tail.length := by omega
      have e2 : ¬ j = c.alg.rate - 1 := by omega
      rw [if_neg e1, if_neg e2]
      simp [List.getElem?_append, hlt]
    · have e0 : tail.getD j 0 = 0 := by simp [Nat.le_of_not_lt hlt]
      have e1 : (tail ++ pad c.alg.rate tail.length c.alg.ds).getD j 0
          = (pad c.alg.rate tail.length c.alg.ds).getD (j - tail.length) 0 := by
        simp [List.getElem?_append, hlt]
      rw [e0, e1, getD_pad _ _ _ hm]
      have e2 : (j - tail.length = 0) = (j = tail.length) := by apply propext; omega
      have e3 : (j - tail.length = c.alg.rate - tail.length - 1) = (j = c.alg.rate - 1) := by apply propext; omega
      simp only [e2, e3]
      simp
  · rfl
  · rfl
  · rfl

/-- R147 in closed form. -/
theorem doAbsorbOnce_eq (c : Context) (alg : Alg) (m : List Byte) :
    doAbsorbOnce c alg m = { c with lanes := finalLanes alg m, pos := alg.rate, alg := alg } :=
  padBlock_absorbBytes { c with lanes := Lanes.zero, pos := 0, alg := alg } m rfl rfl

/-! ### The output stream -/

theorem squeezeBytes_add (a b : Nat) (c : Context) :
    squeezeBytes (a + b) c =
      ((squeezeBytes a c).1 ++ (squeezeBytes b (squeezeBytes a c).2).1, (squeezeBytes b (squeezeBytes a c).2).2) := by
  induction a generalizing c with
  | zero => simp [squeezeBytes]
  | succ a ih =>
    rw [show a + 1 + b = (a + b) + 1 by omega]
    simp only [squeezeBytes, ih, List.cons_append]

theorem length_squeezeBytes (n : Nat) (c : Context) : (squeezeBytes n c).1.length = n := by
  induction n generalizing c with
  | zero => rfl
  | succ n ih => simp [squeezeBytes, ih]

theorem squeezeBytes_alg (n : Nat) (c : Context) : (squeezeBytes n c).2.alg = c.alg := by
  induction n generalizing c with
  | zero => rfl
  | succ n ih =>
    simp only [squeezeBytes, ih]
    unfold Context.ready; split <;> rfl

/-- `n` blocks on, the stream is the same stream. -/
theorem streamByte_add (r : Nat) (a : Lanes) (n k : Nat) (hr : 0 < r) :
    streamByte r (keccakF^[n] a) k = streamByte r a (r * n + k) := by
  unfold streamByte
  rw [← Function.iterate_add_apply, Nat.mul_add_div hr, Nat.mul_add_mod, Nat.add_comm]

/-- R149 in closed form. -/
theorem squeezeBytes_eq (n : Nat) (c : Context) (h1 : 1 ≤ c.pos) (h2 : c.pos ≤ c.rate) :
    squeezeBytes n c =
      ((List.range n).map (fun k => streamByte c.rate c.lanes (c.pos + k)),
       { c with
         lanes := keccakF^[(c.pos + n - 1) / c.rate] c.lanes
         pos := c.pos + n - c.rate * ((c.pos + n - 1) / c.rate) }) := by
  have hr : 0 < c.rate := Alg.rate_pos _
  induction n generalizing c with
  | zero =>
    have : (c.pos + 0 - 1) / c.rate = 0 := Nat.div_eq_of_lt (by omega)
    rw [this]
    rfl
  | succ n ih =>
    by_cases hp : c.pos = c.rate
    · have hrdy : c.ready = c.nextBlock := if_pos hp
      have hg := ih { c with lanes := keccakF c.lanes, pos := 1 } le_rfl hr hr
      simp only [squeezeBytes, hrdy, Context.nextBlock, Nat.zero_add]
      rw [hg]
      have hrr : Context.rate { c with lanes := keccakF c.lanes, pos := 1 } = c.rate := rfl
      simp only [hrr]
      rw [List.range_succ_eq_map, List.map_cons, List.map_map]
      have e1 : memRead (keccakF c.lanes) 0 = streamByte c.rate c.lanes (c.pos + 0) := by
        rw [hp]; unfold streamByte; rw [Nat.add_zero, Nat.div_self hr, Nat.mod_self]; rfl
      have e2 : ((fun k => streamByte c.rate c.lanes (c.pos + k)) ∘ Nat.succ)
          = fun k => streamByte c.rate (keccakF c.lanes) (1 + k) := by
        funext k
        have := streamByte_add c.rate c.lanes 1 (1 + k) hr
        simp only [Function.iterate_one, Nat.mul_one] at this
        rw [this, Function.comp, hp]
        congr 1
        omega
      have e3 : (c.pos + (n + 1) - 1) / c.rate = (1 + n - 1) / c.rate + 1 := by
        rw [← Nat.add_div_right _ hr]
        congr 1
        omega
      have e4 : c.pos + (n + 1) - c.rate * ((1 + n - 1) / c.rate + 1) = 1 + n - c.rate * ((1 + n - 1) / c.rate) := by
        rw [Nat.mul_add, Nat.mul_one]; omega
      rw [e1, e2, e3, e4, Function.iterate_succ_apply]
    · have hrdy : c.ready = c := if_neg hp
      have hg := ih { c with pos := c.pos + 1 } (by simp) (by simp only [Context.rate] at *; omega) hr
      simp only [squeezeBytes, hrdy]
      rw [hg]
      have hrr : Context.rate { c with pos := c.pos + 1 } = c.rate := rfl
      simp only [hrr]
      rw [List.range_succ_eq_map, List.map_cons, List.map_map]
      have e1 : memRead c.lanes c.pos = streamByte c.rate c.lanes (c.pos + 0) := by
        unfold streamByte
        rw [Nat.add_zero, Nat.div_eq_of_lt (by omega), Nat.mod_eq_of_lt (by omega)]; rfl
      have e2 : ((fun k => streamByte c.rate c.lanes (c.pos + k)) ∘ Nat.succ)
          = fun k => streamByte c.rate c.lanes (c.pos + 1 + k) := by
        funext k
        simp only [Function.comp]
        congr 1
        omega
      rw [e1, e2, show c.pos + (n + 1) - 1 = c.pos + 1 + n - 1 by omega,
        show c.pos + (n + 1) = c.pos + 1 + n by omega]

theorem squeezeBytes_pos (n : Nat) (c : Context) (h1 : 1 ≤ c.pos) (h2 : c.pos ≤ c.rate) :
    1 ≤ (squeezeBytes n c).2.pos ∧ (squeezeBytes n c).2.pos ≤ c.rate := by
  have hr : 0 < c.rate := Alg.rate_pos _
  rw [squeezeBytes_eq n c h1 h2]
  have h := Nat.div_add_mod (c.pos + n - 1) c.rate
  have hm := Nat.mod_lt (c.pos + n - 1) hr
  constructor
  · show 1 ≤ c.pos + n - c.rate * ((c.pos + n - 1) / c.rate)
    omega
  · show c.pos + n - c.rate * ((c.pos + n - 1) / c.rate) ≤ c.rate
    omega

/-- R151 in closed form. -/
theorem squeezeBlocks_eq (n : Nat) (c : Context) :
    squeezeBlocks n c =
      ((List.range n).flatMap (fun i => stateBytes c.rate (keccakF^[i + 1] c.lanes)),
       { c with lanes := keccakF^[n] c.lanes }) := by
  induction n generalizing c with
  | zero => rfl
  | succ n ih =>
    simp only [squeezeBlocks, ih]
    have hrr : c.permuted.rate = c.rate := rfl
    rw [hrr, List.range_succ_eq_map, List.flatMap_cons, List.flatMap_map]
    rfl

/-- A whole block by `SQUEEZE`. -/
theorem squeezeBytes_block (c : Context) (hp : c.pos = c.rate) :
    squeezeBytes c.rate c = (stateBytes c.rate c.permuted.lanes, c.permuted) := by
  have hr : 0 < c.rate := Alg.rate_pos _
  rw [squeezeBytes_eq _ c (by omega) (by omega)]
  have e : (c.pos + c.rate - 1) / c.rate = 1 := by
    rw [hp, show c.rate + c.rate - 1 = (c.rate - 1) + c.rate by omega, Nat.add_div_right _ hr,
      Nat.div_eq_of_lt (by omega)]
  rw [e]
  refine Prod.ext ?_ ?_
  · apply List.map_congr_left
    intro k hk
    have hk' := List.mem_range.mp hk
    unfold streamByte
    rw [hp, Nat.add_div_left _ hr, Nat.div_eq_of_lt hk', Nat.add_mod_left, Nat.mod_eq_of_lt hk']
    rfl
  · show ({ c with lanes := keccakF^[1] c.lanes, pos := c.pos + c.rate - c.rate * 1 } : Context) = c.permuted
    rw [Nat.mul_one, Nat.add_sub_cancel]
    rfl

/-- `SQUEEZEBLOCKS` of `n` blocks is `SQUEEZE` of their bytes (R151). -/
theorem squeezeBlocks_eq_squeezeBytes (n : Nat) (c : Context) (hp : c.pos = c.rate) :
    squeezeBlocks n c = squeezeBytes (n * c.rate) c := by
  induction n generalizing c with
  | zero => simp [squeezeBlocks, squeezeBytes]
  | succ n ih =>
    rw [Nat.succ_mul, Nat.add_comm (n * c.rate), squeezeBytes_add, squeezeBytes_block c hp]
    have hg := ih c.permuted hp
    have hrr : c.permuted.rate = c.rate := rfl
    rw [hrr] at hg
    simp only [squeezeBlocks, hg]
    rfl

/-- What the one-shot XOF emits is what `SQUEEZE` emits after the padding (R171). -/
theorem xofBody_eq (c : Context) (alg : Alg) (m : List Byte) (n : Nat) :
    xofBody c alg m n = (squeezeBytes n (doAbsorbOnce c alg m)).1 := by
  have hr := Alg.rate_pos alg
  have hc : (doAbsorbOnce c alg m).pos = (doAbsorbOnce c alg m).rate := by rw [doAbsorbOnce_eq]; rfl
  have hrate : (doAbsorbOnce c alg m).rate = alg.rate := by rw [doAbsorbOnce_eq]; rfl
  have hdiv := Nat.div_add_mod n alg.rate
  have hm := Nat.mod_lt n hr
  have hn : n = n / alg.rate * alg.rate + (n - n / alg.rate * alg.rate) := by
    have := Nat.div_mul_le_self n alg.rate
    omega
  unfold xofBody
  simp only
  conv_rhs => rw [hn, squeezeBytes_add, ← hrate, ← squeezeBlocks_eq_squeezeBytes _ _ hc]
  rw [hrate]
  congr 1
  have hp2 : (squeezeBlocks (n / alg.rate) (doAbsorbOnce c alg m)).2.pos
      = (squeezeBlocks (n / alg.rate) (doAbsorbOnce c alg m)).2.rate := by
    rw [squeezeBlocks_eq]; exact hc
  have hr2 : (squeezeBlocks (n / alg.rate) (doAbsorbOnce c alg m)).2.rate = alg.rate := by
    rw [squeezeBlocks_eq]; exact hrate
  generalize (squeezeBlocks (n / alg.rate) (doAbsorbOnce c alg m)).2 = d at hp2 hr2
  generalize hrem : n - n / alg.rate * alg.rate = k
  have hk : k < alg.rate := by
    rw [Nat.mul_comm] at hdiv
    omega
  split
  · rw [squeezeBytes_eq _ d (by omega) (by omega)]
    apply List.map_congr_left
    intro i hi
    have hi' := List.mem_range.mp hi
    unfold streamByte
    rw [hp2, Nat.add_div_left _ (by omega), Nat.div_eq_of_lt (by omega), Nat.add_mod_left,
      Nat.mod_eq_of_lt (by omega)]
    rfl
  · have : k = 0 := by omega
    subst this
    rfl

/-! ### The invariant -/

theorem inv_empty : Context.empty.Inv := ⟨rfl, rfl, rfl⟩

theorem inv_init (alg : Alg) (h : alg.isXof = true) : (initContext alg).Inv := ⟨Alg.rate_pos _, h⟩

theorem inv_absorb (c : Context) (d : List Byte) (h : c.Inv) (hp : c.phase = .absorbing) : (absorbBytes c d).Inv := by
  unfold Context.Inv at h ⊢
  rw [absorbBytes_phase, hp, absorbBytes_alg]
  rw [hp] at h
  exact ⟨absorbBytes_pos_lt c d h.1, h.2⟩

theorem inv_finalize (c : Context) (h : c.Inv) (hp : c.phase = .absorbing) : (finalizeContext c).Inv := by
  unfold Context.Inv at h
  rw [hp] at h
  exact ⟨rfl, h.2⟩

theorem inv_absorbOnce (c : Context) (alg : Alg) (m : List Byte) (h : alg.isXof = true) :
    Context.Inv { doAbsorbOnce c alg m with phase := .finalized } := by
  rw [doAbsorbOnce_eq]; exact ⟨rfl, h⟩

theorem inv_pos_of_squeezable (c : Context) (h : c.Inv) (hp : c.phase = .finalized ∨ c.phase = .squeezing) :
    1 ≤ c.pos ∧ c.pos ≤ c.rate ∧ c.alg.isXof = true := by
  have hr : 0 < c.rate := Alg.rate_pos _
  unfold Context.Inv at h
  rcases hp with hp | hp <;> rw [hp] at h
  · exact ⟨by rw [h.1]; exact hr, le_of_eq h.1, h.2⟩
  · exact h

theorem inv_squeeze (c : Context) (n : Nat) (h : c.Inv) (hp : c.phase = .finalized ∨ c.phase = .squeezing) :
    Context.Inv { (squeezeBytes n c).2 with phase := .squeezing } := by
  obtain ⟨h1, h2, h3⟩ := inv_pos_of_squeezable c h hp
  have hpos := squeezeBytes_pos n c h1 h2
  have halg := squeezeBytes_alg n c
  exact ⟨hpos.1, by rw [halg]; exact hpos.2, by rw [halg]; exact h3⟩

theorem inv_squeezeblocks (c : Context) (n : Nat) (h : c.Inv) (hp : c.phase = .finalized ∨ c.phase = .squeezing) :
    Context.Inv { (squeezeBlocks n c).2 with phase := .squeezing } := by
  obtain ⟨h1, h2, h3⟩ := inv_pos_of_squeezable c h hp
  rw [squeezeBlocks_eq]
  exact ⟨h1, h2, h3⟩

end Sys2Proof.Machine
end

