-- ==== Sys2Proof/Laws/Rules.lean ====
section
/-! SUPPORT. What the rule of each command can answer: its results where its operands are in range, and its failure where
they are not; then the same for all commands at once. -/

namespace Sys2Proof.Machine

/-! ### Packing rules -/

theorem packPkRule_eq (s : State) :
    packPkRule s = if (coeffVals s.txn.cin).all t1Codec.inBound = true
      then s.keep (s.txn.din ++ packedRows s.build.params t1Codec (coeffVals s.txn.cin) s.build.params.K) []
      else .error .errRange := by
  unfold packPkRule packVec
  simp only
  split <;> rfl

theorem unpackPkRule_eq (s : State) :
    unpackPkRule s = s.keep (s.txn.din.take s.build.params.SEEDBYTES)
      (toPorts ((unpackFields s.build.params t1Codec (s.txn.din.drop s.build.params.SEEDBYTES)
        s.build.params.K).map t1Codec.dec)) := by
  unfold unpackPkRule
  simp only
  rw [unpackVec_of_codes _ _ _ _ fun u _ => rfl]
  rfl

/-- The three vectors of `PACK_SK`. -/
def skT0 (p : Params) (c : List Int) : List Int := slice c 0 (p.K * p.N)

def skS1 (p : Params) (c : List Int) : List Int := slice c (p.K * p.N) (p.L * p.N)

def skS2 (p : Params) (c : List Int) : List Int := slice c ((p.K + p.L) * p.N) (p.K * p.N)

/-- The three byte fields of `PACK_SK` and the three packed vectors. -/
def skFields (p : Params) (d : List Byte) (c : List Int) : SkFields :=
  { seed := slice d 0 p.SEEDBYTES, tr := slice d p.SEEDBYTES p.TRBYTES
    key := slice d (p.SEEDBYTES + p.TRBYTES) p.SEEDBYTES, e0 := packedRows p (t0Codec p) (skT0 p c) p.K
    e1 := packedRows p (etaCodec p) (skS1 p c) p.L, e2 := packedRows p (etaCodec p) (skS2 p c) p.K }

theorem packSkRule_eq (s : State) :
    packSkRule s =
      if (skT0 s.build.params (coeffVals s.txn.cin)).all (t0Codec s.build.params).inBound = true ∧
          (skS1 s.build.params (coeffVals s.txn.cin)).all (etaCodec s.build.params).inBound = true ∧
          (skS2 s.build.params (coeffVals s.txn.cin)).all (etaCodec s.build.params).inBound = true
      then s.keep (skBuffer s.build.skOrder (skFields s.build.params s.txn.din (coeffVals s.txn.cin))) []
      else .error .errRange := by
  unfold packSkRule
  simp only
  have e0 : slice (coeffVals s.txn.cin) 0 (s.build.params.K * s.build.params.N)
      = skT0 s.build.params (coeffVals s.txn.cin) := rfl
  have e1 : slice (coeffVals s.txn.cin) (s.build.params.K * s.build.params.N) (s.build.params.L * s.build.params.N)
      = skS1 s.build.params (coeffVals s.txn.cin) := rfl
  have e2 : slice (coeffVals s.txn.cin) ((s.build.params.K + s.build.params.L) * s.build.params.N)
      (s.build.params.K * s.build.params.N) = skS2 s.build.params (coeffVals s.txn.cin) := rfl
  rw [e0, e1, e2]
  by_cases h0 : (skT0 s.build.params (coeffVals s.txn.cin)).all (t0Codec s.build.params).inBound = true
  · rw [packVec_of_bound _ _ _ _ h0]
    by_cases h1 : (skS1 s.build.params (coeffVals s.txn.cin)).all (etaCodec s.build.params).inBound = true
    · rw [packVec_of_bound _ _ _ _ h1]
      by_cases h2 : (skS2 s.build.params (coeffVals s.txn.cin)).all (etaCodec s.build.params).inBound = true
      · rw [packVec_of_bound _ _ _ _ h2, if_pos ⟨h0, h1, h2⟩]; rfl
      · rw [packVec_of_range _ _ _ _ (by simpa using h2), if_neg fun h => h2 h.2.2]; rfl
    · rw [packVec_of_range _ _ _ _ (by simpa using h1), if_neg fun h => h1 h.2.1]; rfl
  · rw [packVec_of_range _ _ _ _ (by simpa using h0), if_neg fun h => h0 h.1]; rfl

theorem unpackSkRule_eq (s : State) (f : SkFields)
    (hf : f = skSplit s.build.params s.build.skOrder s.txn.din) :
    unpackSkRule s =
      if (∀ u ∈ unpackFields s.build.params (etaCodec s.build.params) f.e1 s.build.params.L,
            u ≤ 2 * s.build.params.ETA) ∧
          ∀ u ∈ unpackFields s.build.params (etaCodec s.build.params) f.e2 s.build.params.K,
            u ≤ 2 * s.build.params.ETA
      then s.keep (f.seed ++ f.tr ++ f.key)
        (toPorts ((unpackFields s.build.params (t0Codec s.build.params) f.e0 s.build.params.K).map
            (t0Codec s.build.params).dec
          ++ (unpackFields s.build.params (etaCodec s.build.params) f.e1 s.build.params.L).map
            (etaCodec s.build.params).dec
          ++ (unpackFields s.build.params (etaCodec s.build.params) f.e2 s.build.params.K).map
            (etaCodec s.build.params).dec))
      else .error .errRange := by
  subst hf
  unfold unpackSkRule
  simp only
  rw [unpackVec_of_codes _ (t0Codec s.build.params) _ _ fun u _ => rfl]
  have hcode : ∀ u, (etaCodec s.build.params).isCode u = true ↔ u ≤ 2 * s.build.params.ETA := by
    intro u; simp [etaCodec]
  have hnot : ∀ u, (etaCodec s.build.params).isCode u = false ↔ ¬ u ≤ 2 * s.build.params.ETA := by
    intro u; simp [etaCodec]
  split
  · next h =>
    rw [unpackVec_of_codes _ _ _ _ fun u hu => (hcode u).mpr (h.1 u hu),
      unpackVec_of_codes _ _ _ _ fun u hu => (hcode u).mpr (h.2 u hu)]
    rfl
  · next h =>
    by_cases h1 : ∀ u ∈ unpackFields s.build.params (etaCodec s.build.params)
        (skSplit s.build.params s.build.skOrder s.txn.din).e1 s.build.params.L, u ≤ 2 * s.build.params.ETA
    · have h2 : ∃ u ∈ unpackFields s.build.params (etaCodec s.build.params)
          (skSplit s.build.params s.build.skOrder s.txn.din).e2 s.build.params.K,
          (etaCodec s.build.params).isCode u = false := by
        by_contra hno
        push Not at hno
        exact h ⟨h1, fun u hu => by
          have := hno u hu
          rwa [ne_eq, Bool.not_eq_false, hcode] at this⟩
      rw [unpackVec_of_codes _ _ _ _ fun u hu => (hcode u).mpr (h1 u hu), unpackVec_of_not_codes _ _ _ _ h2]
      rfl
    · push Not at h1
      obtain ⟨u, hu, hgt⟩ := h1
      rw [unpackVec_of_not_codes _ (etaCodec s.build.params) _ _ ⟨u, hu, (hnot u).mpr (by omega)⟩]
      rfl

/-- The two vectors of `PACK_SIG`. -/
def sigZ (p : Params) (c : List Int) : List Int := slice c 0 (p.L * p.N)

def sigH (p : Params) (c : List Int) : List Int := slice c (p.L * p.N) (p.K * p.N)

theorem packSigRule_eq (s : State) :
    packSigRule s =
      if (sigZ s.build.params (coeffVals s.txn.cin)).all (zCodec s.build.params).inBound = true ∧
          (∀ x ∈ sigH s.build.params (coeffVals s.txn.cin), x = 0 ∨ x = 1) ∧
          (sigH s.build.params (coeffVals s.txn.cin)).count 1 ≤ s.build.params.OMEGA
      then s.keep (s.txn.din
          ++ packedRows s.build.params (zCodec s.build.params) (sigZ s.build.params (coeffVals s.txn.cin))
            s.build.params.L
          ++ hintSection s.build.params (hintRows s.build.params (sigH s.build.params (coeffVals s.txn.cin)))) []
      else .error .errRange := by
  unfold packSigRule
  simp only
  have hz : slice (coeffVals s.txn.cin) 0 (s.build.params.L * s.build.params.N)
      = sigZ s.build.params (coeffVals s.txn.cin) := rfl
  have hh : slice (coeffVals s.txn.cin) (s.build.params.L * s.build.params.N) (s.build.params.K * s.build.params.N)
      = sigH s.build.params (coeffVals s.txn.cin) := rfl
  rw [hz, hh]
  by_cases h0 : (sigZ s.build.params (coeffVals s.txn.cin)).all (zCodec s.build.params).inBound = true
  · rw [packVec_of_bound _ _ _ _ h0]
    by_cases h1 : (∀ x ∈ sigH s.build.params (coeffVals s.txn.cin), x = 0 ∨ x = 1) ∧
        (sigH s.build.params (coeffVals s.txn.cin)).count 1 ≤ s.build.params.OMEGA
    · rw [if_pos ⟨h0, h1⟩, hintEncode_of_bits _ _ h1.1 h1.2]; rfl
    · rw [if_neg fun h => h1 h.2, hintEncode_of_not _ _ h1]; rfl
  · rw [if_neg fun h => h0 h.1, packVec_of_range _ _ _ _ (by simpa using h0)]; rfl

theorem unpackSigRule_of_ok (s : State) (hs : List Byte)
    (hh : hs = slice s.txn.din (s.build.params.CTILDEBYTES + s.build.params.L * s.build.params.POLYZBYTES)
      s.build.params.HINTBYTES) (h : HintOk s.build.params hs) :
    unpackSigRule s = s.keep (slice s.txn.din 0 s.build.params.CTILDEBYTES)
      (toPorts ((unpackFields s.build.params (zCodec s.build.params)
          (slice s.txn.din s.build.params.CTILDEBYTES (s.build.params.L * s.build.params.POLYZBYTES))
          s.build.params.L).map (zCodec s.build.params).dec
        ++ (rowsBetween (hintIndices s.build.params hs) 0 (hintMarkers s.build.params hs)).flatMap
          (rowBits s.build.params.N))) := by
  subst hh
  unfold unpackSigRule
  simp only
  rw [unpackVec_of_codes _ (zCodec s.build.params) _ _ fun u _ => rfl, hintDecode_of_ok _ _ h]
  rfl

theorem unpackSigRule_of_not_ok (s : State)
    (h : ¬ HintOk s.build.params
      (slice s.txn.din (s.build.params.CTILDEBYTES + s.build.params.L * s.build.params.POLYZBYTES)
        s.build.params.HINTBYTES)) : unpackSigRule s = .error .malformed := by
  unfold unpackSigRule
  simp only
  rw [unpackVec_of_codes _ (zCodec s.build.params) _ _ fun u _ => rfl, hintDecode_of_not_ok _ _ h]
  rfl

/-! ### Rounding rules -/

theorem power2roundRule_eq (s : State) (w : Coeff) (h : s.txn.cin = [w]) :
    power2roundRule s = if isFieldElement s.build.params w.toInt
      then s.keep [] (toPorts [(power2round s.build.params w.toInt).1, (power2round s.build.params w.toInt).2])
      else .error .errRange := by
  unfold power2roundRule coeffVals; rw [h]; rfl

theorem decomposeRule_eq (s : State) (w : Coeff) (h : s.txn.cin = [w]) :
    decomposeRule s = if isFieldElement s.build.params w.toInt
      then s.keep [] (toPorts [(decompose s.build.params w.toInt).1, (decompose s.build.params w.toInt).2])
      else .error .errRange := by
  unfold decomposeRule coeffVals; rw [h]; rfl

theorem makeHintRule_eq (s : State) (w0 w1 : Coeff) (h : s.txn.cin = [w0, w1]) :
    makeHintRule s = if 0 ≤ w1.toInt ∧ w1.toInt < s.build.params.M
      then s.keep [] (toPorts [makeHint s.build.params w0.toInt w1.toInt]) else .error .errRange := by
  unfold makeHintRule coeffVals; rw [h]; rfl

theorem useHintRule_eq (s : State) (w h : Coeff) (hc : s.txn.cin = [w, h]) :
    useHintRule s = if isFieldElement s.build.params w.toInt ∧ (h.toInt = 0 ∨ h.toInt = 1)
      then s.keep [] (toPorts [useHint s.build.params w.toInt h.toInt]) else .error .errRange := by
  unfold useHintRule coeffVals; rw [hc]; rfl

/-! ### All commands -/

/-- What the checks say of the operands, as `precheck` reports them. -/
theorem lengths_of_precheck {s : State} {i : Instr} (h : s.precheck i = none) :
    (∀ n, i.dinLen s.build.params = some n → s.txn.din.length = n) ∧ s.txn.cin.length = i.cinLen s.build.params :=
  (lengthsOk_iff _ _ _).mp ((precheck_eq_none s i).mp h).2.2

/-- The only failures left once the checks pass (R85 step 6, R291). -/
theorem rule_error {i : Instr} {s : State} {f : Failure} (hc : s.precheck i = none) (h : ruleOf i s = .error f) :
    (f = .errRange ∧
      i ∈ [Instr.power2round, .decompose, .makeHint, .useHint, .packPk, .packSk, .packSig, .unpackSk]) ∨
    (f = .malformed ∧ i = .unpackSig) := by
  have hl := (lengths_of_precheck hc).2
  cases i with
  | power2round =>
    obtain ⟨w, hw⟩ := List.length_eq_one_iff.mp hl
    simp only [ruleOf, power2roundRule_eq s w hw] at h
    split at h
    · cases h
    · injection h with h; exact .inl ⟨h.symm, by simp⟩
  | decompose =>
    obtain ⟨w, hw⟩ := List.length_eq_one_iff.mp hl
    simp only [ruleOf, decomposeRule_eq s w hw] at h
    split at h
    · cases h
    · injection h with h; exact .inl ⟨h.symm, by simp⟩
  | makeHint =>
    obtain ⟨w0, w1, hw⟩ := List.length_eq_two.mp hl
    simp only [ruleOf, makeHintRule_eq s w0 w1 hw] at h
    split at h
    · cases h
    · injection h with h; exact .inl ⟨h.symm, by simp⟩
  | useHint =>
    obtain ⟨w0, w1, hw⟩ := List.length_eq_two.mp hl
    simp only [ruleOf, useHintRule_eq s w0 w1 hw] at h
    split at h
    · cases h
    · injection h with h; exact .inl ⟨h.symm, by simp⟩
  | packPk =>
    simp only [ruleOf, packPkRule_eq] at h
    split at h
    · cases h
    · injection h with h; exact .inl ⟨h.symm, by simp⟩
  | packSk =>
    simp only [ruleOf, packSkRule_eq] at h
    split at h
    · cases h
    · injection h with h; exact .inl ⟨h.symm, by simp⟩
  | packSig =>
    simp only [ruleOf, packSigRule_eq] at h
    split at h
    · cases h
    · injection h with h; exact .inl ⟨h.symm, by simp⟩
  | unpackSk =>
    simp only [ruleOf, unpackSkRule_eq s _ rfl] at h
    split at h
    · cases h
    · injection h with h; exact .inl ⟨h.symm, by simp⟩
  | unpackPk => simp only [ruleOf, unpackPkRule_eq] at h; cases h
  | unpackSig =>
    right
    by_cases hok : HintOk s.build.params
        (slice s.txn.din (s.build.params.CTILDEBYTES + s.build.params.L * s.build.params.POLYZBYTES)
          s.build.params.HINTBYTES)
    · simp only [ruleOf, unpackSigRule_of_ok s _ rfl hok] at h; cases h
    · simp only [ruleOf, unpackSigRule_of_not_ok s hok] at h
      injection h with h; exact ⟨h.symm, rfl⟩
  | permute => cases h
  | rdstat => cases h
  | initShake128 => cases h
  | initShake256 => cases h
  | absorb => cases h
  | finalize => cases h
  | absorbOnceShake128 => cases h
  | absorbOnceShake256 => cases h
  | squeeze => cases h
  | squeezeblocks => cases h
  | release => cases h
  | shake128 => cases h
  | shake256 => cases h
  | sha3_256 => cases h
  | sha3_512 => cases h

/-- The context a successful command leaves. -/
def ctxAfter (i : Instr) (s : State) : Context :=
  match i with
  | .initShake128 => initContext .shake128
  | .initShake256 => initContext .shake256
  | .absorb => absorbBytes s.ctx s.txn.din
  | .finalize => finalizeContext s.ctx
  | .absorbOnceShake128 => { doAbsorbOnce s.ctx .shake128 s.txn.din with phase := .finalized }
  | .absorbOnceShake256 => { doAbsorbOnce s.ctx .shake256 s.txn.din with phase := .finalized }
  | .squeeze => { (squeezeBytes s.txn.arg s.ctx).2 with phase := .squeezing }
  | .squeezeblocks => { (squeezeBlocks s.txn.arg s.ctx).2 with phase := .squeezing }
  | .release | .shake128 | .shake256 | .sha3_256 | .sha3_512 => Context.empty
  | .permute | .rdstat | .power2round | .decompose | .makeHint | .useHint | .packPk | .unpackPk | .packSk
  | .unpackSk | .packSig | .unpackSig => s.ctx

theorem keep_ctx {s : State} {d : List Byte} {c : List Coeff} {e : Effect} (h : s.keep d c = .ok e) :
    e.ctx = s.ctx ∧ e.dout = d ∧ e.cout = c := by
  unfold State.keep at h
  injection h with h
  subst h
  exact ⟨rfl, rfl, rfl⟩

theorem rule_ok_ctx {i : Instr} {s : State} {e : Effect} (hc : s.precheck i = none) (h : ruleOf i s = .ok e) :
    e.ctx = ctxAfter i s := by
  have hl := (lengths_of_precheck hc).2
  cases i with
  | power2round =>
    obtain ⟨w, hw⟩ := List.length_eq_one_iff.mp hl
    simp only [ruleOf, power2roundRule_eq s w hw] at h
    split at h
    · exact (keep_ctx h).1
    · cases h
  | decompose =>
    obtain ⟨w, hw⟩ := List.length_eq_one_iff.mp hl
    simp only [ruleOf, decomposeRule_eq s w hw] at h
    split at h
    · exact (keep_ctx h).1
    · cases h
  | makeHint =>
    obtain ⟨w0, w1, hw⟩ := List.length_eq_two.mp hl
    simp only [ruleOf, makeHintRule_eq s w0 w1 hw] at h
    split at h
    · exact (keep_ctx h).1
    · cases h
  | useHint =>
    obtain ⟨w0, w1, hw⟩ := List.length_eq_two.mp hl
    simp only [ruleOf, useHintRule_eq s w0 w1 hw] at h
    split at h
    · exact (keep_ctx h).1
    · cases h
  | packPk =>
    simp only [ruleOf, packPkRule_eq] at h
    split at h
    · exact (keep_ctx h).1
    · cases h
  | packSk =>
    simp only [ruleOf, packSkRule_eq] at h
    split at h
    · exact (keep_ctx h).1
    · cases h
  | packSig =>
    simp only [ruleOf, packSigRule_eq] at h
    split at h
    · exact (keep_ctx h).1
    · cases h
  | unpackSk =>
    simp only [ruleOf, unpackSkRule_eq s _ rfl] at h
    split at h
    · exact (keep_ctx h).1
    · cases h
  | unpackPk => simp only [ruleOf, unpackPkRule_eq] at h; exact (keep_ctx h).1
  | unpackSig =>
    by_cases hok : HintOk s.build.params
        (slice s.txn.din (s.build.params.CTILDEBYTES + s.build.params.L * s.build.params.POLYZBYTES)
          s.build.params.HINTBYTES)
    · simp only [ruleOf, unpackSigRule_of_ok s _ rfl hok] at h; exact (keep_ctx h).1
    · simp only [ruleOf, unpackSigRule_of_not_ok s hok] at h; cases h
  | permute => exact (keep_ctx h).1
  | rdstat => exact (keep_ctx h).1
  | initShake128 => injection h with h; subst h; rfl
  | initShake256 => injection h with h; subst h; rfl
  | absorb => injection h with h; subst h; rfl
  | finalize => injection h with h; subst h; rfl
  | absorbOnceShake128 => injection h with h; subst h; rfl
  | absorbOnceShake256 => injection h with h; subst h; rfl
  | squeeze => injection h with h; subst h; rfl
  | squeezeblocks => injection h with h; subst h; rfl
  | release => injection h with h; subst h; rfl
  | shake128 => injection h with h; subst h; rfl
  | shake256 => injection h with h; subst h; rfl
  | sha3_256 => injection h with h; subst h; rfl
  | sha3_512 => injection h with h; subst h; rfl

theorem ctxAfter_of_stateless {i : Instr} (s : State) (h : i.stateless = true) : ctxAfter i s = s.ctx := by
  cases i <;> first | rfl | cases h

theorem allowedIn_iff_phaseEntry (i : Instr) (ph : Phase) : i.allowedIn ph = true ↔ i.phaseEntry ph ≠ none := by
  cases i <;> cases ph <;> decide

theorem ctxAfter_phase {i : Instr} {s : State} {ph : Phase} (h : i.phaseEntry s.ctx.phase = some ph) :
    (ctxAfter i s).phase = ph := by
  cases i with
  | absorb =>
    show (absorbBytes _ _).phase = ph
    rw [absorbBytes_phase]
    cases hp : s.ctx.phase <;> rw [hp] at h <;> simp_all [Instr.phaseEntry]
  | finalize => cases hp : s.ctx.phase <;> rw [hp] at h <;> simp_all [Instr.phaseEntry, ctxAfter]
  | squeeze => cases hp : s.ctx.phase <;> rw [hp] at h <;> simp_all [Instr.phaseEntry, ctxAfter]
  | squeezeblocks => cases hp : s.ctx.phase <;> rw [hp] at h <;> simp_all [Instr.phaseEntry, ctxAfter]
  | _ => simpa [Instr.phaseEntry, ctxAfter] using h

/-- Every command that is allowed keeps the invariant of the context (R25). -/
theorem ctxAfter_inv {i : Instr} {s : State} (hinv : s.ctx.Inv) (h : i.allowedIn s.ctx.phase = true) :
    (ctxAfter i s).Inv := by
  have hsq : (s.ctx.phase == .finalized || s.ctx.phase == .squeezing) = true →
      s.ctx.phase = .finalized ∨ s.ctx.phase = .squeezing := by
    intro h; simpa using h
  cases i with
  | initShake128 => exact inv_init _ rfl
  | initShake256 => exact inv_init _ rfl
  | absorb => exact inv_absorb _ _ hinv (by simpa [Instr.allowedIn] using h)
  | finalize => exact inv_finalize _ hinv (by simpa [Instr.allowedIn] using h)
  | absorbOnceShake128 => exact inv_absorbOnce _ _ _ rfl
  | absorbOnceShake256 => exact inv_absorbOnce _ _ _ rfl
  | squeeze => exact inv_squeeze _ _ hinv (hsq h)
  | squeezeblocks => exact inv_squeezeblocks _ _ hinv (hsq h)
  | release => exact inv_empty
  | shake128 => exact inv_empty
  | shake256 => exact inv_empty
  | sha3_256 => exact inv_empty
  | sha3_512 => exact inv_empty
  | permute => exact hinv
  | rdstat => exact hinv
  | power2round => exact hinv
  | decompose => exact hinv
  | makeHint => exact hinv
  | useHint => exact hinv
  | packPk => exact hinv
  | unpackPk => exact hinv
  | packSk => exact hinv
  | unpackSk => exact hinv
  | packSig => exact hinv
  | unpackSig => exact hinv

/-! ### Lengths and layouts -/

theorem sk_split_cin (p : Params) (c : List Int) (h : c.length = (2 * p.K + p.L) * p.N) :
    (skT0 p c).length = p.K * p.N ∧ (skS1 p c).length = p.L * p.N ∧ (skS2 p c).length = p.K * p.N := by
  unfold skT0 skS1 skS2
  simp only [length_slice, h, add_mul, mul_assoc]
  omega

theorem sig_split_cin (p : Params) (c : List Int) (h : c.length = (p.L + p.K) * p.N) :
    (sigZ p c).length = p.L * p.N ∧ (sigH p c).length = p.K * p.N := by
  unfold sigZ sigH
  simp only [length_slice, h, add_mul]
  omega

theorem sk_join (p : Params) (c : List Int) (h : c.length = (2 * p.K + p.L) * p.N) :
    skT0 p c ++ skS1 p c ++ skS2 p c = c := by
  unfold skT0 skS1 skS2
  have e1 := slice_append_slice c 0 (p.K * p.N) (p.L * p.N)
  have e2 := slice_append_slice c 0 ((p.K + p.L) * p.N) (p.K * p.N)
  rw [Nat.zero_add] at e1 e2
  rw [e1, ← add_mul, e2]
  apply slice_zero_all
  rw [h, ← add_mul]
  exact le_of_eq (by congr 1; omega)

theorem sig_join (p : Params) (c : List Int) (h : c.length = (p.L + p.K) * p.N) : sigZ p c ++ sigH p c = c := by
  unfold sigZ sigH
  have e := slice_append_slice c 0 (p.L * p.N) (p.K * p.N)
  rw [Nat.zero_add] at e
  rw [e, ← add_mul]
  exact slice_zero_all _ _ (by rw [h])

/-- A part of a concatenation, at its offset. -/
theorem slice_mid {α : Type} (a x b : List α) (off n : Nat) (h1 : a.length = off) (h2 : x.length = n) :
    slice (a ++ x ++ b) off n = x := by
  rw [List.append_assoc, slice_skip _ _ _ _ _ h1 (le_refl _), Nat.sub_self, slice_prefix _ _ _ h2]

/-- `SkSplit` of `SkBuffer` gives the six fields back (R234). -/
theorem skSplit_skBuffer (p : Params) (o : SkOrder) (f : SkFields) (h0 : f.seed.length = p.SEEDBYTES)
    (h1 : f.tr.length = p.TRBYTES) (h2 : f.key.length = p.SEEDBYTES) (h3 : f.e0.length = p.K * p.POLYT0BYTES)
    (h4 : f.e1.length = p.L * p.POLYETABYTES) (h5 : f.e2.length = p.K * p.POLYETABYTES) :
    skSplit p o (skBuffer o f) = f := by
  obtain ⟨y0, y1, y2, x0, x1, x2⟩ := f
  dsimp only at h0 h1 h2 h3 h4 h5
  unfold skSplit skBuffer Params.skSeedBytes
  cases o <;> dsimp only <;> congr 1
  · simpa using slice_mid [] y0 (y1 ++ (y2 ++ (x0 ++ (x1 ++ x2)))) 0 _ rfl h0
  · simpa using slice_mid y0 y1 (y2 ++ (x0 ++ (x1 ++ x2))) _ _ h0 h1
  · simpa using slice_mid (y0 ++ y1) y2 (x0 ++ (x1 ++ x2)) (p.SEEDBYTES + p.TRBYTES) _ (by simp [h0, h1]) h2
  · simpa using slice_mid (y0 ++ y1 ++ y2) x0 (x1 ++ x2) (2 * p.SEEDBYTES + p.TRBYTES) _
      (by simp [h0, h1, h2]; omega) h3
  · simpa using slice_mid (y0 ++ y1 ++ y2 ++ x0) x1 x2 (2 * p.SEEDBYTES + p.TRBYTES + p.K * p.POLYT0BYTES) _
      (by simp [h0, h1, h2, h3]; omega) h4
  · simpa using slice_mid (y0 ++ y1 ++ y2 ++ x0 ++ x1) x2 []
      (2 * p.SEEDBYTES + p.TRBYTES + p.K * p.POLYT0BYTES + p.L * p.POLYETABYTES) _
      (by simp [h0, h1, h2, h3, h4]; omega) h5
  · simpa using slice_mid [] y0 (y2 ++ (y1 ++ (x1 ++ (x2 ++ x0)))) 0 _ rfl h0
  · simpa using slice_mid (y0 ++ y2) y1 (x1 ++ (x2 ++ x0)) (p.SEEDBYTES + p.SEEDBYTES) _ (by simp [h0, h2]) h1
  · simpa using slice_mid y0 y2 (y1 ++ (x1 ++ (x2 ++ x0))) _ _ h0 h2
  · simpa using slice_mid (y0 ++ y2 ++ y1 ++ x1 ++ x2) x0 []
      (2 * p.SEEDBYTES + p.TRBYTES + p.L * p.POLYETABYTES + p.K * p.POLYETABYTES) _
      (by simp [h0, h1, h2, h4, h5]; omega) h3
  · simpa using slice_mid (y0 ++ y2 ++ y1) x1 (x2 ++ x0) (2 * p.SEEDBYTES + p.TRBYTES) _
      (by simp [h0, h1, h2]; omega) h4
  · simpa using slice_mid (y0 ++ y2 ++ y1 ++ x1) x2 x0 (2 * p.SEEDBYTES + p.TRBYTES + p.L * p.POLYETABYTES) _
      (by simp [h0, h1, h2, h4]; omega) h5

/-- `SkBuffer` of `SkSplit` gives the buffer back (R234). -/
theorem skBuffer_skSplit (p : Params) (o : SkOrder) (b : List Byte) (h : b.length = p.SKBYTES) :
    skBuffer o (skSplit p o b) = b := by
  have cut : ∀ m n, slice b 0 m ++ slice b m n = slice b 0 (m + n) := by
    intro m n
    have := slice_append_slice b 0 m n
    rwa [Nat.zero_add] at this
  unfold Params.SKBYTES at h
  rw [add_mul] at h
  unfold skSplit skBuffer
  have e : p.skSeedBytes = p.SEEDBYTES + p.TRBYTES + p.SEEDBYTES := by unfold Params.skSeedBytes; omega
  have e' : p.skSeedBytes = p.SEEDBYTES + p.SEEDBYTES + p.TRBYTES := by unfold Params.skSeedBytes; omega
  cases o <;> dsimp only
  · rw [e] at h ⊢
    rw [cut, cut, cut, cut, cut]
    exact slice_zero_all _ _ (by omega)
  · rw [e'] at h ⊢
    rw [cut, cut, cut, cut, cut]
    exact slice_zero_all _ _ (by omega)

/-- The lengths of the results of a command that succeeds (R84). P1 to P7 are not needed for them. -/
theorem rule_ok_lengths {i : Instr} {s : State} {e : Effect} (hc : s.precheck i = none)
    (h : ruleOf i s = .ok e) :
    e.dout.length = (i.lengthRow s.build.params s.ctx.alg.rate s.txn.arg).dout ∧
    e.cout.length = (i.lengthRow s.build.params s.ctx.alg.rate s.txn.arg).cout := by
  obtain ⟨hd, hl⟩ := lengths_of_precheck hc
  cases i with
  | power2round =>
    obtain ⟨w, hw⟩ := List.length_eq_one_iff.mp hl
    simp only [ruleOf, power2roundRule_eq s w hw] at h
    split at h
    · obtain ⟨-, h1, h2⟩ := keep_ctx h; rw [h1, h2]; exact ⟨rfl, rfl⟩
    · cases h
  | decompose =>
    obtain ⟨w, hw⟩ := List.length_eq_one_iff.mp hl
    simp only [ruleOf, decomposeRule_eq s w hw] at h
    split at h
    · obtain ⟨-, h1, h2⟩ := keep_ctx h; rw [h1, h2]; exact ⟨rfl, rfl⟩
    · cases h
  | makeHint =>
    obtain ⟨w0, w1, hw⟩ := List.length_eq_two.mp hl
    simp only [ruleOf, makeHintRule_eq s w0 w1 hw] at h
    split at h
    · obtain ⟨-, h1, h2⟩ := keep_ctx h; rw [h1, h2]; exact ⟨rfl, rfl⟩
    · cases h
  | useHint =>
    obtain ⟨w0, w1, hw⟩ := List.length_eq_two.mp hl
    simp only [ruleOf, useHintRule_eq s w0 w1 hw] at h
    split at h
    · obtain ⟨-, h1, h2⟩ := keep_ctx h; rw [h1, h2]; exact ⟨rfl, rfl⟩
    · cases h
  | packPk =>
    simp only [ruleOf, packPkRule_eq] at h
    have hd := hd _ rfl
    have hl' : (coeffVals s.txn.cin).length = s.build.params.K * s.build.params.N := (length_coeffVals _).trans hl
    split at h
    · obtain ⟨-, h1, h2⟩ := keep_ctx h; rw [h1, h2]
      refine ⟨?_, rfl⟩
      rw [List.length_append, length_packedRows _ _ _ _ hl', hd]; rfl
    · cases h
  | packSk =>
    simp only [ruleOf, packSkRule_eq] at h
    have hd : s.txn.din.length = s.build.params.skSeedBytes := hd _ rfl
    unfold Params.skSeedBytes at hd
    have hl' : (coeffVals s.txn.cin).length = (2 * s.build.params.K + s.build.params.L) * s.build.params.N :=
      (length_coeffVals _).trans hl
    obtain ⟨l1, l2, l3⟩ := sk_split_cin _ _ hl'
    split at h
    · obtain ⟨-, h1, h2⟩ := keep_ctx h; rw [h1, h2]
      refine ⟨?_, rfl⟩
      show _ = s.build.params.SKBYTES
      unfold skBuffer skFields Params.SKBYTES Params.skSeedBytes
      have e0 : s.build.params.polyBytes (t0Codec s.build.params).width = s.build.params.POLYT0BYTES := rfl
      have e1 : s.build.params.polyBytes (etaCodec s.build.params).width = s.build.params.POLYETABYTES := rfl
      cases s.build.skOrder <;>
      · simp only [List.length_append, length_slice, length_packedRows _ _ _ _ l1, length_packedRows _ _ _ _ l2,
          length_packedRows _ _ _ _ l3, hd, e0, e1, add_mul]
        omega
    · cases h
  | packSig =>
    simp only [ruleOf, packSigRule_eq] at h
    have hd := hd _ rfl
    have hl' : (coeffVals s.txn.cin).length = (s.build.params.L + s.build.params.K) * s.build.params.N :=
      (length_coeffVals _).trans hl
    obtain ⟨lz, lh⟩ := sig_split_cin _ _ hl'
    split at h
    · next hb =>
      obtain ⟨-, h1, h2⟩ := keep_ctx h; rw [h1, h2]
      refine ⟨?_, rfl⟩
      show _ = s.build.params.SIGBYTES
      unfold Params.SIGBYTES Params.HINTBYTES
      rw [List.length_append, List.length_append, length_packedRows _ _ _ _ lz, hintSection_eq, List.length_map,
        length_hintNumbers _ _ (length_hintRows _ _) (by rw [length_hintRows_flatten _ _ lh]; exact hb.2.2), hd]
      rfl
    · cases h
  | unpackSk =>
    simp only [ruleOf, unpackSkRule_eq s _ rfl] at h
    have hd := hd _ rfl
    split at h
    · obtain ⟨-, h1, h2⟩ := keep_ctx h; rw [h1, h2]
      unfold Params.SKBYTES Params.skSeedBytes at hd
      constructor
      · show _ = 2 * s.build.params.SEEDBYTES + s.build.params.TRBYTES
        unfold skSplit
        cases s.build.skOrder <;>
        · simp only [List.length_append, length_slice, hd]
          omega
      · show _ = (2 * s.build.params.K + s.build.params.L) * s.build.params.N
        simp only [length_toPorts, List.length_append, List.length_map, length_unpackFields, add_mul, mul_assoc]
        omega
    · cases h
  | unpackPk =>
    simp only [ruleOf, unpackPkRule_eq] at h
    obtain ⟨-, h1, h2⟩ := keep_ctx h; rw [h1, h2]
    have hd := hd _ rfl
    unfold Params.PKBYTES at hd
    refine ⟨?_, ?_⟩
    · rw [List.length_take, hd]; exact min_eq_left (Nat.le_add_right _ _)
    · rw [length_toPorts, List.length_map, length_unpackFields]; rfl
  | unpackSig =>
    have hd := hd _ rfl
    by_cases hk : HintOk s.build.params
        (slice s.txn.din (s.build.params.CTILDEBYTES + s.build.params.L * s.build.params.POLYZBYTES)
          s.build.params.HINTBYTES)
    · have hh := hintDecode_of_ok _ _ hk
      have hlen : (slice s.txn.din (s.build.params.CTILDEBYTES + s.build.params.L * s.build.params.POLYZBYTES)
          s.build.params.HINTBYTES).length = s.build.params.OMEGA + s.build.params.K := by
        rw [length_slice, hd]; unfold Params.SIGBYTES Params.HINTBYTES; omega
      have := (hintSection_hintDecode _ _ hlen _ hh).1
      simp only [ruleOf, unpackSigRule_of_ok s _ rfl hk] at h
      obtain ⟨-, h1, h2⟩ := keep_ctx h; rw [h1, h2]
      refine ⟨?_, ?_⟩
      · rw [length_slice, hd]; unfold Params.SIGBYTES; show _ = s.build.params.CTILDEBYTES; omega
      · rw [length_toPorts, List.length_append, List.length_map, length_unpackFields, this]
        show _ = (s.build.params.L + s.build.params.K) * s.build.params.N
        rw [add_mul]
    · simp only [ruleOf, unpackSigRule_of_not_ok s hk] at h; cases h
  | permute => obtain ⟨-, h1, h2⟩ := keep_ctx h; rw [h1, h2]; exact ⟨length_stateBytes _ _, rfl⟩
  | rdstat => obtain ⟨-, h1, h2⟩ := keep_ctx h; rw [h1, h2]; exact ⟨rfl, rfl⟩
  | squeeze => injection h with h; subst h; exact ⟨length_squeezeBytes _ _, rfl⟩
  | squeezeblocks =>
    injection h with h; subst h
    have := (precheck_eq_none _ _).mp hc
    refine ⟨?_, rfl⟩
    show (squeezeBlocks s.txn.arg s.ctx).1.length = _
    rw [squeezeBlocks_eq_squeezeBytes _ _ (this.2.1 rfl), length_squeezeBytes]; rfl
  | shake128 =>
    injection h with h; subst h
    refine ⟨?_, rfl⟩
    show (xofBody _ _ _ _).length = _
    rw [xofBody_eq, length_squeezeBytes]
    rfl
  | shake256 =>
    injection h with h; subst h
    refine ⟨?_, rfl⟩
    show (xofBody _ _ _ _).length = _
    rw [xofBody_eq, length_squeezeBytes]
    rfl
  | sha3_256 => injection h with h; subst h; exact ⟨length_stateBytes _ _, rfl⟩
  | sha3_512 => injection h with h; subst h; exact ⟨length_stateBytes _ _, rfl⟩
  | _ => injection h with h; subst h; exact ⟨rfl, rfl⟩

end Sys2Proof.Machine
end

