-- ==== Sys2Proof/Tests/Slice0.lean ====
section
/-! SUPPORT. Tests. The expected results are the spec's own: the words of `spec/30_encoding.md` R83 written out by field,
the vectors of `spec/95_test_vectors.md` and `spec/96_test_vectors_families.md` (named in each docstring), and, at the
end, for each statement with hypotheses a witness that meets them. -/

namespace Sys2Proof.Tests

/- One theorem at a time: the kernel runs `KeccakF` for seconds in some of these, and the theorems that wait for it
would each hold a thread and its stack. The option ends with this namespace. -/
set_option Elab.async false

open Sys2Proof Sys2Proof.Machine Sys2Proof.Claims

/-! ### Helpers -/

/-- A core of the parameters `p` right after reset. -/
def boot (p : Params) : State := State.resetOf { params := p, skOrder := .doc }

/-- `s` with the operands `ARG`, `DIN`, `CIN` sampled. -/
def withOps (s : State) (arg : Nat) (din : List Byte) (cin : List Int) : State :=
  { s with txn := { cmd := 0, arg := arg, din := din, cin := cin.map (BitVec.ofInt 32) } }

/-- A core in the given phase, with the lanes `a`. -/
def session (a : Lanes) (pos : Nat) (ph : Phase) (alg : Alg) : State :=
  { boot Config.mldsa44 with ctx := { lanes := a, pos := pos, phase := ph, alg := alg } }

/-- Lanes that are 0 but for some. -/
def lanesWith (l : List (Nat × Lane)) : Lanes := l.foldl (fun a x => xorLane a x.1 x.2) Lanes.zero

/-- The response to a command performed in `s`. -/
def ended (i : Instr) (s : State) : Option Response :=
  match exec i s with
  | .next t => t.response
  | .fault _ => none
  | .refused _ => none

/-- The response as the vectors print it. -/
def reply (i : Instr) (s : State) (arg : Nat) (din : List Byte) (cin : List Int) :
    Option (Status × List Byte × List Int) :=
  (ended i (withOps s arg din cin)).map fun r => (r.status, r.dout, coeffVals r.cout)

/-- The context after a command, without its lanes, and `FAULT`. -/
def after (i : Instr) (s : State) (arg : Nat) (din : List Byte) (cin : List Int) : Option (Phase × Nat × Alg × Bool) :=
  match exec i (withOps s arg din cin) with
  | .next t => some (t.ctx.phase, t.ctx.pos, t.ctx.alg, t.fault)
  | .fault _ => none
  | .refused _ => none

/-- The lanes after a command. -/
def lanesAfter (i : Instr) (s : State) (arg : Nat) (din : List Byte) : Option Lanes :=
  match exec i (withOps s arg din []) with
  | .next t => some t.ctx.lanes
  | .fault _ => none
  | .refused _ => none

theorem ended_some {i : Instr} {s : State} {r : Response} (h : ended i s = some r) :
    ∃ t, exec i s = .next t ∧ t.response = some r := by
  unfold ended at h
  split at h
  · next t ht => exact ⟨t, ht, h⟩
  · cases h
  · cases h

theorem ended_status {i : Instr} {s : State} {st : Status} (h : (ended i s).map Response.status = some st) :
    ∃ t r, exec i s = .next t ∧ t.response = some r ∧ r.status = st := by
  rw [Option.map_eq_some_iff] at h
  obtain ⟨r, hr, hs⟩ := h
  obtain ⟨t, ht, h⟩ := ended_some hr
  exact ⟨t, r, ht, h, hs⟩

/-! ### Decoding: each word of R83, bits 31 to 0 -/

theorem test_decode_permute : decode (0b0000000000000000000000#22 ++ 0b00#2 ++ 0b00000001#8) = .ok .permute := by decide

theorem test_decode_rdstat : decode (0b0000000000000000000000#22 ++ 0b00#2 ++ 0b00000010#8) = .ok .rdstat := by decide

theorem test_decode_initShake128 : decode (0b0000000000000000000000#22 ++ 0b00#2 ++ 0b00010000#8) = .ok .initShake128 := by decide

theorem test_decode_initShake256 : decode (0b0000000000000000000000#22 ++ 0b01#2 ++ 0b00010000#8) = .ok .initShake256 := by decide

theorem test_decode_absorb : decode (0b0000000000000000000000#22 ++ 0b00#2 ++ 0b00010001#8) = .ok .absorb := by decide

theorem test_decode_finalize : decode (0b0000000000000000000000#22 ++ 0b00#2 ++ 0b00010010#8) = .ok .finalize := by decide

theorem test_decode_absorbOnceShake128 : decode (0b0000000000000000000000#22 ++ 0b00#2 ++ 0b00010011#8) = .ok .absorbOnceShake128 := by decide

theorem test_decode_absorbOnceShake256 : decode (0b0000000000000000000000#22 ++ 0b01#2 ++ 0b00010011#8) = .ok .absorbOnceShake256 := by decide

theorem test_decode_squeeze : decode (0b0000000000000000000000#22 ++ 0b00#2 ++ 0b00010100#8) = .ok .squeeze := by decide

theorem test_decode_squeezeblocks : decode (0b0000000000000000000000#22 ++ 0b00#2 ++ 0b00010101#8) = .ok .squeezeblocks := by decide

theorem test_decode_release : decode (0b0000000000000000000000#22 ++ 0b00#2 ++ 0b00010110#8) = .ok .release := by decide

theorem test_decode_shake128 : decode (0b0000000000000000000000#22 ++ 0b00#2 ++ 0b00100000#8) = .ok .shake128 := by decide

theorem test_decode_shake256 : decode (0b0000000000000000000000#22 ++ 0b01#2 ++ 0b00100000#8) = .ok .shake256 := by decide

theorem test_decode_sha3_256 : decode (0b0000000000000000000000#22 ++ 0b10#2 ++ 0b00100000#8) = .ok .sha3_256 := by decide

theorem test_decode_sha3_512 : decode (0b0000000000000000000000#22 ++ 0b11#2 ++ 0b00100000#8) = .ok .sha3_512 := by decide

theorem test_decode_power2round : decode (0b0000000000000000000000#22 ++ 0b00#2 ++ 0b00110000#8) = .ok .power2round := by decide

theorem test_decode_decompose : decode (0b0000000000000000000000#22 ++ 0b00#2 ++ 0b00110001#8) = .ok .decompose := by decide

theorem test_decode_makeHint : decode (0b0000000000000000000000#22 ++ 0b00#2 ++ 0b00110010#8) = .ok .makeHint := by decide

theorem test_decode_useHint : decode (0b0000000000000000000000#22 ++ 0b00#2 ++ 0b00110011#8) = .ok .useHint := by decide

theorem test_decode_packPk : decode (0b0000000000000000000000#22 ++ 0b00#2 ++ 0b01000000#8) = .ok .packPk := by decide

theorem test_decode_unpackPk : decode (0b0000000000000000000000#22 ++ 0b00#2 ++ 0b01000001#8) = .ok .unpackPk := by decide

theorem test_decode_packSk : decode (0b0000000000000000000000#22 ++ 0b00#2 ++ 0b01000010#8) = .ok .packSk := by decide

theorem test_decode_unpackSk : decode (0b0000000000000000000000#22 ++ 0b00#2 ++ 0b01000011#8) = .ok .unpackSk := by decide

theorem test_decode_packSig : decode (0b0000000000000000000000#22 ++ 0b00#2 ++ 0b01000100#8) = .ok .packSig := by decide

theorem test_decode_unpackSig : decode (0b0000000000000000000000#22 ++ 0b00#2 ++ 0b01000101#8) = .ok .unpackSig := by decide

/-- R87: a bit of `ZERO`, an `ALG` the `OPC` does not take, an `OPC` outside the map, and the zero word. -/
theorem test_decode_illegal :
    decode 0x00000401 = .error .reservedBits ∧ decode 0x80000001 = .error .reservedBits ∧
    decode 0x00000101 = .error .badAlg ∧ decode 0x00000210 = .error .badAlg ∧ decode 0x00000313 = .error .badAlg ∧
    decode 0x00000003 = .error .unknownOpcode ∧ decode 0x00000046 = .error .unknownOpcode ∧
    decode 0x000000FF = .error .unknownOpcode ∧ decode 0x00000000 = .error .unknownOpcode := by
  decide

/-- The opcode table's numbering of a word's bits. -/
theorem test_decodeTableWord :
    decodeTableWord 32 0x00000120 = some .shake256 ∧ decodeTableWord 32 0x00000000 = none := by decide

theorem test_withFetchWord_runs :
    ended .rdstat (State.reset.withFetchWord 32 0x00000002) = some { status := .ok, dout := [0, 0, 0, 0], cout := [] } ∧
    (State.reset.withFetchWord 32 0x00000002).pending = [.command (Transaction.bare 0x00000002)] := by decide

/-! ### Well-formedness: a record that breaks each of P1 to P7 (R8) -/

theorem test_P1_refuses : ¬ ({ Config.toy with Q := 8380418 } : Params).P1 ∧ ¬ ({ Config.toy with Q := 1 } : Params).P1 ∧
    ¬ ({ Config.toy with Q := 2147483649 } : Params).P1 := by decide

theorem test_P2_refuses : ¬ ({ Config.toy with D := 0 } : Params).P2 ∧ ¬ ({ Config.toy with D := 23 } : Params).P2 ∧
    ¬ ({ Config.toy with D := 12 } : Params).P2 := by decide

theorem test_P3_refuses : ¬ ({ Config.toy with GAMMA2 := 0 } : Params).P3 ∧
    ¬ ({ Config.toy with GAMMA2 := 95233 } : Params).P3 ∧ ¬ ({ Config.toy with GAMMA2 := 4190208 } : Params).P3 := by
  decide

theorem test_P4_refuses : ¬ ({ Config.toy with N := 0 } : Params).P4 ∧ ¬ ({ Config.toy with N := 12 } : Params).P4 ∧
    ¬ ({ Config.toy with N := 264 } : Params).P4 := by decide

theorem test_P5_refuses : ¬ ({ Config.toy with OMEGA := 256 } : Params).P5 ∧
    ¬ ({ Config.toy with K := 0 } : Params).P5 ∧ ¬ ({ Config.toy with L := 0 } : Params).P5 := by decide

theorem test_P6_refuses : ¬ ({ Config.toy with ETA := 0 } : Params).P6 ∧
    ¬ ({ Config.toy with GAMMA1 := 0 } : Params).P6 := by decide

theorem test_P7_refuses : ¬ ({ Config.toy with GAMMA1 := 131073 } : Params).P7 := by decide

theorem test_Ok_accepts : Config.mldsa44.Ok ∧ Config.mldsa65.Ok ∧ Config.mldsa87.Ok ∧ Config.toy.Ok :=
  ⟨by decide, by decide, by decide, by decide⟩

/-! ### System and permutation -/

/-- R331, and line 3 of S1. -/
theorem test_rdstat :
    reply .rdstat (boot Config.mldsa44) 0 [] [] = some (.ok, [0, 0, 0, 0], []) ∧
    reply .rdstat (session Lanes.zero 3 .absorbing .shake128) 0 [] [] = some (.ok, [0x01, 0x03, 0, 0], []) := by
  decide

/-- The state of K1, `S[i] = i + 1`. -/
def k1 : Lanes := Vector.ofFn fun i => BitVec.ofNat 64 (i.val + 1)

/-- K1: row 0 after each of the five step mappings of round 0. -/
theorem test_step_mappings :
    (theta k1).toList.take 5 = [0x10, 0x0D, 0x1D, 0x1D, 0x1F] ∧
    (rho (theta k1)).toList.take 5 =
      [0x10, 0x1A, 0x4000000000000007, 0x00000001D0000000, 0x00000000F8000000] ∧
    (pi (rho (theta k1))).toList.take 5 =
      [0x10, 0x0000800000000000, 0x0000980000000000, 0x0000000001400000, 0x000000000000C000] ∧
    (keccakRound k1 0).toList.take 5 =
      [0x0000180000000011, 0x0000800001400000, 0x000098000000C000, 0x0000000001400010, 0x000080000000C000] := by
  decide +kernel

/-- K2: the first 16 bytes of `PERMUTE` of the state of K1; K4: a wrong length. -/
theorem test_permute :
    ((reply .permute (boot Config.mldsa44) 0 (stateBytes 200 k1) []).map fun r => (r.1, r.2.1.take 16)) =
      some (.ok, [0xDC, 0x77, 0xDA, 0x17, 0x12, 0xDD, 0x3C, 0xAD, 0xF0, 0x9A, 0xDE, 0xF1, 0x9C, 0x2B, 0x91, 0xD9]) ∧
    reply .permute (boot Config.mldsa44) 0 (zeros 199) [] = some (.failed .errLength, [], []) := by
  decide +kernel

/-! ### Sponge -/

/-- S1 line 1, and `INIT` inside a session (S9). -/
theorem test_initShake128 :
    after .initShake128 (session (lanesWith [(0, 5)]) 5 .squeezing .shake256) 0 [] [] =
      some (.absorbing, 0, .shake128, false) ∧
    lanesAfter .initShake128 (session (lanesWith [(0, 5)]) 5 .squeezing .shake256) 0 [] = some Lanes.zero := by
  decide

theorem test_initShake256 :
    after .initShake256 (boot Config.mldsa44) 0 [] [] = some (.absorbing, 0, .shake256, false) ∧
    reply .initShake256 (boot Config.mldsa44) 0 [0] [] = some (.failed .errLength, [], []) := by decide

/-- S1: "abc" in lane 0. -/
theorem test_absorb :
    after .absorb (session Lanes.zero 0 .absorbing .shake128) 0 [0x61, 0x62, 0x63] [] =
      some (.absorbing, 3, .shake128, false) ∧
    lanesAfter .absorb (session Lanes.zero 0 .absorbing .shake128) 0 [0x61, 0x62, 0x63] =
      some (lanesWith [(0, 0x0000000000636261)]) := by decide +kernel

/-- S9: `ABSORB` after reset. -/
theorem test_absorb_phase :
    reply .absorb (boot Config.mldsa44) 0 [0] [] = some (.failed .errPhase, [], []) ∧
    after .absorb (boot Config.mldsa44) 0 [0] [] = some (.empty, 0, .shake128, true) := by decide

/-- S1: the domain byte at state byte 3, bit 63 of lane 20, no permutation. -/
theorem test_finalize :
    after .finalize (session (lanesWith [(0, 0x636261)]) 3 .absorbing .shake128) 0 [] [] =
      some (.finalized, 168, .shake128, false) ∧
    lanesAfter .finalize (session (lanesWith [(0, 0x636261)]) 3 .absorbing .shake128) 0 [] =
      some (lanesWith [(0, 0x000000001F636261), (20, 0x8000000000000000)]) := by decide +kernel

/-- S5 line 1, from a session of the other algorithm. -/
theorem test_absorbOnceShake128 :
    after .absorbOnceShake128 (session (lanesWith [(3, 7)]) 9 .absorbing .shake256) 0 [] [] =
      some (.finalized, 168, .shake128, false) ∧
    lanesAfter .absorbOnceShake128 (session (lanesWith [(3, 7)]) 9 .absorbing .shake256) 0 [] =
      some (lanesWith [(0, 0x1F), (20, 0x8000000000000000)]) := by decide +kernel

/-- S3: the domain byte and the final bit in one byte. -/
theorem test_absorbOnceShake256 :
    after .absorbOnceShake256 (boot Config.mldsa44) 0 (zeros 135) [] = some (.finalized, 136, .shake256, false) ∧
    lanesAfter .absorbOnceShake256 (boot Config.mldsa44) 0 (zeros 135) = some (lanesWith [(16, 0x9F00000000000000)]) := by
  decide +kernel

/-- S1: the first `SQUEEZE` runs the one permutation. -/
theorem test_squeeze :
    reply .squeeze (session (lanesWith [(0, 0x1F636261), (20, 0x8000000000000000)]) 168 .finalized .shake128) 8 [] [] =
      some (.ok, [0x58, 0x81, 0x09, 0x2D, 0xD8, 0x18, 0xBF, 0x5C], []) := by decide +kernel

/-- R149: no byte, no permutation, and the phase all the same. -/
theorem test_squeeze_none :
    after .squeeze (session (lanesWith [(0, 9)]) 168 .finalized .shake128) 0 [] [] =
      some (.squeezing, 168, .shake128, false) ∧
    lanesAfter .squeeze (session (lanesWith [(0, 9)]) 168 .finalized .shake128) 0 [] = some (lanesWith [(0, 9)]) := by
  decide

/-- S5: the first bytes of the first block, and the cursor left at the rate. -/
theorem test_squeezeblocks :
    ((reply .squeezeblocks (session (lanesWith [(0, 0x1F636261), (16, 0x8000000000000000)]) 136 .finalized .shake256) 1
      [] []).map fun r => (r.1, r.2.1.length, r.2.1.take 8)) =
      some (.ok, 136, [0x48, 0x33, 0x66, 0x60, 0x13, 0x60, 0xA8, 0x77]) := by decide +kernel

/-- S9: the cursor is checked before the count is looked at. -/
theorem test_squeezeblocks_cursor :
    reply .squeezeblocks (session Lanes.zero 5 .squeezing .shake128) 0 [] [] = some (.failed .errCursor, [], []) ∧
    after .squeezeblocks (session Lanes.zero 168 .squeezing .shake128) 0 [] [] =
      some (.squeezing, 168, .shake128, false) := by decide

theorem test_release :
    after .release (session (lanesWith [(0, 9)]) 5 .squeezing .shake256) 0 [] [] =
      some (.empty, 0, .shake128, false) ∧
    lanesAfter .release (session (lanesWith [(0, 9)]) 5 .squeezing .shake256) 0 [] = some Lanes.zero := by decide

/-! ### One-shot commands -/

/-- V3, first 8 bytes. -/
theorem test_shake128 :
    reply .shake128 (boot Config.mldsa44) 8 [] [] =
      some (.ok, [0x7F, 0x9C, 0x2B, 0xA4, 0xE8, 0x8F, 0x82, 0x7D], []) := by decide +kernel

/-- V7, first 8 bytes, with the context wiped. -/
theorem test_shake256 :
    reply .shake256 (boot Config.mldsa44) 8 [0x61, 0x62, 0x63] [] =
      some (.ok, [0x48, 0x33, 0x66, 0x60, 0x13, 0x60, 0xA8, 0x77], []) := by decide +kernel

/-- V10. -/
theorem test_sha3_256 :
    reply .sha3_256 (session (lanesWith [(0, 9)]) 5 .squeezing .shake256) 0 [0x61, 0x62, 0x63] [] =
      some (.ok, [0x3A, 0x98, 0x5D, 0xA7, 0x4F, 0xE2, 0x25, 0xB2, 0x04, 0x5C, 0x17, 0x2D, 0x6B, 0xD3, 0x90, 0xBD,
        0x85, 0x5F, 0x08, 0x6E, 0x3E, 0x9D, 0x52, 0x5B, 0x46, 0xBF, 0xE2, 0x45, 0x11, 0x43, 0x15, 0x32], []) := by
  decide +kernel

/-- V12. -/
theorem test_sha3_512 :
    reply .sha3_512 (boot Config.mldsa44) 0 [] [] =
      some (.ok, [0xA6, 0x9F, 0x73, 0xCC, 0xA2, 0x3A, 0x9A, 0xC5, 0xC8, 0xB5, 0x67, 0xDC, 0x18, 0x5A, 0x75, 0x6E,
        0x97, 0xC9, 0x82, 0x16, 0x4F, 0xE2, 0x58, 0x59, 0xE0, 0xD1, 0xDC, 0xC1, 0x47, 0x5C, 0x80, 0xA6,
        0x15, 0xB2, 0x12, 0x3A, 0xF1, 0xF5, 0xF9, 0x4C, 0x11, 0xE3, 0xE9, 0x40, 0x2C, 0x3A, 0xC5, 0x58,
        0xF5, 0x00, 0x19, 0x9D, 0x95, 0xB6, 0xD3, 0xE3, 0x01, 0x75, 0x85, 0x86, 0x28, 0x1D, 0xCD, 0x26], []) := by
  decide +kernel

/-! ### Rounding (section 3.4) -/

theorem test_power2round :
    [0, 1, 4096, 4097, 8192, 12289, 8376321, 8380416].map (fun a => reply .power2round (boot Config.mldsa44) 0 [] [a]) =
      [[0, 0], [1, 0], [4096, 0], [-4095, 1], [0, 1], [-4095, 2], [-4095, 1023], [0, 1023]].map
        fun c => some (.ok, [], c) := by decide +kernel

theorem test_power2round_range :
    [-1, 8380417, -2147483648].map (fun a => reply .power2round (boot Config.mldsa44) 0 [] [a]) =
      List.replicate 3 (some (.failed .errRange, [], [])) := by decide +kernel

theorem test_decompose :
    [0, 95232, 95233, 190464, 1000000, 8285184, 8285185, 8380416].map
        (fun a => reply .decompose (boot Config.mldsa44) 0 [] [a]) =
      [[0, 0], [95232, 0], [-95231, 1], [0, 1], [47680, 5], [95232, 43], [-95232, 0], [-1, 0]].map
        fun c => some (.ok, [], c) := by decide +kernel

theorem test_decompose_p65 :
    [261888, 261889, 8118528, 8118529].map (fun a => reply .decompose (boot Config.mldsa65) 0 [] [a]) =
      [[261888, 0], [-261887, 1], [261888, 15], [-261888, 0]].map fun c => some (.ok, [], c) := by decide +kernel

theorem test_makeHint :
    [[95232, 5], [95233, 5], [-95232, 0], [-95232, 5], [-95233, 0], [0, 43]].map
        (fun c => reply .makeHint (boot Config.mldsa44) 0 [] c) =
      [0, 1, 0, 1, 1, 0].map fun b => some (.ok, [], [b]) := by decide +kernel

theorem test_makeHint_range :
    [[0, 44], [0, -1]].map (fun c => reply .makeHint (boot Config.mldsa44) 0 [] c) =
      List.replicate 2 (some (.failed .errRange, [], [])) := by decide +kernel

theorem test_useHint :
    [[0, 0], [0, 1], [1, 1], [95233, 1], [190465, 1], [8285184, 1], [8285185, 1]].map
        (fun c => reply .useHint (boot Config.mldsa44) 0 [] c) =
      [0, 43, 1, 0, 2, 0, 43].map fun b => some (.ok, [], [b]) := by decide +kernel

theorem test_useHint_refused :
    reply .useHint (boot Config.mldsa44) 0 [] [5, 2] = some (.failed .errRange, [], []) ∧
    reply .useHint (boot Config.mldsa44) 0 [] [-1] = some (.failed .errLength, [], []) := by decide +kernel

/-! ### Packing: the `TOY` vectors of sections 3.5 and 3.6 -/

/-- The `t1` of the first vector of section 3.5. -/
def pkCoeffs : List Int :=
  [1, 2, 3, 4, 5, 6, 7, 8, 1023, 0, 1023, 0, 512, 1, 2, 3]

/-- Its packed public key. -/
def pkBytes : List Byte :=
  [0xA0, 0xA1, 0xA2, 0xA3, 0x01, 0x08, 0x30, 0x00, 0x01, 0x05, 0x18, 0x70, 0x00, 0x02, 0xFF, 0x03, 0xF0, 0x3F,
   0x00, 0x00, 0x06, 0x20, 0xC0, 0x00]

theorem test_packPk :
    reply .packPk (boot Config.toy) 0 [0xA0, 0xA1, 0xA2, 0xA3] pkCoeffs = some (.ok, pkBytes, []) ∧
    reply .packPk (boot Config.toy) 0 [0xA0, 0xA1, 0xA2, 0xA3] (1024 :: pkCoeffs.tail) =
      some (.failed .errRange, [], []) := by decide +kernel

theorem test_unpackPk :
    reply .unpackPk (boot Config.toy) 0 pkBytes [] = some (.ok, [0xA0, 0xA1, 0xA2, 0xA3], pkCoeffs) ∧
    reply .unpackPk (boot Config.toy) 0 pkBytes.tail [] = some (.failed .errLength, [], []) := by decide +kernel

/-- The `t0`, `s1`, `s2` of the first secret-key vector of section 3.5. -/
def skCoeffs : List Int :=
  [4096, -4095, 0, 1, -1, 2, 100, -100, 0, 0, 0, 0, 0, 0, 0, 0, 2, 1, 0, -1, -2, 0, 2, -2, 0, 0, 0, 0, 0, 0, 0, 0,
   -2, -2, -2, -2, 2, 2, 2, 2]

/-- Its seed, public-hash and key-seed. -/
def skSeeds : List Byte :=
  [0xA0, 0xA1, 0xA2, 0xA3, 0xB0, 0xB1, 0xB2, 0xB3, 0xB4, 0xB5, 0xB6, 0xB7, 0xC0, 0xC1, 0xC2, 0xC3]

/-- Its packed secret key, `SK_ORDER = DOC`. -/
def skBytes : List Byte :=
  [0xA0, 0xA1, 0xA2, 0xA3, 0xB0, 0xB1, 0xB2, 0xB3, 0xB4, 0xB5, 0xB6, 0xB7, 0xC0, 0xC1, 0xC2, 0xC3, 0x00, 0xE0,
   0xFF, 0x03, 0xC0, 0xFF, 0x17, 0x00, 0xFD, 0x1F, 0xE7, 0x23, 0x83, 0x00, 0x10, 0x00, 0x02, 0x40, 0x00, 0x08,
   0x00, 0x01, 0x20, 0x00, 0x04, 0x80, 0x88, 0x46, 0x81, 0x92, 0x24, 0x49, 0x24, 0x09, 0x00]

theorem test_packSk :
    reply .packSk (boot Config.toy) 0 skSeeds skCoeffs = some (.ok, skBytes, []) ∧
    reply .packSk (boot Config.toy) 0 skSeeds (-4096 :: skCoeffs.tail) = some (.failed .errRange, [], []) := by
  decide +kernel

/-- The vector, and byte 42 = 8D: the first `s1` field is 5, above `2*ETA`. -/
theorem test_unpackSk :
    reply .unpackSk (boot Config.toy) 0 skBytes [] = some (.ok, skSeeds, skCoeffs) ∧
    reply .unpackSk (boot Config.toy) 0 (skBytes.set 42 0x8D) [] = some (.failed .errRange, [], []) := by decide +kernel

/-- The `z` and the hint matrix of the first vector of section 3.6. -/
def sigCoeffs : List Int :=
  [131072, -131071, 0, 1, -1, 65536, -65536, 12345, 0, 1, 0, 0, 0, 1, 0, 0, 0, 0, 0, 0, 0, 0, 0, 1]

/-- Its packed signature. -/
def sigBytes : List Byte :=
  [0xD0, 0xD1, 0xD2, 0xD3, 0x00, 0x00, 0xFC, 0xFF, 0x0F, 0x00, 0xE0, 0xFF, 0x7F, 0x01, 0x00, 0x02, 0x00, 0x04,
   0x00, 0xF0, 0xF1, 0x73, 0x01, 0x05, 0x07, 0x02, 0x03]

theorem test_packSig :
    reply .packSig (boot Config.toy) 0 [0xD0, 0xD1, 0xD2, 0xD3] sigCoeffs = some (.ok, sigBytes, []) ∧
    reply .packSig (boot Config.toy) 0 [0xD0, 0xD1, 0xD2, 0xD3] (List.replicate 8 0 ++ [1, 1, 1, 1] ++ List.replicate 12 0)
      = some (.failed .errRange, [], []) := by decide +kernel

theorem test_unpackSig :
    reply .unpackSig (boot Config.toy) 0 sigBytes [] = some (.ok, [0xD0, 0xD1, 0xD2, 0xD3], sigCoeffs) ∧
    -- index order; markers decrease; a marker above `OMEGA`; used padding; an index that is no column
    [[0x05, 0x01, 0x07, 0x02, 0x03], [0x01, 0x05, 0x07, 0x02, 0x01], [0x01, 0x05, 0x07, 0x02, 0x04],
      [0x01, 0x05, 0x07, 0x02, 0x02], [0x01, 0x08, 0x07, 0x02, 0x03]].map
        (fun h => reply .unpackSig (boot Config.toy) 0 (sigBytes.take 22 ++ h) []) =
      List.replicate 5 (some (.failed .malformed, [], [])) := by decide +kernel

/-- `MALFORMED` leaves `FAULT` alone (section 3.6). -/
theorem test_unpackSig_fault :
    after .unpackSig (boot Config.toy) 0 (sigBytes.take 22 ++ [0xFF, 0xFF, 0xFF, 0xFF, 0xFF]) [] =
      some (.empty, 0, .shake128, false) := by decide +kernel

/-! ### Witnesses: for each statement with hypotheses, a state and operands that meet them, clause by clause -/

/-- A state whose next step takes the given events. -/
def facing (s : State) (l : List HostEvent) : State := { s with pending := l }

theorem ok_mldsa44 : Config.mldsa44.Ok := by decide

theorem ok_toy : Config.toy.Ok := by decide

/-- The state of an absorbing session at the cursor `pos`. -/
def absorbingAt (pos : Nat) : State := session Lanes.zero pos .absorbing .shake128

theorem absorbingAt_inv : (absorbingAt 0).Inv ∧ (absorbingAt 167).Inv := by
  refine ⟨⟨?_, rfl⟩, ⟨?_, rfl⟩⟩ <;> decide

theorem finalized_inv : (session Lanes.zero 168 .finalized .shake128).Inv := ⟨rfl, rfl⟩

theorem squeezing_inv :
    (session Lanes.zero 1 .squeezing .shake256).Inv ∧ (session Lanes.zero 136 .squeezing .shake256).Inv := by
  refine ⟨⟨?_, ?_, rfl⟩, ⟨?_, ?_, rfl⟩⟩ <;> decide

theorem boot_inv : (boot Config.mldsa44).Inv := ⟨rfl, rfl, rfl⟩

/-- `IllegalWords`: an illegal word of each class, on its way. -/
theorem witness_IllegalWords :
    ∀ w ∈ ([0x00000401, 0x00000210, 0x00000046] : List CmdWord), ∃ (s : State) (t : Transaction)
      (rest : List HostEvent) (e : IllegalWord), s.build.params.Ok ∧ s.pending = .command t :: rest ∧ t.cmd = w ∧
        decode t.cmd = .error e := by
  intro w hw
  simp only [List.mem_cons, List.not_mem_nil, or_false] at hw
  rcases hw with rfl | rfl | rfl
  · exact ⟨facing (boot Config.toy) [issue 0x00000401 7 [1]], _, _, .reservedBits, by decide, rfl, rfl, by decide⟩
  · exact ⟨facing (boot Config.toy) [issue 0x00000210 7 [1]], _, _, .badAlg, by decide, rfl, rfl, by decide⟩
  · exact ⟨facing (boot Config.toy) [issue 0x00000046 7 [1]], _, _, .unknownOpcode, by decide, rfl, rfl, by decide⟩

theorem witness_StepPerformsCommand :
    (∃ (s : State) (t : Transaction) (rest : List HostEvent) (i : Instr), s.pending = .command t :: rest ∧
      decode t.cmd = .ok i) ∧ (∃ (s : State) (rest : List HostEvent), s.pending = .reset :: rest) ∧
    ∃ s : State, s.pending = [] :=
  ⟨⟨facing State.reset [issue 0x00000002 0 []], _, _, .rdstat, rfl, rfl⟩, ⟨facing State.reset [.reset], _, rfl⟩,
    ⟨State.reset, rfl⟩⟩

theorem witness_ResetValues : ∃ (s : State) (rest : List HostEvent), s.pending = .reset :: rest ∧ rest ≠ [] ∧
    s.fault = true ∧ s.ctx.pos = 136 :=
  ⟨{ facing (session Lanes.zero 136 .squeezing .shake256) [.reset, .reset] with fault := true }, _, rfl, by decide, rfl,
    rfl⟩

theorem witness_StepKeepsInv : ∃ s t : State, s.Inv ∧ s.pending ≠ [] ∧ step s = .next t := by
  have h := step_issue (s := facing (absorbingAt 167) [issue 0x00000012 0 []]) (i := .finalize) ok_mldsa44 rfl rfl rfl
    (fun h => absurd h (by decide)) (fun n h => by cases h; rfl) rfl rfl
  exact ⟨facing (absorbingAt 167) [issue 0x00000012 0 []], _, absorbingAt_inv.2, by decide, h⟩

theorem witness_EveryStepAnswers :
    ∃ (s t : State) (c : Transaction) (rest : List HostEvent), s.build.params.Ok ∧ s.pending = .command c :: rest ∧
      step s = .next t := by
  have h := step_issue (s := facing (boot Config.toy) [issue 0x00000002 0 []]) (i := .rdstat) ok_toy rfl rfl rfl
    (fun h => absurd h (by decide)) (fun n h => by cases h; rfl) rfl rfl
  exact ⟨_, _, _, _, ok_toy, rfl, h⟩

/-- `FrameRule`, `StatusTable`: a command that succeeds, a fault, a `MALFORMED`, a stateless command. -/
theorem witness_FrameRule :
    (∃ (s t : State) (r : Response), exec .rdstat s = .next t ∧ t.response = some r ∧ r.status = .ok) ∧
    (∃ (s t : State) (r : Response), exec .absorb s = .next t ∧ t.response = some r ∧
      r.status = .failed .errPhase) ∧
    (∃ (s t : State) (r : Response), exec .unpackSig s = .next t ∧ t.response = some r ∧
      r.status = .failed .malformed) ∧ Instr.rdstat.stateless = true :=
  ⟨⟨boot Config.toy, ended_status (by decide)⟩, ⟨boot Config.toy, ended_status (by decide)⟩,
    ⟨withOps (boot Config.toy) 0 (List.replicate 27 0xFF) [], ended_status (by decide +kernel)⟩, rfl⟩

theorem witness_StatusTable :
    (∃ (s t : State) (r : Response), exec .unpackSig s = .next t ∧ t.response = some r ∧
      r.status = .failed .malformed) ∧
    (∃ (s t : State) (r : Response), exec .squeeze s = .next t ∧ t.response = some r ∧
      r.status = .failed .errPhase) ∧
    (∃ (s t : State) (r : Response), exec .squeezeblocks s = .next t ∧ t.response = some r ∧
      r.status = .failed .errCursor) ∧
    ∃ (s t : State) (r : Response), exec .useHint s = .next t ∧ t.response = some r ∧
      r.status = .failed .errRange :=
  ⟨⟨withOps (boot Config.toy) 0 (List.replicate 27 0xFF) [], ended_status (by decide +kernel)⟩,
    ⟨boot Config.toy, ended_status (by decide)⟩,
    ⟨session Lanes.zero 1 .squeezing .shake256, ended_status (by decide)⟩,
    ⟨withOps (boot Config.toy) 0 [] [5, 2], ended_status (by decide +kernel)⟩⟩

/-- `FaultBitRule`, `PreciseFaults`: a step that ends in a fault, one that ends in `OK`, a reset, a sticky `FAULT`. -/
theorem witness_FaultBitRule :
    (∃ (s t : State) (c : Transaction) (rest : List HostEvent) (r : Response), s.pending = .command c :: rest ∧
      step s = .next t ∧ t.response = some r ∧ r.status = .failed .errPhase) ∧
    (∃ (s t : State) (c : Transaction) (rest : List HostEvent) (r : Response), s.pending = .command c :: rest ∧
      step s = .next t ∧ t.response = some r ∧ r.status = .ok) ∧
    (∃ s t : State, s.pending.head? ≠ some .reset ∧ step s = .next t ∧ s.fault = true) ∧
    ∃ (s t : State) (rest : List HostEvent), s.pending = .reset :: rest ∧ step s = .next t := by
  refine ⟨?_, ?_, ⟨{ boot Config.toy with fault := true }, _, by decide, rfl, rfl⟩,
    ⟨facing State.reset [.reset], _, [], rfl, rfl⟩⟩
  · exact ⟨facing (boot Config.toy) [.command { cmd := 0x00000011, arg := 0, din := [], cin := [] }], _, _, _, _, rfl,
      faults_of_phase (i := .absorb)
        (s := { boot Config.toy with txn := { cmd := 0x00000011, arg := 0, din := [], cin := [] } })
        (by decide) rfl, rfl, rfl⟩
  · exact ⟨facing (boot Config.toy) [issue 0x00000002 0 []], _, _, _, _, rfl,
      step_issue (i := .rdstat) (by decide) rfl rfl rfl (fun h => absurd h (by decide))
        (fun n h => by cases h; rfl) rfl rfl, rfl, rfl⟩

theorem witness_PreciseFaults :
    ∃ (s t : State) (c : Transaction) (rest : List HostEvent) (r : Response) (f : Failure),
      s.pending = .command c :: rest ∧ step s = .next t ∧ t.response = some r ∧ r.status = .failed f := by
  obtain ⟨⟨s, t, c, rest, r, h1, h2, h3, h4⟩, -⟩ := witness_FaultBitRule
  exact ⟨s, t, c, rest, r, _, h1, h2, h3, h4⟩

/-- `CheckOrder`: each of the four clauses, and the illegal word (`witness_IllegalWords`). -/
theorem witness_CheckOrder :
    (∃ (i : Instr) (s : State), s.build.params.Ok ∧ i.phaseEntry s.ctx.phase = none) ∧
    (∃ s : State, s.build.params.Ok ∧ Instr.squeezeblocks.phaseEntry s.ctx.phase ≠ none ∧
      s.ctx.pos ≠ s.ctx.alg.rate) ∧
    (∃ (i : Instr) (s : State), s.build.params.Ok ∧ i.phaseEntry s.ctx.phase ≠ none ∧ i ≠ .squeezeblocks ∧
      ∃ n, (i.lengthRow s.build.params s.ctx.alg.rate s.txn.arg).din = some n ∧ s.txn.din.length ≠ n) ∧
    ∃ (i : Instr) (s : State), s.build.params.Ok ∧ i.phaseEntry s.ctx.phase ≠ none ∧ i ≠ .squeezeblocks ∧
      (∀ n, (i.lengthRow s.build.params s.ctx.alg.rate s.txn.arg).din = some n → s.txn.din.length = n) ∧
      s.txn.cin.length = (i.lengthRow s.build.params s.ctx.alg.rate s.txn.arg).cin :=
  ⟨⟨.absorb, boot Config.toy, by decide, rfl⟩,
    ⟨session Lanes.zero 167 .squeezing .shake128, by decide, by decide, by decide⟩,
    ⟨.permute, boot Config.toy, by decide, by decide, by decide, 200, rfl, by decide⟩,
    ⟨.rdstat, boot Config.toy, by decide, by decide, by decide, fun n h => by cases h; rfl, rfl⟩⟩

theorem witness_PhaseTable :
    (∃ (i : Instr) (s : State), s.build.params.Ok ∧ i.phaseEntry s.ctx.phase = none) ∧
    ∃ (i : Instr) (s t : State) (r : Response), s.build.params.Ok ∧ i.phaseEntry s.ctx.phase = some .absorbing ∧
      exec i s = .next t ∧ t.response = some r ∧ r.status = .ok := by
  refine ⟨⟨.finalize, boot Config.toy, by decide, rfl⟩, ⟨.initShake128, boot Config.toy, ?_⟩⟩
  obtain ⟨t, r, h⟩ : ∃ t r, exec .initShake128 (boot Config.toy) = .next t ∧ t.response = some r ∧ r.status = .ok :=
    ended_status (by decide)
  exact ⟨t, r, by decide, rfl, h⟩

theorem witness_LengthTable :
    (∃ (i : Instr) (s t : State), i ∉ [.squeeze, .squeezeblocks, .shake128, .shake256] ∧ exec i s = .next t) ∧
    (∃ (i : Instr) (s : State), s.build.params.Ok ∧ i.phaseEntry s.ctx.phase ≠ none ∧ i = .squeezeblocks ∧
      s.ctx.pos = s.ctx.alg.rate ∧
      s.txn.cin.length ≠ (i.lengthRow s.build.params s.ctx.alg.rate s.txn.arg).cin) ∧
    ∃ (i : Instr) (s t : State) (r : Response), s.build.params.Ok ∧ i.phaseEntry s.ctx.phase ≠ none ∧
      i ≠ .squeezeblocks ∧ exec i s = .next t ∧ t.response = some r ∧ r.status = .ok := by
  refine ⟨⟨.absorb, boot Config.toy, _, by decide, faults_of_phase (by decide) rfl⟩, ⟨.squeezeblocks, withOps (session Lanes.zero 168 .finalized .shake128) 0 [] [0], by decide, by decide, rfl,
    rfl, by decide⟩, ⟨.rdstat, boot Config.toy, ?_⟩⟩
  obtain ⟨t, r, h⟩ : ∃ t r, exec .rdstat (boot Config.toy) = .next t ∧ t.response = some r ∧ r.status = .ok :=
    ended_status (by decide)
  exact ⟨t, r, by decide, by decide, by decide, h⟩

theorem witness_BadParamsRefused :
    ∃ (s : State) (t : Transaction) (rest : List HostEvent), ¬ s.build.params.Ok ∧ s.pending = .command t :: rest :=
  ⟨facing (boot { Config.toy with N := 12 }) [issue 0x00000002 0 []], _, _, by decide, rfl⟩

theorem witness_DerivedSizes : 1 ≤ Config.toy.D := by decide

theorem witness_FaultFreeRuns :
    ∃ (n : Nat) (s t : State), s.fault = false ∧ s.lastIsFault = false ∧ s.CommandsOnly ∧ Runs n s t ∧ n = 1 :=
  ⟨1, facing (boot Config.toy) [issue 0x00000002 0 []], _, rfl, rfl, by simp [State.CommandsOnly, facing, issue],
    ⟨_, step_issue (i := .rdstat) (by decide) rfl rfl rfl (fun h => absurd h (by decide))
      (fun n h => by cases h; rfl) rfl rfl, rfl⟩, rfl⟩

theorem witness_RdstatRule :
    (∃ s : State, s.build.params.Ok ∧ s.txn.din ≠ []) ∧
    ∃ s : State, s.build.params.Ok ∧ s.txn.din = [] ∧ s.txn.cin = [] ∧ s.Inv ∧ s.ctx.pos = 168 :=
  ⟨⟨withOps (boot Config.toy) 0 [0] [], by decide, by decide⟩,
    ⟨session Lanes.zero 168 .finalized .shake128, by decide, rfl, rfl, finalized_inv, rfl⟩⟩

theorem witness_FirstCommandsAfterReset :
    (∃ (b : Build) (t : Transaction), b.params.Ok ∧ t.din = [] ∧ t.cin = []) ∧
    ∃ u : State, u.build.params.Ok ∧ u.txn.din = [] ∧ u.txn.cin = [] :=
  ⟨⟨Config.build, Transaction.bare 0, by decide, rfl, rfl⟩, ⟨boot Config.toy, by decide, rfl, rfl⟩⟩

theorem witness_ResponsesIgnoreContext :
    ∃ s s' : State, s.build.params.Ok ∧ s'.build.params.Ok ∧ s.txn = s'.txn ∧ s.build = s'.build ∧ s.txn.cin = [] ∧
      s.ctx ≠ s'.ctx ∧ Instr.shake128.oneShot = true ∧ Instr.permute.stateless = true :=
  ⟨boot Config.mldsa44, session Lanes.zero 5 .squeezing .shake256, by decide, by decide, rfl, rfl, rfl, by decide,
    rfl, rfl⟩

theorem witness_CoefficientPort : (-2 ^ 31 : Int) ≤ -2 ^ 31 ∧ (-2 ^ 31 : Int) < 2 ^ 31 ∧
    (-2 ^ 31 : Int) ≤ 2 ^ 31 - 1 ∧ (2 ^ 31 - 1 : Int) < 2 ^ 31 := by decide

theorem witness_PermuteRule :
    (∃ s : State, s.build.params.Ok ∧ s.txn.din.length ≠ 200) ∧
    ∃ s : State, s.build.params.Ok ∧ s.txn.din.length = 200 ∧ s.txn.cin = [] :=
  ⟨⟨boot Config.toy, by decide, by decide⟩,
    ⟨withOps (boot Config.toy) 0 (zeros 200) [], by decide, List.length_replicate, rfl⟩⟩

theorem witness_PermutationTables : (0 < 24 ∧ 23 < 24) ∧ (0 < 7 ∧ 6 < 7) ∧ (2 < 64 ∧ 2 ∉ [0, 1, 3, 7, 15, 31, 63]) ∧ 24 < 25 := by
  decide

theorem witness_StepMappings : (0 < 64 ∧ 63 < 64) ∧ (63 < 64 ∧ 0 < 64) := by decide

/-- `InitRule`, `ReleaseRule`: operands present, operands absent. -/
theorem witness_InitRule :
    (∃ s : State, s.build.params.Ok ∧ s.txn.cin ≠ []) ∧
    ∃ s : State, s.build.params.Ok ∧ s.txn.din = [] ∧ s.txn.cin = [] :=
  ⟨⟨withOps (boot Config.toy) 0 [] [0], by decide, by decide⟩, ⟨absorbingAt 3, by decide, rfl, rfl⟩⟩

theorem witness_ReleaseRule :
    (∃ s : State, s.build.params.Ok ∧ s.txn.cin ≠ []) ∧
    ∃ s : State, s.build.params.Ok ∧ s.txn.din = [] ∧ s.txn.cin = [] := witness_InitRule

/-- `AbsorbRule`, `FinalizeRule`: another phase; operands in the way; the command runs at either end of the cursor. -/
theorem witness_AbsorbRule :
    (∃ s : State, s.build.params.Ok ∧ s.Inv ∧ s.ctx.phase ≠ .absorbing) ∧
    (∃ s : State, s.build.params.Ok ∧ s.Inv ∧ s.ctx.phase = .absorbing ∧ s.txn.cin ≠ []) ∧
    ∀ pos ∈ [0, 167], ∃ s : State, s.build.params.Ok ∧ s.Inv ∧ s.ctx.phase = .absorbing ∧ s.txn.din = [] ∧
      s.txn.cin = [] ∧ s.ctx.pos = pos := by
  refine ⟨⟨boot Config.mldsa44, by decide, boot_inv, by decide⟩,
    ⟨withOps (absorbingAt 0) 0 [] [0], by decide, absorbingAt_inv.1, rfl, by decide⟩, ?_⟩
  intro pos hp
  simp only [List.mem_cons, List.not_mem_nil, or_false] at hp
  rcases hp with rfl | rfl
  · exact ⟨absorbingAt 0, by decide, absorbingAt_inv.1, rfl, rfl, rfl, rfl⟩
  · exact ⟨absorbingAt 167, by decide, absorbingAt_inv.2, rfl, rfl, rfl, rfl⟩

theorem witness_FinalizeRule :
    (∃ s : State, s.build.params.Ok ∧ s.Inv ∧ s.ctx.phase ≠ .absorbing) ∧
    (∃ s : State, s.build.params.Ok ∧ s.Inv ∧ s.ctx.phase = .absorbing ∧ s.txn.cin ≠ []) ∧
    ∀ pos ∈ [0, 167], ∃ s : State, s.build.params.Ok ∧ s.Inv ∧ s.ctx.phase = .absorbing ∧ s.txn.din = [] ∧
      s.txn.cin = [] ∧ s.ctx.pos = pos := witness_AbsorbRule

/-- `AbsorbBytewise`: data that leaves room, and data that fills the block. -/
theorem witness_AbsorbBytewise :
    (∃ s : State, s.build.params.Ok ∧ s.Inv ∧ s.ctx.phase = .absorbing ∧ s.txn.cin = [] ∧
      s.ctx.pos + s.txn.din.length < s.ctx.alg.rate) ∧
    ∃ s : State, s.build.params.Ok ∧ s.Inv ∧ s.ctx.phase = .absorbing ∧ s.txn.cin = [] ∧ s.txn.din ≠ [] ∧
      s.ctx.pos + s.txn.din.length = s.ctx.alg.rate :=
  ⟨⟨withOps (absorbingAt 0) 0 [1] [], by decide, absorbingAt_inv.1, rfl, rfl, by decide⟩,
    ⟨withOps (absorbingAt 167) 0 [1] [], by decide, absorbingAt_inv.2, rfl, rfl, by decide, rfl⟩⟩

/-- `AbsorbEquivalence`, `PaddedMessage`, `OneShotEqualsIncremental`. -/
theorem witness_AbsorbEquivalence : ∃ (s : State) (w v : CmdWord), s.build.params.Ok ∧
    (w, v) ∈ [((0x00000010 : CmdWord), (0x00000013 : CmdWord)), (0x00000110, 0x00000113)] :=
  ⟨boot Config.toy, 0x00000110, 0x00000113, by decide, by decide⟩

theorem witness_PaddedMessage : ∃ (s : State) (w : CmdWord) (alg : Alg), s.build.params.Ok ∧
    (w, alg) ∈ [((0x00000010 : CmdWord), Alg.shake128), (0x00000110, .shake256)] :=
  ⟨boot Config.toy, 0x00000110, .shake256, by decide, by decide⟩

theorem witness_OneShotEqualsIncremental : ∃ (s : State) (w v : CmdWord), s.build.params.Ok ∧
    (w, v) ∈ [((0x00000020 : CmdWord), (0x00000013 : CmdWord)), (0x00000120, 0x00000113)] :=
  ⟨boot Config.toy, 0x00000020, 0x00000013, by decide, by decide⟩

/-- `AbsorbOnceRule`, `ShakeRule`, `Sha3Rule`: a coefficient in the way, and none. -/
theorem witness_AbsorbOnceRule :
    (Instr.absorbOnceShake128, Alg.shake128) ∈
      [(Instr.absorbOnceShake128, Alg.shake128), (.absorbOnceShake256, .shake256)] ∧
    (∃ s : State, s.build.params.Ok ∧ s.txn.cin ≠ []) ∧ ∃ s : State, s.build.params.Ok ∧ s.txn.cin = [] :=
  ⟨by decide, ⟨withOps (boot Config.toy) 0 [] [0], by decide, by decide⟩, ⟨boot Config.toy, by decide, rfl⟩⟩

theorem witness_ShakeRule :
    (Instr.shake256, Alg.shake256) ∈ [(Instr.shake128, Alg.shake128), (.shake256, .shake256)] ∧
    (∃ s : State, s.build.params.Ok ∧ s.txn.cin ≠ []) ∧ ∃ s : State, s.build.params.Ok ∧ s.txn.cin = [] :=
  ⟨by decide, witness_AbsorbOnceRule.2⟩

theorem witness_Sha3Rule :
    (Instr.sha3_512, Alg.sha3_512, 64) ∈ [(Instr.sha3_256, Alg.sha3_256, 32), (.sha3_512, .sha3_512, 64)] ∧
    (∃ s : State, s.build.params.Ok ∧ s.txn.cin ≠ []) ∧ ∃ s : State, s.build.params.Ok ∧ s.txn.cin = [] :=
  ⟨by decide, witness_AbsorbOnceRule.2⟩

/-- `SqueezeRule`: each phase, and each end of the cursor's range. -/
theorem witness_SqueezeRule :
    (∃ s : State, s.build.params.Ok ∧ s.Inv ∧ s.ctx.phase = .empty) ∧
    (∃ s : State, s.build.params.Ok ∧ s.Inv ∧ s.ctx.phase = .absorbing) ∧
    (∃ s : State, s.build.params.Ok ∧ s.Inv ∧ s.ctx.phase = .finalized ∧ s.txn.din ≠ []) ∧
    (∃ s : State, s.build.params.Ok ∧ s.Inv ∧ s.ctx.phase = .finalized ∧ s.txn.din = [] ∧ s.txn.cin = []) ∧
    (∃ s : State, s.build.params.Ok ∧ s.Inv ∧ s.ctx.phase = .squeezing ∧ s.ctx.pos = 1 ∧ s.txn.din = [] ∧
      s.txn.cin = []) ∧
    ∃ s : State, s.build.params.Ok ∧ s.Inv ∧ s.ctx.phase = .squeezing ∧ s.ctx.pos = 136 ∧ s.txn.arg = 0 ∧
      s.txn.din = [] ∧ s.txn.cin = [] :=
  ⟨⟨boot Config.mldsa44, by decide, boot_inv, rfl⟩, ⟨absorbingAt 0, by decide, absorbingAt_inv.1, rfl⟩,
    ⟨withOps (session Lanes.zero 168 .finalized .shake128) 0 [0] [], by decide, finalized_inv, rfl, by decide⟩,
    ⟨session Lanes.zero 168 .finalized .shake128, by decide, finalized_inv, rfl, rfl, rfl⟩,
    ⟨session Lanes.zero 1 .squeezing .shake256, by decide, squeezing_inv.1, rfl, rfl, rfl, rfl⟩,
    ⟨session Lanes.zero 136 .squeezing .shake256, by decide, squeezing_inv.2, rfl, rfl, rfl, rfl, rfl⟩⟩

theorem witness_SqueezeEquivalence : ∃ s : State, s.build.params.Ok ∧ s.ctx.phase = .squeezing :=
  ⟨session Lanes.zero 1 .squeezing .shake256, by decide, rfl⟩

theorem witness_SqueezeblocksRule :
    (∃ s : State, s.build.params.Ok ∧ s.ctx.phase = .absorbing) ∧
    (∃ s : State, s.build.params.Ok ∧ s.ctx.phase = .squeezing ∧ s.ctx.pos ≠ s.ctx.alg.rate) ∧
    (∃ s : State, s.build.params.Ok ∧ s.ctx.phase = .squeezing ∧ s.ctx.pos = s.ctx.alg.rate ∧ s.txn.cin ≠ []) ∧
    ∃ s : State, s.build.params.Ok ∧ s.ctx.phase = .finalized ∧ s.ctx.pos = s.ctx.alg.rate ∧ s.txn.din = [] ∧
      s.txn.cin = [] :=
  ⟨⟨absorbingAt 0, by decide, rfl⟩, ⟨session Lanes.zero 135 .squeezing .shake256, by decide, rfl, by decide⟩,
    ⟨withOps (session Lanes.zero 136 .squeezing .shake256) 1 [] [0], by decide, rfl, rfl, by decide⟩,
    ⟨session Lanes.zero 168 .finalized .shake128, by decide, rfl, rfl, rfl, rfl⟩⟩

/-- `Power2roundRule`, `Power2roundProperties`, `DecomposeRule`, `DecomposeProperties`: a wrong length, out of range on
either side, and both ends of the range; `8285184` and `8285185` stand on the two sides of the wrap-around branch. -/
theorem witness_one_coefficient :
    (∃ s : State, s.build.params.Ok ∧ s.txn.cin.length ≠ 1) ∧
    (∀ a ∈ ([-1, 8380417] : List Int), ∃ (s : State) (w : Coeff), s.build.params.Ok ∧ s.txn.din = [] ∧
      s.txn.cin = [w] ∧ (w.toInt < 0 ∨ (s.build.params.Q : Int) ≤ w.toInt) ∧ w.toInt = a) ∧
    ∀ a ∈ ([0, 8285184, 8285185, 8380416] : List Int), ∃ (s : State) (w : Coeff), s.build.params.Ok ∧
      s.txn.din = [] ∧ s.txn.cin = [w] ∧ 0 ≤ w.toInt ∧ w.toInt < s.build.params.Q ∧ w.toInt = a := by
  refine ⟨⟨boot Config.mldsa44, by decide, by decide⟩, ?_, ?_⟩
  · intro a ha
    refine ⟨withOps (boot Config.mldsa44) 0 [] [a], BitVec.ofInt 32 a, ok_mldsa44, rfl, rfl, ?_⟩
    simp only [List.mem_cons, List.not_mem_nil, or_false] at ha
    rcases ha with rfl | rfl <;> decide
  · intro a ha
    refine ⟨withOps (boot Config.mldsa44) 0 [] [a], BitVec.ofInt 32 a, ok_mldsa44, rfl, rfl, ?_⟩
    simp only [List.mem_cons, List.not_mem_nil, or_false] at ha
    rcases ha with rfl | rfl | rfl | rfl <;> decide

/-- `Power2roundProperties` (c): the condition on `Q` and `D` holds in the three columns and in `TOY`. -/
theorem witness_Power2roundProperties :
    ∀ p ∈ [Config.mldsa44, Config.mldsa65, Config.mldsa87, Config.toy],
      ((p.Q : Int) - 1) % 2 ^ p.D ≤ 2 ^ (p.D - 1) := by decide

/-- `MakeHintRule`: a wrong length, `a1` out of range on either side, and each clause of the predicate. -/
theorem witness_MakeHintRule :
    (∃ s : State, s.build.params.Ok ∧ s.txn.cin.length ≠ 2) ∧
    (∀ a1 ∈ ([-1, 44] : List Int), ∃ (s : State) (w0 w1 : Coeff), s.build.params.Ok ∧ s.txn.din = [] ∧
      s.txn.cin = [w0, w1] ∧ (w1.toInt < 0 ∨ (s.build.params.M : Int) ≤ w1.toInt) ∧ w1.toInt = a1) ∧
    ∀ c ∈ ([(95233, 0), (-95233, 0), (-95232, 43), (95232, 43), (-95232, 0)] : List (Int × Int)),
      ∃ (s : State) (w0 w1 : Coeff), s.build.params.Ok ∧ s.txn.din = [] ∧ s.txn.cin = [w0, w1] ∧
        0 ≤ w1.toInt ∧ w1.toInt < s.build.params.M ∧ w0.toInt = c.1 ∧ w1.toInt = c.2 := by
  refine ⟨⟨boot Config.mldsa44, by decide, by decide⟩, ?_, ?_⟩
  · intro a ha
    refine ⟨withOps (boot Config.mldsa44) 0 [] [0, a], 0, BitVec.ofInt 32 a, ok_mldsa44, rfl, rfl, ?_⟩
    simp only [List.mem_cons, List.not_mem_nil, or_false] at ha
    rcases ha with rfl | rfl <;> decide
  · intro c hc
    refine ⟨withOps (boot Config.mldsa44) 0 [] [c.1, c.2], BitVec.ofInt 32 c.1, BitVec.ofInt 32 c.2, ok_mldsa44, rfl,
      rfl, ?_⟩
    simp only [List.mem_cons, List.not_mem_nil, or_false] at hc
    rcases hc with rfl | rfl | rfl | rfl | rfl <;> decide

/-- `HintMeaning`: `a0 = 3*GAMMA2` and `a0 = 4*GAMMA2` with `M = 44`, where the high part moves by 1 and by 2, and
`a0 = 0`, where it stays. -/
theorem witness_HintMeaning :
    ∀ c ∈ ([(285696, 95232, 1), (380928, 0, 2), (0, 0, 0)] : List (Int × Int × Int)),
      ∃ (s : State) (w0 w1 : Coeff), s.build.params.Ok ∧ s.txn.din = [] ∧ s.txn.cin = [w0, w1] ∧ 0 ≤ w1.toInt ∧
        w1.toInt < s.build.params.M ∧
        (|w0.toInt| ≤ 3 * s.build.params.GAMMA2 ∨ (3 ≤ s.build.params.M ∧ |w0.toInt| ≤ 4 * s.build.params.GAMMA2)) ∧
        Decomposes s.build.params
          ((w1.toInt * (2 * s.build.params.GAMMA2) + w0.toInt) % s.build.params.Q) c.2.1 c.2.2 := by
  intro c hc
  refine ⟨withOps (boot Config.mldsa44) 0 [] [c.1, 0], BitVec.ofInt 32 c.1, 0, ok_mldsa44, rfl, rfl, by decide,
    show (0 : Int) < Config.mldsa44.M by decide, ?_⟩
  simp only [List.mem_cons, List.not_mem_nil, or_false] at hc
  rcases hc with rfl | rfl | rfl
  · exact ⟨by decide, 95232, 1, by decide, by decide, by decide, .inr ⟨by decide, rfl, rfl⟩⟩
  · exact ⟨by decide, 0, 2, by decide, by decide, by decide, .inr ⟨by decide, rfl, rfl⟩⟩
  · exact ⟨by decide, 0, 0, by decide, by decide, by decide, .inr ⟨by decide, rfl, rfl⟩⟩

/-- `UseHintRule`: a wrong length, each way to be out of range, and both hints on the two ends of the range. -/
theorem witness_UseHintRule :
    (∃ s : State, s.build.params.Ok ∧ s.txn.cin.length ≠ 2) ∧
    (∀ c ∈ ([(-1, 1), (8380417, 0), (5, 2), (5, -1)] : List (Int × Int)), ∃ (s : State) (w h : Coeff),
      s.build.params.Ok ∧ s.txn.din = [] ∧ s.txn.cin = [w, h] ∧
      (w.toInt < 0 ∨ (s.build.params.Q : Int) ≤ w.toInt ∨ (h.toInt ≠ 0 ∧ h.toInt ≠ 1)) ∧ w.toInt = c.1) ∧
    ∀ c ∈ ([(0, 0), (0, 1), (8380416, 0), (8380416, 1)] : List (Int × Int)), ∃ (s : State) (w h : Coeff),
      s.build.params.Ok ∧ s.txn.din = [] ∧ s.txn.cin = [w, h] ∧ 0 ≤ w.toInt ∧ w.toInt < s.build.params.Q ∧
      (h.toInt = 0 ∨ h.toInt = 1) ∧ w.toInt = c.1 := by
  refine ⟨⟨boot Config.mldsa44, by decide, by decide⟩, ?_, ?_⟩
  · intro c hc
    refine ⟨withOps (boot Config.mldsa44) 0 [] [c.1, c.2], BitVec.ofInt 32 c.1, BitVec.ofInt 32 c.2, ok_mldsa44, rfl,
      rfl, ?_⟩
    simp only [List.mem_cons, List.not_mem_nil, or_false] at hc
    rcases hc with rfl | rfl | rfl | rfl <;> decide
  · intro c hc
    refine ⟨withOps (boot Config.mldsa44) 0 [] [c.1, c.2], BitVec.ofInt 32 c.1, BitVec.ofInt 32 c.2, ok_mldsa44, rfl,
      rfl, ?_⟩
    simp only [List.mem_cons, List.not_mem_nil, or_false] at hc
    rcases hc with rfl | rfl | rfl | rfl <;> decide

/-- `HintRoundTrip`: `r = 0` and `z = -GAMMA2`, where `r + z` wraps into the branch `r1 = M`. -/
theorem witness_HintRoundTrip :
    ∃ (s : State) (r z r0 r1 b0 b1 : Int), s.build.params.Ok ∧ 0 ≤ r ∧ r < s.build.params.Q ∧
      -(s.build.params.GAMMA2 : Int) ≤ z ∧ z ≤ s.build.params.GAMMA2 ∧ Decomposes s.build.params r r0 r1 ∧
      Decomposes s.build.params ((r + z) % s.build.params.Q) b0 b1 :=
  ⟨boot Config.mldsa44, 0, -95232, 0, 0, -95232, 0, by decide, by decide, by decide, by decide, by decide,
    ⟨0, 0, by decide, by decide, by decide, .inr ⟨by decide, rfl, rfl⟩⟩,
    ⟨-95231, 44, by decide, by decide, by decide, .inl ⟨by decide, by decide, rfl⟩⟩⟩

/-- `BitPacker`: the bytes of R224's kind, 4 fields of 10 bits, with both ends of the range. -/
theorem witness_BitPacker :
    (∃ (u : List Nat) (w : Nat), 1 ≤ w ∧ 8 ∣ u.length * w ∧ (∀ x ∈ u, x < 2 ^ w) ∧ u = [1023, 0, 512, 1] ∧ w = 10) ∧
    ∃ (b : List Byte) (w n : Nat), 1 ≤ w ∧ 8 * b.length = n * w ∧ b ≠ [] :=
  ⟨⟨[1023, 0, 512, 1], 10, by decide, by decide, by decide, rfl, rfl⟩,
    ⟨[1, 2, 3, 4, 5], 10, 4, by decide, by decide, by decide⟩⟩

theorem forall_mem_iff_all {c : List Coeff} {P : Coeff → Prop} [DecidablePred P] :
    (∀ w ∈ c, P w) ↔ c.all (fun w => decide (P w)) = true := by simp

theorem witness_PackPkRule :
    (∃ s : State, s.build.params.Ok ∧ s.txn.din.length ≠ s.build.params.SEEDBYTES) ∧
    (∃ s : State, s.build.params.Ok ∧ s.txn.din.length = s.build.params.SEEDBYTES ∧
      s.txn.cin.length = s.build.params.K * s.build.params.N ∧ ¬ Within 0 1023 s.txn.cin) ∧
    ∃ s : State, s.build.params.Ok ∧ s.txn.din.length = s.build.params.SEEDBYTES ∧
      s.txn.cin.length = s.build.params.K * s.build.params.N ∧ Within 0 1023 s.txn.cin := by
  refine ⟨⟨boot Config.toy, by decide, by decide⟩,
    ⟨withOps (boot Config.toy) 0 (zeros 4) (1024 :: List.replicate 15 0), by decide, by decide, by decide, ?_⟩,
    ⟨withOps (boot Config.toy) 0 (zeros 4) (1023 :: List.replicate 15 0), by decide, by decide, by decide, ?_⟩⟩ <;>
  · unfold Within; rw [forall_mem_iff_all]; decide +kernel

theorem witness_UnpackPkRule :
    (∃ s : State, s.build.params.Ok ∧ s.txn.din.length ≠ s.build.params.PKBYTES) ∧
    ∃ s : State, s.build.params.Ok ∧ s.txn.din.length = s.build.params.PKBYTES ∧ s.txn.cin = [] ∧
      ∃ u, HoldsField s.txn.din (s.build.params.SEEDBYTES + 1 * s.build.params.POLYT1BYTES) 10 7 u :=
  ⟨⟨boot Config.toy, by decide, by decide⟩,
    ⟨withOps (boot Config.toy) 0 pkBytes [], by decide, by decide, rfl, holdsField_exists _ _ _ _⟩⟩

theorem witness_PackSkRule :
    (∃ s : State, s.build.params.Ok ∧ s.txn.cin.length ≠ (2 * s.build.params.K + s.build.params.L) * s.build.params.N) ∧
    (∃ s : State, s.build.params.Ok ∧ s.txn.din.length = 2 * s.build.params.SEEDBYTES + s.build.params.TRBYTES ∧
      s.txn.cin.length = (2 * s.build.params.K + s.build.params.L) * s.build.params.N ∧
      ¬ SkBounds s.build.params s.txn.cin) ∧
    ∃ s : State, s.build.params.Ok ∧ s.txn.din.length = 2 * s.build.params.SEEDBYTES + s.build.params.TRBYTES ∧
      s.txn.cin.length = (2 * s.build.params.K + s.build.params.L) * s.build.params.N ∧
      SkBounds s.build.params s.txn.cin := by
  refine ⟨⟨boot Config.toy, by decide, by decide⟩,
    ⟨withOps (boot Config.toy) 0 skSeeds (-4096 :: skCoeffs.tail), by decide, by decide, by decide, ?_⟩,
    ⟨withOps (boot Config.toy) 0 skSeeds skCoeffs, by decide, by decide, by decide, ?_⟩⟩ <;>
  · unfold SkBounds Within; rw [forall_mem_iff_all, forall_mem_iff_all]; decide +kernel

/-- Every field of a buffer of zeros holds 0. -/
theorem holdsField_zeros (n off w j u : Nat) (h : HoldsField (zeros n) off w j u) : u = 0 := by
  have h0 : HoldsField (zeros n) off w j 0 := by
    refine ⟨Nat.two_pow_pos w, fun m _ => ?_⟩
    unfold bufferBit zeros
    rw [List.getD_eq_getElem?_getD, List.getElem?_replicate]
    split <;> simp
  exact holdsField_unique h h0

/-- `UnpackSkRule` and `UnpackSigRule`: the coefficient of every field of the three columns and of `TOY` crosses the port;
both ends. -/
theorem witness_OnPort :
    ∀ p ∈ [Config.mldsa44, Config.mldsa65, Config.mldsa87, Config.toy],
      OnPort (p.ETA - 0) ∧ OnPort (p.ETA - 2 * p.ETA) ∧ OnPort (p.GAMMA1 - 0) ∧
        OnPort (p.GAMMA1 - (2 ^ p.ZBITS - 1)) := by
  unfold OnPort; decide

/-- `UnpackSkRule`: a wrong length; the largest field in `s1`, in `s2`; no field above `2*ETA`. -/
theorem witness_UnpackSkRule :
    (∃ s : State, s.build.params.Ok ∧ s.txn.din.length ≠ s.build.params.SKBYTES) ∧
    (∃ (s : State) (o : SkOffsets), s.build.params.Ok ∧ o = skOffsets s.build.params s.build.skOrder ∧
      s.txn.din.length = s.build.params.SKBYTES ∧ s.txn.cin = [] ∧
      HoldsField s.txn.din (o.s1 + 0 * s.build.params.POLYETABYTES) s.build.params.ETABITS 0 7 ∧
      HoldsField s.txn.din (o.s2 + 1 * s.build.params.POLYETABYTES) s.build.params.ETABITS 7 7 ∧
      2 * s.build.params.ETA < 7) ∧
    ∃ (s : State) (o : SkOffsets), s.build.params.Ok ∧ o = skOffsets s.build.params s.build.skOrder ∧
      s.txn.din.length = s.build.params.SKBYTES ∧ s.txn.cin = [] ∧
      (∀ i j u, i < s.build.params.L → j < s.build.params.N →
        HoldsField s.txn.din (o.s1 + i * s.build.params.POLYETABYTES) s.build.params.ETABITS j u →
        u ≤ 2 * s.build.params.ETA) ∧
      ∀ i j u, i < s.build.params.K → j < s.build.params.N →
        HoldsField s.txn.din (o.s2 + i * s.build.params.POLYETABYTES) s.build.params.ETABITS j u →
        u ≤ 2 * s.build.params.ETA := by
  refine ⟨⟨boot Config.toy, by decide, by decide⟩,
    ⟨withOps (boot Config.toy) 0 (List.replicate 51 0xFF) [], _, by decide, rfl, by decide, rfl, ?_, ?_, by decide⟩,
    ⟨withOps (boot Config.toy) 0 (zeros 51) [], _, by decide, rfl, by decide, rfl, ?_, ?_⟩⟩
  · unfold HoldsField; decide
  · unfold HoldsField; decide
  · intro i j u _ _ h
    rw [holdsField_zeros _ _ _ _ _ h]
    exact Nat.zero_le _
  · intro i j u _ _ h
    rw [holdsField_zeros _ _ _ _ _ h]
    exact Nat.zero_le _

theorem witness_PackSigRule :
    (∃ s : State, s.build.params.Ok ∧ s.txn.din.length ≠ s.build.params.CTILDEBYTES) ∧
    (∃ s : State, s.build.params.Ok ∧ s.txn.din.length = s.build.params.CTILDEBYTES ∧
      s.txn.cin.length = (s.build.params.L + s.build.params.K) * s.build.params.N ∧
      ¬ SigBounds s.build.params s.txn.cin) ∧
    ∃ s : State, s.build.params.Ok ∧ s.txn.din.length = s.build.params.CTILDEBYTES ∧
      s.txn.cin.length = (s.build.params.L + s.build.params.K) * s.build.params.N ∧
      SigBounds s.build.params s.txn.cin ∧
      (s.txn.cin.drop (s.build.params.L * s.build.params.N)).count 1 = s.build.params.OMEGA := by
  refine ⟨⟨boot Config.toy, by decide, by decide⟩,
    ⟨withOps (boot Config.toy) 0 (zeros 4) (131073 :: List.replicate 23 0), by decide, by decide, by decide, ?_⟩,
    ⟨withOps (boot Config.toy) 0 (zeros 4) sigCoeffs, by decide, by decide, by decide, ?_, by decide⟩⟩ <;>
  · unfold SigBounds Within; rw [forall_mem_iff_all, forall_mem_iff_all]; decide +kernel

/-- `UnpackSigRule`: a wrong length, a section that breaks a check, and one that breaks none. -/
theorem witness_UnpackSigRule :
    (∃ s : State, s.build.params.Ok ∧ s.txn.din.length ≠ s.build.params.SIGBYTES) ∧
    (∃ s : State, s.build.params.Ok ∧ s.txn.din.length = s.build.params.SIGBYTES ∧ s.txn.cin = [] ∧
      ¬ HintWellFormed s.build.params s.txn.din) ∧
    ∃ s : State, s.build.params.Ok ∧ s.txn.din.length = s.build.params.SIGBYTES ∧ s.txn.cin = [] ∧
      HintWellFormed s.build.params s.txn.din := by
  refine ⟨⟨boot Config.toy, by decide, by decide⟩,
    ⟨withOps (boot Config.toy) 0 (List.replicate 27 0xFF) [], by decide, by decide, rfl, ?_⟩,
    ⟨withOps (boot Config.toy) 0 (zeros 27) [], by decide, by decide, rfl, ?_⟩⟩
  · intro h
    exact absurd (h.1 0 (by decide)).2.1 (by decide)
  · have hz : ∀ m, hintByte Config.toy (zeros 27) m = 0 := by
      intro m
      unfold hintByte zeros
      rw [List.getD_eq_getElem?_getD, List.getElem?_replicate]
      split <;> rfl
    have hc : ∀ i, countBefore Config.toy (zeros 27) i = 0 := by
      intro i
      cases i
      · rfl
      · exact hz _
    show HintWellFormed Config.toy (zeros 27)
    refine ⟨fun i _ => ?_, fun j _ _ => hz j⟩
    rw [hc, hc]
    exact ⟨le_rfl, Nat.zero_le _, fun j _ h => absurd h (Nat.not_lt_zero j), fun j _ h => absurd h (Nat.not_lt_zero j)⟩

theorem witness_PackThenUnpack :
    (∃ (s t : State) (r : Response), exec .packPk s = .next t ∧ t.response = some r ∧ r.status = .ok) ∧
    (∃ (s t : State) (r : Response), exec .packSk s = .next t ∧ t.response = some r ∧ r.status = .ok) ∧
    ∃ (s t : State) (r : Response), exec .packSig s = .next t ∧ t.response = some r ∧ r.status = .ok :=
  ⟨⟨withOps (boot Config.toy) 0 (zeros 4) pkCoeffs, ended_status (by decide +kernel)⟩,
    ⟨withOps (boot Config.toy) 0 skSeeds skCoeffs, ended_status (by decide +kernel)⟩,
    ⟨withOps (boot Config.toy) 0 (zeros 4) sigCoeffs, ended_status (by decide +kernel)⟩⟩

/-- `UnpackThenPack`, `UnpackedWithinBounds`. -/
theorem witness_UnpackThenPack :
    (∀ i : Instr, ∀ p ∈ [Config.toy, Config.mldsa44, Config.mldsa65, Config.mldsa87], FitsPort p i) ∧
    FitsPort { Config.toy with ETA := 2 ^ 40, GAMMA1 := 2 ^ 40 } .unpackPk ∧
    (∃ t r, exec .unpackPk (withOps (boot Config.toy) 0 pkBytes []) = .next t ∧ t.response = some r ∧
      r.status = .ok) ∧
    (∃ t r, exec .unpackSk (withOps (boot Config.toy) 0 skBytes []) = .next t ∧ t.response = some r ∧
      r.status = .ok) ∧
    ∃ t r, exec .unpackSig (withOps (boot Config.toy) 0 sigBytes []) = .next t ∧ t.response = some r ∧
      r.status = .ok := by
  refine ⟨?_, ⟨fun h => absurd h (by decide), fun h => absurd h (by decide)⟩, ended_status (by decide +kernel),
    ended_status (by decide +kernel), ended_status (by decide +kernel)⟩
  intro i p hp
  simp only [List.mem_cons, List.not_mem_nil, or_false] at hp
  rcases hp with rfl | rfl | rfl | rfl <;> exact ⟨fun _ => by decide, fun _ => by decide⟩

theorem witness_UnpackedWithinBounds :
    (∃ (s t : State) (r : Response), exec .unpackPk s = .next t ∧ t.response = some r ∧ r.status = .ok) ∧
    (∃ (s t : State) (r : Response), FitsPort s.build.params .unpackSk ∧ exec .unpackSk s = .next t ∧
      t.response = some r ∧ r.status = .ok) ∧
    ∃ (s t : State) (r : Response), FitsPort s.build.params .unpackSig ∧ exec .unpackSig s = .next t ∧
      t.response = some r ∧ r.status = .ok := by
  obtain ⟨h0, -, ⟨t, r, h⟩, ⟨t', r', h'⟩, ⟨t'', r'', h''⟩⟩ := witness_UnpackThenPack
  exact ⟨⟨_, t, r, h⟩, ⟨withOps (boot Config.toy) 0 skBytes [], t', r', h0 _ Config.toy (by simp), h'⟩,
    ⟨withOps (boot Config.toy) 0 sigBytes [], t'', r'', h0 _ Config.toy (by simp), h''⟩⟩

end Sys2Proof.Tests
end

section
/-! SUPPORT. The end of a command and of a step, and the proofs about reset, the frame of a command and the bit `FAULT`
(`spec/10_state.md` R27, R35, R36). -/

namespace Sys2Proof.Machine

/-! ### `FAULT` by the status (R27) -/

@[simp] theorem faultAfter_ok (fault : Bool) : faultAfter fault .ok = fault := Bool.or_false fault

@[simp] theorem faultAfter_of_set (st : Status) : faultAfter true st = true := Bool.true_or _

theorem faultAfter_of_ne {fault : Bool} {st : Status} (hok : st ≠ .ok) (hm : st ≠ .failed .malformed) :
    faultAfter fault st = true := by
  cases st with
  | ok => exact absurd rfl hok
  | failed f => exact faultAfter_of_fault fault f fun h => hm (congrArg Status.failed h)

theorem faultAfter_of_ok_or_malformed {fault : Bool} {st : Status} (h : st = .ok ∨ st = .failed .malformed) :
    faultAfter fault st = fault := by
  rcases h with rfl | rfl
  · exact faultAfter_ok fault
  · exact faultAfter_malformed fault

/-! ### The end of a command, whichever way it ends -/

theorem respond_fault {s : State} {x : Except Failure Effect} {r : Response} (h : (s.respond x).response = some r) :
    (s.respond x).fault = faultAfter s.fault r.status := by
  cases x with
  | ok e =>
    obtain rfl := Option.some.inj h
    exact (faultAfter_ok s.fault).symm
  | error f =>
    obtain rfl := Option.some.inj h
    exact s.raise_fault f

theorem respond_ctx_of_failed {s : State} {x : Except Failure Effect} {r : Response}
    (h : (s.respond x).response = some r) (hne : r.status ≠ .ok) : (s.respond x).ctx = s.ctx := by
  cases x with
  | ok e =>
    obtain rfl := Option.some.inj h
    exact absurd rfl hne
  | error f => exact s.raise_ctx f

theorem respond_fault_of_set {s : State} (x : Except Failure Effect) (h : s.fault = true) :
    (s.respond x).fault = true := by
  cases x with
  | ok e => exact h
  | error f => exact (s.raise_fault f).trans (h ▸ faultAfter_of_set _)

theorem guarded_next_respond {s t : State} {x : Except Failure Effect} (h : s.guarded x = .next t) :
    t = s.respond x := by
  obtain ⟨-, ⟨e, rfl, rfl⟩ | ⟨f, rfl, rfl⟩⟩ := guarded_next h <;> rfl

theorem exec_next_respond {i : Instr} {s t : State} (h : exec i s = .next t) : ∃ x, t = s.respond x :=
  ⟨_, guarded_next_respond (exec_eq_perform i s ▸ h)⟩

/-- R35 (a): a stateless command leaves the context alone, whether it succeeds or fails. -/
theorem exec_ctx_of_stateless {i : Instr} {s t : State} (hi : i.stateless = true) (h : exec i s = .next t) :
    t.ctx = s.ctx := by
  obtain ⟨-, ⟨f, -, rfl⟩ | ⟨-, f, -, rfl⟩ | ⟨hc, e, he, rfl⟩⟩ := exec_cases h
  · exact s.raise_ctx f
  · exact s.raise_ctx f
  · exact (rule_ok_ctx hc he).trans (ctxAfter_of_stateless s hi)

/-! ### The end of a step -/

/-- Everything a step that answers can do: nothing, a reset, or a transaction, which ends as a command ends even when
its word is illegal. -/
theorem step_next {s t : State} (h : step s = .next t) :
    (s.pending = [] ∧ t = s) ∨ (∃ rest, s.pending = .reset :: rest ∧ t = s.applyReset rest) ∨
      ∃ c rest x, s.pending = .command c :: rest ∧ t = (s.begin c rest).respond x := by
  obtain ⟨hp, hs⟩ | ⟨rest, hp, hs⟩ | ⟨c, rest, i, hp, -, hs⟩ | ⟨c, rest, -, hp, -, hs⟩ := step_cases s
  all_goals rw [hs] at h
  · exact .inl ⟨hp, by cases h; rfl⟩
  · exact .inr (.inl ⟨rest, hp, by cases h; rfl⟩)
  · obtain ⟨x, hx⟩ := exec_next_respond h
    exact .inr (.inr ⟨c, rest, x, hp, hx⟩)
  · exact .inr (.inr ⟨c, rest, .error .errOpcode, hp, guarded_next_respond h⟩)

theorem step_of_reset {s : State} {rest : List HostEvent} (h : s.pending = .reset :: rest) :
    step s = .next (s.applyReset rest) := by
  rw [step, h]

theorem step_fault_of_response {s t : State} {c : Transaction} {rest : List HostEvent} {r : Response}
    (hp : s.pending = .command c :: rest) (h : step s = .next t) (hr : t.response = some r) :
    t.fault = faultAfter s.fault r.status := by
  obtain ⟨hq, -⟩ | ⟨rest', hq, -⟩ | ⟨c', rest', x, -, rfl⟩ := step_next h
  · cases hp.symm.trans hq
  · cases hp.symm.trans hq
  · exact respond_fault hr

/-- R27: only a reset clears `FAULT`. -/
theorem step_fault_of_set {s t : State} (hp : s.pending.head? ≠ some .reset) (h : step s = .next t)
    (hs : s.fault = true) : t.fault = true := by
  obtain ⟨-, rfl⟩ | ⟨rest, hq, -⟩ | ⟨c, rest, x, -, rfl⟩ := step_next h
  · exact hs
  · exact absurd (congrArg List.head? hq) hp
  · exact respond_fault_of_set x hs

/-! ### The obligations -/

/-- Settles O10: a stateless command keeps the context, and the status of the response decides the rest. -/
theorem frameRule : Obligations.FrameRule := by
  intro i s t r h hr
  have hstateless := fun hi => exec_ctx_of_stateless (i := i) hi h
  obtain ⟨x, rfl⟩ := exec_next_respond h
  have hfault := respond_fault hr
  exact ⟨hstateless, respond_ctx_of_failed hr, fun hok hm => hfault.trans (faultAfter_of_ne hok hm),
    fun hst => hfault.trans (faultAfter_of_ok_or_malformed hst)⟩

/-- Settles O11: the status of the response decides `FAULT`, no end of a command clears it, and a reset does. -/
theorem faultBitRule : Obligations.FaultBitRule := by
  refine ⟨fun s t c rest r hp h hr => ?_, fun s t => step_fault_of_set, fun s t rest hp h => ?_⟩
  · have hfault := step_fault_of_response hp h hr
    refine ⟨fun hst => hfault.trans ?_, fun hst => hfault.trans (faultAfter_of_ok_or_malformed hst)⟩
    rcases hst with hst | hst | hst | hst | hst <;>
      exact hst ▸ faultAfter_of_fault s.fault _ (by decide)
  · cases (step_of_reset hp).symm.trans h
    exact s.applyReset_fault rest

/-- Settles O6: `State.reset` and the reset input both leave `Context.empty` and `FAULT = 0`. -/
theorem resetValues : Obligations.ResetValues :=
  ⟨fun i => Vector.getElem_replicate i.isLt, rfl, rfl, rfl, rfl, fun s rest hp =>
    ⟨s.applyReset rest, step_of_reset hp, s.applyReset_ctx rest, s.applyReset_fault rest⟩⟩

end Sys2Proof.Machine
end

section
/-! SUPPORT. The decoder against the opcode map, the illegal words, the length table and the status read
(`spec/30_encoding.md` R83, R84, R87, R88). -/

namespace Sys2Proof

open Sys2Proof.Claims

/-! ### The decoder by the fields `OPC` and `ALG` (R82, R83) -/

theorem decode_encode (i : Instr) : decode (encode i) = .ok i := by cases i <;> rfl

theorem decode_of_reserved {w : CmdWord} (h : zeroField w ≠ 0) : decode w = .error .reservedBits := if_neg h

theorem decode_of_fields {w : CmdWord} (h : zeroField w = 0) : decode w = decodeFields (opcField w) (algField w) :=
  if_pos h

theorem decodePlain_eq_ok {alg : BitVec 2} {i j : Instr} (h : decodePlain alg i = .ok j) : alg = 0 ∧ i = j := by
  unfold decodePlain at h
  split at h
  · next halg => exact ⟨halg, Except.ok.inj h⟩
  · cases h

theorem decodePlain_error_iff (alg : BitVec 2) (i : Instr) : (∃ e, decodePlain alg i = .error e) ↔ alg ≠ 0 := by
  unfold decodePlain
  split
  · next h => exact iff_of_false nofun (not_not_intro h)
  · next h => exact iff_of_true ⟨_, rfl⟩ h

theorem decodeXof_eq_ok {alg : BitVec 2} {i128 i256 j : Instr} (h : decodeXof alg i128 i256 = .ok j) :
    alg = 0 ∧ i128 = j ∨ alg = 1 ∧ i256 = j := by
  unfold decodeXof at h
  split at h
  · next halg => exact .inl ⟨halg, Except.ok.inj h⟩
  · split at h
    · next halg => exact .inr ⟨halg, Except.ok.inj h⟩
    · cases h

theorem alg_field_cases : ∀ alg : BitVec 2, alg = 0 ∨ alg = 1 ∨ alg = 2 ∨ alg = 3 := by decide

theorem decodeXof_error_iff (alg : BitVec 2) (i128 i256 : Instr) :
    (∃ e, decodeXof alg i128 i256 = .error e) ↔ alg = 2 ∨ alg = 3 := by
  obtain rfl | rfl | rfl | rfl := alg_field_cases alg <;> simp [decodeXof]

theorem decodeFields_of_unknown {opc : BitVec 8} (alg : BitVec 2) (h : opc ∉ opcodes) :
    decodeFields opc alg = .error .unknownOpcode := by
  simp only [opcodes, List.mem_cons, List.not_mem_nil, or_false, not_or] at h
  simp only [decodeFields, h, if_false]

/-- Every listed `OPC` but 0x10, 0x13 and 0x20 stands for one command, whose `ALG` must be 0 (R81). -/
theorem decodeFields_of_plain {opc : BitVec 8} (h : opc ∈ opcodes) (h10 : opc ≠ 0x10) (h13 : opc ≠ 0x13)
    (h20 : opc ≠ 0x20) :
    ∃ i, encode i = 0#22 ++ (0#2 ++ opc) ∧ ∀ alg, decodeFields opc alg = decodePlain alg i := by
  simp only [opcodes, List.mem_cons, List.not_mem_nil, or_false] at h
  rcases h with rfl | rfl | rfl | rfl | rfl | rfl | rfl | rfl | rfl | rfl | rfl | rfl | rfl | rfl | rfl | rfl | rfl |
    rfl | rfl | rfl
  · exact ⟨.permute, rfl, fun _ => rfl⟩
  · exact ⟨.rdstat, rfl, fun _ => rfl⟩
  · exact absurd rfl h10
  · exact ⟨.absorb, rfl, fun _ => rfl⟩
  · exact ⟨.finalize, rfl, fun _ => rfl⟩
  · exact absurd rfl h13
  · exact ⟨.squeeze, rfl, fun _ => rfl⟩
  · exact ⟨.squeezeblocks, rfl, fun _ => rfl⟩
  · exact ⟨.release, rfl, fun _ => rfl⟩
  · exact absurd rfl h20
  · exact ⟨.power2round, rfl, fun _ => rfl⟩
  · exact ⟨.decompose, rfl, fun _ => rfl⟩
  · exact ⟨.makeHint, rfl, fun _ => rfl⟩
  · exact ⟨.useHint, rfl, fun _ => rfl⟩
  · exact ⟨.packPk, rfl, fun _ => rfl⟩
  · exact ⟨.unpackPk, rfl, fun _ => rfl⟩
  · exact ⟨.packSk, rfl, fun _ => rfl⟩
  · exact ⟨.unpackSk, rfl, fun _ => rfl⟩
  · exact ⟨.packSig, rfl, fun _ => rfl⟩
  · exact ⟨.unpackSig, rfl, fun _ => rfl⟩

/-- The fields of a command that decodes, put back together with `ZERO = 0`, are its word of R83. -/
theorem encode_of_decodeFields {opc : BitVec 8} {alg : BitVec 2} {i : Instr} (h : decodeFields opc alg = .ok i) :
    encode i = 0#22 ++ (alg ++ opc) := by
  by_cases hmem : opc ∈ opcodes
  swap
  · cases (decodeFields_of_unknown alg hmem).symm.trans h
  by_cases h10 : opc = 0x10
  · subst h10
    obtain ⟨rfl, rfl⟩ | ⟨rfl, rfl⟩ := decodeXof_eq_ok h <;> rfl
  by_cases h13 : opc = 0x13
  · subst h13
    obtain ⟨rfl, rfl⟩ | ⟨rfl, rfl⟩ := decodeXof_eq_ok h <;> rfl
  by_cases h20 : opc = 0x20
  · subst h20
    obtain rfl : decodeOneShot alg = i := Except.ok.inj h
    obtain rfl | rfl | rfl | rfl := alg_field_cases alg <;> rfl
  obtain ⟨j, hj, hplain⟩ := decodeFields_of_plain hmem h10 h13 h20
  obtain ⟨rfl, rfl⟩ := decodePlain_eq_ok ((hplain alg).symm.trans h)
  exact hj

theorem decode_eq_ok_iff (w : CmdWord) (i : Instr) : decode w = .ok i ↔ encode i = w := by
  refine ⟨fun h => ?_, fun h => h ▸ decode_encode i⟩
  by_cases hz : zeroField w = 0
  · rw [decode_of_fields hz] at h
    calc encode i = 0#22 ++ (algField w ++ opcField w) := encode_of_decodeFields h
      _ = zeroField w ++ (algField w ++ opcField w) := by rw [hz]; rfl
      _ = w := word_of_fields w
  · cases (decode_of_reserved hz).symm.trans h

theorem decode_error_iff (w : CmdWord) : (∃ e, decode w = .error e) ↔ ∀ i, decode w ≠ .ok i := by
  cases decode w <;> simp

/-! ### The opcode map (R83) -/

theorem Instr.mem_all (i : Instr) : i ∈ Instr.all := by cases i <;> decide

theorem opcodeMap_eq_map_encode : opcodeMap = Instr.all.map fun i => (encode i, i) := rfl

theorem mem_opcodeMap_iff (w : CmdWord) (i : Instr) : (w, i) ∈ opcodeMap ↔ encode i = w := by
  rw [opcodeMap_eq_map_encode]
  simp [Instr.mem_all]

theorem decode_eq_ok_iff_mem_opcodeMap (w : CmdWord) (i : Instr) : decode w = .ok i ↔ (w, i) ∈ opcodeMap :=
  (decode_eq_ok_iff w i).trans (mem_opcodeMap_iff w i).symm

/-! ### Illegal words (R87) -/

/-- The classes of R87 that speak of `OPC` and `ALG`. -/
theorem decodeFields_error_iff (opc : BitVec 8) (alg : BitVec 2) : (∃ e, decodeFields opc alg = .error e) ↔
    (alg ≠ 0 ∧ opc ≠ 0x10 ∧ opc ≠ 0x13 ∧ opc ≠ 0x20) ∨
    ((alg = 2 ∨ alg = 3) ∧ (opc = 0x10 ∨ opc = 0x13)) ∨ opc ∉ opcodes := by
  by_cases hmem : opc ∈ opcodes
  swap
  · exact iff_of_true ⟨_, decodeFields_of_unknown alg hmem⟩ (.inr (.inr hmem))
  by_cases h10 : opc = 0x10
  · have hxof : decodeFields opc alg = decodeXof alg .initShake128 .initShake256 := h10 ▸ rfl
    rw [hxof, decodeXof_error_iff]
    tauto
  by_cases h13 : opc = 0x13
  · have hxof : decodeFields opc alg = decodeXof alg .absorbOnceShake128 .absorbOnceShake256 := h13 ▸ rfl
    rw [hxof, decodeXof_error_iff]
    tauto
  by_cases h20 : opc = 0x20
  · have hok : decodeFields opc alg = .ok (decodeOneShot alg) := h20 ▸ rfl
    rw [hok]
    exact iff_of_false nofun (by tauto)
  obtain ⟨i, -, hplain⟩ := decodeFields_of_plain hmem h10 h13 h20
  rw [hplain, decodePlain_error_iff]
  tauto

theorem decode_error_iff_fields (w : CmdWord) : (∃ e, decode w = .error e) ↔
    zeroField w ≠ 0 ∨ ∃ e, decodeFields (opcField w) (algField w) = .error e := by
  by_cases hz : zeroField w = 0
  · rw [decode_of_fields hz]
    exact (or_iff_right (not_not_intro hz)).symm
  · exact iff_of_true ⟨_, decode_of_reserved hz⟩ (.inl hz)

end Sys2Proof

namespace Sys2Proof.Machine

open Sys2Proof.Claims

theorem step_of_illegal {s : State} {t : Transaction} {rest : List HostEvent} {e : IllegalWord}
    (hok : s.build.params.Ok) (hp : s.pending = .command t :: rest) (hd : decode t.cmd = .error e) :
    step s = .next ((s.begin t rest).raise .errOpcode) := by
  have hs : step s = (s.begin t rest).performIllegal := by simp only [step, hp, hd]
  exact hs.trans (performIllegal_of_ok _ hok)

/-! ### An unused `ARG` (R84) -/

/-- `s` with `ARG = n` in the transaction being performed. -/
def State.withArg (s : State) (n : Nat) : State := { s with txn := { s.txn with arg := n } }

@[simp] theorem precheck_withArg (s : State) (n : Nat) (i : Instr) : (s.withArg n).precheck i = s.precheck i := rfl

theorem respond_withArg (s : State) (n : Nat) (x : Except Failure Effect) :
    (s.withArg n).respond x = (s.respond x).withArg n := by
  cases x <;> rfl

theorem ruleOf_withArg {i : Instr} (hi : i ∉ [Instr.squeeze, .squeezeblocks, .shake128, .shake256]) (s : State)
    (n : Nat) : ruleOf i (s.withArg n) = ruleOf i s := by
  cases i with
  | squeeze | squeezeblocks | shake128 | shake256 => exact absurd (by decide) hi
  | _ => rfl

theorem exec_withArg {i : Instr} (hi : i ∉ [Instr.squeeze, .squeezeblocks, .shake128, .shake256]) {s t : State}
    (n : Nat) (h : exec i s = .next t) : exec i (s.withArg n) = .next (t.withArg n) := by
  rw [exec_eq_perform, State.perform] at h ⊢
  rw [precheck_withArg, ruleOf_withArg hi, guarded_next_respond h, ← respond_withArg]
  exact guarded_of_ok _ _ (guarded_next h).1

/-! ### Lengths (R84, R298) -/

/-- A command that answers `OK` passed its checks, and delivers what its rule does. -/
theorem exec_next_ok {i : Instr} {s t : State} {r : Response} (h : exec i s = .next t) (hr : t.response = some r)
    (hst : r.status = .ok) :
    s.precheck i = none ∧ ∃ e, ruleOf i s = .ok e ∧ r = { status := .ok, dout := e.dout, cout := e.cout } := by
  obtain ⟨-, ⟨f, -, rfl⟩ | ⟨-, f, -, rfl⟩ | ⟨hc, e, he, rfl⟩⟩ := exec_cases h
  · cases hr; cases hst
  · cases hr; cases hst
  · exact ⟨hc, e, he, (Option.some.inj hr).symm⟩

theorem exec_ok_lengths {i : Instr} {s t : State} {r : Response} (h : exec i s = .next t)
    (hr : t.response = some r) (hst : r.status = .ok) :
    r.dout.length = (i.lengthRow s.build.params s.ctx.alg.rate s.txn.arg).dout ∧
    r.cout.length = (i.lengthRow s.build.params s.ctx.alg.rate s.txn.arg).cout := by
  obtain ⟨hc, e, he, rfl⟩ := exec_next_ok h hr hst
  exact rule_ok_lengths hc he

/-! ### What the invariant says of `POS` and `ALG` (R25) -/

theorem Context.Inv.pos_le_rate {c : Context} (h : c.Inv) : c.pos ≤ c.alg.rate := by
  unfold Context.Inv at h
  split at h
  · exact h.1 ▸ Nat.zero_le _
  · exact h.1.le
  · exact h.1.le
  · exact h.2.1

theorem Context.Inv.isXof {c : Context} (h : c.Inv) : c.alg.isXof = true := by
  unfold Context.Inv at h
  split at h
  · exact h.2.2 ▸ rfl
  · exact h.2
  · exact h.2
  · exact h.2.2

theorem Alg.eq_shake_of_isXof {a : Alg} (h : a.isXof = true) : a = .shake128 ∨ a = .shake256 := by
  cases a with
  | shake128 => exact .inl rfl
  | shake256 => exact .inr rfl
  | sha3_256 | sha3_512 => cases h

/-! ### `RDSTAT` (R88) -/

theorem answers_rdstat {s : State} (hok : s.build.params.Ok) (hdin : s.txn.din = []) (hcin : s.txn.cin = []) :
    Answers .rdstat s s.ctx
      [s.ctx.phase.code, BitVec.ofNat 8 s.ctx.pos, s.ctx.alg.code, faultByte s.fault] [] :=
  answers_of (i := .rdstat) hok rfl nofun (fun _ hn => Option.some.inj hn ▸ congrArg List.length hdin)
    (congrArg List.length hcin) rfl

theorem faults_rdstat {s : State} (hok : s.build.params.Ok) (h : s.txn.din ≠ [] ∨ s.txn.cin ≠ []) :
    Faults .rdstat s .errLength :=
  faults_of_length hok rfl nofun (h.imp (fun hdin => ⟨0, rfl, mt List.length_eq_zero_iff.mp hdin⟩)
    (mt List.length_eq_zero_iff.mp))

end Sys2Proof.Machine

namespace Sys2Proof.Settled

open Sys2Proof.Machine Sys2Proof.Claims

/-- Settles O2: a word decodes to the command whose `match` value it is, and R83's table lists each command beside its
`match` value. -/
theorem opcodeMap : Obligations.OpcodeMap := by
  refine ⟨decode_eq_ok_iff_mem_opcodeMap, fun w => ?_, rfl, fun i => ⟨encode i, (mem_opcodeMap_iff _ i).mpr rfl⟩⟩
  rw [decode_error_iff]
  exact forall_congr' fun i => not_congr (decode_eq_ok_iff_mem_opcodeMap w i)

/-- Settles O4: the classes of illegal words are read off the fields, and a step on any of them is `raise ERR_OPCODE`. -/
theorem illegalWords : Obligations.IllegalWords := by
  refine ⟨fun w => (decode_error_iff_fields w).trans (or_congr Iff.rfl (decodeFields_error_iff _ _)),
    ⟨.unknownOpcode, rfl⟩, fun s t rest e hok hp hd => ?_⟩
  rw [step_of_illegal hok hp hd, raise_of_fault _ _ (by decide)]
  rfl

/-- Settles O16: the checks of the machine and the results of its rules have the lengths of R84's table, and only the
rules of `SQUEEZE`, `SQUEEZEBLOCKS`, `SHAKE128` and `SHAKE256` read `ARG`. -/
theorem lengthTable : Obligations.LengthTable := by
  refine ⟨fun i s t n hi h => exec_withArg hi n h, fun i s hok hphase hcursor =>
    ⟨fun hlen => ?_, fun t r h hr hst => exec_ok_lengths h hr hst⟩⟩
  rw [lengthRow_din, lengthRow_cin] at hlen
  exact faults_of_length hok ((allowedIn_iff_phaseEntry i _).mpr hphase)
    (fun hc => hcursor ((needsFullCursor_iff i).mp hc)) hlen

/-- Settles O20: `RDSTAT` demands empty operands, and R25's table makes `POS` a byte and `ALG` one of the two XOFs. -/
theorem rdstatRule : Obligations.RdstatRule := by
  refine ⟨decode_encode .rdstat, fun s hok => ⟨faults_rdstat hok, fun hdin hcin hinv =>
    ⟨_, _, _, _, answers_rdstat hok hdin hcin, ?_, ?_, ?_, rfl⟩⟩⟩
  · cases s.ctx.phase <;> rfl
  · have hpos := hinv.pos_le_rate
    have hrate := s.ctx.alg.rate_le
    exact (BitVec.toNat_ofNat _ _).trans (Nat.mod_eq_of_lt (by omega))
  · exact (Alg.eq_shake_of_isXof hinv.isXof).imp (fun h => ⟨h, by rw [h]; rfl⟩) fun h => ⟨h, by rw [h]; rfl⟩

end Sys2Proof.Settled
end

section
/-! SUPPORT. `PERMUTE` and the permutation core: the lanes and bytes of R54 as numbers, the step mappings, and the proofs
about them (`spec/40_permutation.md` R120 to R129). -/

namespace Sys2Proof.Machine

open Sys2Proof.Claims

/-! ### Lanes and bytes as numbers (R50, R54) -/

/-- The positional number of R222 as the sum the spec writes. Fields past the end count as 0. -/
theorem ofFields_eq_sum (w n : Nat) (u : List Nat) (h : u.length ≤ n) :
    ofFields w u = ∑ k ∈ Finset.range n, u.getD k 0 * 2 ^ (w * k) := by
  induction u generalizing n with
  | nil => simp [ofFields]
  | cons x u ih =>
    cases n with
    | zero => exact absurd h (Nat.not_succ_le_zero _)
    | succ m =>
      have hshift : ∀ k, (x :: u).getD (k + 1) 0 * 2 ^ (w * (k + 1)) = 2 ^ w * (u.getD k 0 * 2 ^ (w * k)) := fun k => by
        rw [List.getD_cons_succ, Nat.mul_succ, pow_add]
        ring
      rw [ofFields, ih m (Nat.le_of_succ_le_succ h), Finset.sum_range_succ', Finset.mul_sum, Nat.add_comm]
      simp only [hshift, List.getD_cons_zero, Nat.mul_zero, pow_zero, Nat.mul_one]

theorem toNat_lanesOfBytes (b : List Byte) (j : Fin 25) :
    (lanesOfBytes b)[j].toNat = ∑ k ∈ Finset.range 8, (b.getD (8 * j.val + k) 0).toNat * 2 ^ (8 * k) := by
  have hlen : (byteVals (slice b (8 * j.val) 8)).length ≤ 8 := by
    rw [length_byteVals, length_slice]
    exact min_le_left _ _
  have hlt : ofFields 8 (byteVals (slice b (8 * j.val) 8)) < 2 ^ 64 :=
    (ofFields_lt 8 _ (byteVals_lt _)).trans_le (Nat.pow_le_pow_right (by decide) (Nat.mul_le_mul_left 8 hlen))
  have hlane : (lanesOfBytes b)[j] = BitVec.ofNat 64 (ofFields 8 (byteVals (slice b (8 * j.val) 8))) :=
    Vector.getElem_ofFn j.isLt
  rw [hlane, BitVec.toNat_ofNat, Nat.mod_eq_of_lt hlt, ofFields_eq_sum 8 8 _ hlen]
  refine Finset.sum_congr rfl fun k hk => ?_
  rw [getD_byteVals, getD_slice _ _ _ _ _ (Finset.mem_range.mp hk)]

theorem toNat_memRead (a : Lanes) (j : Fin 25) (k : Nat) (hk : k < 8) :
    (memRead a (8 * j.val + k)).toNat = a[j].toNat / 2 ^ (8 * k) % 256 := by
  have hdiv : (8 * j.val + k) / 8 = j.val := by omega
  have hmod : (8 * j.val + k) % 8 = k := by omega
  simp only [memRead, hdiv, hmod, j.isLt, dite_true, BitVec.extractLsb'_toNat, Nat.shiftRight_eq_div_pow]
  rfl

theorem getD_stateBytes (n : Nat) (a : Lanes) (k : Nat) (hk : k < n) : (stateBytes n a).getD k 0 = memRead a k := by
  rw [List.getD_eq_getElem?_getD, getElem?_stateBytes n a k hk, Option.getD_some]

/-! ### `PERMUTE` (R128) -/

theorem answers_permute {s : State} (hok : s.build.params.Ok) (hdin : s.txn.din.length = 200) (hcin : s.txn.cin = []) :
    Answers .permute s s.ctx (stateBytes 200 (keccakF (lanesOfBytes s.txn.din))) [] :=
  answers_of (i := .permute) hok rfl nofun (fun _ hn => Option.some.inj hn ▸ hdin) (congrArg List.length hcin) rfl

theorem faults_permute {s : State} (hok : s.build.params.Ok) (h : s.txn.din.length ≠ 200 ∨ s.txn.cin ≠ []) :
    Faults .permute s .errLength :=
  faults_of_length hok rfl nofun (h.imp (fun hdin => ⟨200, rfl, hdin⟩) (mt List.length_eq_zero_iff.mp))

/-! ### The step mappings and the rounds (R120, R123, R126) -/

/-- The rotation offsets by flat lane index are the table of R123. -/
theorem rhoOffsets_eq_rhoTable : ∀ x y : Fin 5,
    rhoOffsets.getD (x.val + 5 * y.val) 0 = (rhoTable.getD x.val []).getD y.val 0 := by
  decide

theorem getElem_iota (a : Lanes) (ir : Nat) (i : Fin 25) :
    (iota a ir)[i] = if i = 0 then a[i] ^^^ roundConstants.getD ir 0 else a[i] := by
  simp only [Fin.ext_iff]
  exact getElem_xorLane a 0 _ i.val i.isLt

theorem keccakF_eq_foldl_keccakRound (a : Lanes) : keccakF a = (List.range 24).foldl keccakRound a := by
  rw [keccakF]

end Sys2Proof.Machine

namespace Sys2Proof.Settled

open Sys2Proof.Machine Sys2Proof.Claims

/-- Settles O24: `PERMUTE` demands 200 bytes and no coefficients, reads them as lanes and delivers the bytes of
`KeccakF` of those lanes. -/
theorem permuteRule : Obligations.PermuteRule := by
  refine ⟨decode_encode .permute, fun s hok => ⟨faults_permute hok, fun hdin hcin =>
    ⟨_, _, answers_permute hok hdin hcin, length_stateBytes _ _, toNat_lanesOfBytes s.txn.din, fun j k hk => ?_⟩⟩⟩
  rw [getD_stateBytes _ _ _ (by omega), toNat_memRead _ j k hk]

/-- Settles O25: the law of each step mapping, lane by lane; a round is the five of them in order. -/
theorem stepMappings : Obligations.StepMappings :=
  ⟨getLsbD_rol64, fun a => ⟨laneXY_theta a, fun x y => rhoOffsets_eq_rhoTable x y ▸ laneXY_rho a x y, laneXY_pi a,
    laneXY_chi a, getElem_iota a, keccakF_eq_foldl_keccakRound a⟩⟩

/-- Settles O28: the kernel runs the 24 rounds on the one state R129 names. -/
theorem zeroStateKnownAnswer : Obligations.ZeroStateKnownAnswer := by
  unfold Obligations.ZeroStateKnownAnswer
  decide +kernel

end Sys2Proof.Settled
end

section
/-! SUPPORT. The commands of the sponge: what each demands and leaves, the runs they make up, and the proofs about them
(`spec/41_sponge.md` R141 to R152). -/

namespace Sys2Proof.Machine

open Sys2Proof.Claims

/-! ### What a command of the sponge demands -/

/-- What the checks of R85 ask of the command `i` in the phase `ph`, where that is no more than operands of the right
length (`din = none` for "any", and an empty `CIN`), and the rule it then runs. -/
structure Performs (i : Instr) (ph : Phase) (din : Option Nat) (rule : State → Except Failure Effect) : Prop where
  allowed : i.allowedIn ph = true
  cursor : i.needsFullCursor = false
  din : ∀ p, i.dinLen p = din
  cin : ∀ p, i.cinLen p = 0
  rule : ruleOf i = rule

theorem performs_init {i : Instr} {alg : Alg}
    (h : (i, alg) ∈ [(Instr.initShake128, Alg.shake128), (.initShake256, .shake256)]) (ph : Phase) :
    Performs i ph (some 0) (initRule alg) := by
  obtain ⟨rfl, rfl⟩ | ⟨rfl, rfl⟩ : (i = .initShake128 ∧ alg = .shake128) ∨ (i = .initShake256 ∧ alg = .shake256) := by
    simpa using h
  all_goals exact ⟨rfl, rfl, fun _ => rfl, fun _ => rfl, rfl⟩

theorem performs_absorb {ph : Phase} (h : ph = .absorbing) : Performs .absorb ph none absorbRule :=
  ⟨h ▸ rfl, rfl, fun _ => rfl, fun _ => rfl, rfl⟩

theorem performs_finalize {ph : Phase} (h : ph = .absorbing) : Performs .finalize ph (some 0) finalizeRule :=
  ⟨h ▸ rfl, rfl, fun _ => rfl, fun _ => rfl, rfl⟩

theorem performs_absorbOnce {i : Instr} {alg : Alg}
    (h : (i, alg) ∈ [(Instr.absorbOnceShake128, Alg.shake128), (.absorbOnceShake256, .shake256)]) (ph : Phase) :
    Performs i ph none (absorbOnceRule alg) := by
  obtain ⟨rfl, rfl⟩ | ⟨rfl, rfl⟩ :
      (i = .absorbOnceShake128 ∧ alg = .shake128) ∨ (i = .absorbOnceShake256 ∧ alg = .shake256) := by
    simpa using h
  all_goals exact ⟨rfl, rfl, fun _ => rfl, fun _ => rfl, rfl⟩

theorem performs_squeeze {ph : Phase} (h : ph = .finalized ∨ ph = .squeezing) :
    Performs .squeeze ph (some 0) squeezeRule :=
  ⟨by obtain rfl | rfl := h <;> rfl, rfl, fun _ => rfl, fun _ => rfl, rfl⟩

theorem performs_release (ph : Phase) : Performs .release ph (some 0) releaseRule :=
  ⟨rfl, rfl, fun _ => rfl, fun _ => rfl, rfl⟩

section
variable {i : Instr} {din : Option Nat} {rule : State → Except Failure Effect} {s : State} {e : Effect}

theorem Performs.answers (h : Performs i s.ctx.phase din rule) (hok : s.build.params.Ok)
    (hdin : ∀ n, din = some n → s.txn.din.length = n) (hcin : s.txn.cin = []) (hrule : rule s = .ok e) :
    Answers i s e.ctx e.dout e.cout :=
  answers_of hok h.allowed (fun hc => Bool.noConfusion (h.cursor.symm.trans hc))
    (fun n hn => hdin n ((h.din _).symm.trans hn)) (hcin ▸ (h.cin _).symm) (h.rule ▸ hrule)

theorem Performs.answers_of_bare (h : Performs i s.ctx.phase (some 0) rule) (hok : s.build.params.Ok)
    (hdin : s.txn.din = []) (hcin : s.txn.cin = []) (hrule : rule s = .ok e) : Answers i s e.ctx e.dout e.cout :=
  h.answers hok (fun _ hn => Option.some.inj hn ▸ congrArg List.length hdin) hcin hrule

theorem Performs.answers_of_data (h : Performs i s.ctx.phase none rule) (hok : s.build.params.Ok)
    (hcin : s.txn.cin = []) (hrule : rule s = .ok e) : Answers i s e.ctx e.dout e.cout :=
  h.answers hok nofun hcin hrule

theorem Performs.faults (h : Performs i s.ctx.phase din rule) (hok : s.build.params.Ok)
    (hlen : (∃ n, din = some n ∧ s.txn.din.length ≠ n) ∨ s.txn.cin ≠ []) : Faults i s .errLength :=
  faults_of_length hok h.allowed (fun hc => Bool.noConfusion (h.cursor.symm.trans hc))
    (hlen.imp (fun ⟨n, hn, hne⟩ => ⟨n, (h.din _).trans hn, hne⟩)
      fun hne => (h.cin _).symm ▸ mt List.length_eq_zero_iff.mp hne)

theorem Performs.faults_of_bare (h : Performs i s.ctx.phase (some 0) rule) (hok : s.build.params.Ok)
    (hne : s.txn.din ≠ [] ∨ s.txn.cin ≠ []) : Faults i s .errLength :=
  h.faults hok (hne.imp_left fun hdin => ⟨0, rfl, mt List.length_eq_zero_iff.mp hdin⟩)

/-- One step on an issued word that decodes to `i`. -/
theorem Performs.step_issue {w : CmdWord} {arg : Nat} {d : List Byte} {rest : List HostEvent}
    (h : Performs i s.ctx.phase din rule) (hok : s.build.params.Ok) (hd : decode w = .ok i)
    (hp : s.pending = issue w arg d :: rest) (hdin : ∀ n, din = some n → d.length = n)
    (hrule : rule { s with txn := { cmd := w, arg := arg, din := d, cin := [] }, pending := rest } = .ok e) :
    ∃ t, step s = .next t ∧ t.ctx = e.ctx ∧ t.response = some { status := .ok, dout := e.dout, cout := e.cout } ∧
      t.pending = rest ∧ t.build = s.build ∧ t.fault = s.fault :=
  ⟨_, Machine.step_issue hok hp hd h.allowed (fun hc => Bool.noConfusion (h.cursor.symm.trans hc))
    (fun n hn => hdin n ((h.din _).symm.trans hn)) (h.cin _) (h.rule ▸ hrule), rfl, rfl, rfl, rfl, rfl⟩

end

/-! ### What each leaves (R142 to R149) -/

theorem getElem_lanesZero (j : Fin 25) : Lanes.zero[j] = 0 := Vector.getElem_replicate j.isLt

theorem Context.Inv.pos_lt_rate {c : Context} (h : c.Inv) (hp : c.phase = .absorbing) : c.pos < c.rate := by
  unfold Context.Inv at h
  rw [hp] at h
  exact h.1

theorem absorbRule_eq {s : State} (hp : s.ctx.pos < s.ctx.rate) :
    absorbRule s = .ok
      { ctx :=
          { s.ctx with
            lanes := absorbed s.ctx.alg.rate s.ctx.lanes (zeros s.ctx.pos ++ s.txn.din)
              ((s.ctx.pos + s.txn.din.length) / s.ctx.alg.rate)
            pos := (s.ctx.pos + s.txn.din.length) % s.ctx.alg.rate }
        dout := [], cout := [] } := by
  rw [absorbRule, absorbBytes_eq _ _ hp]
  rfl

theorem absorbOnceRule_eq (alg : Alg) (s : State) :
    absorbOnceRule alg s = .ok
      { ctx := { lanes := finalLanes alg s.txn.din, pos := alg.rate, phase := .finalized, alg := alg }
        dout := [], cout := [] } := by
  rw [absorbOnceRule, doAbsorbOnce_eq]

theorem finalizeContext_absorbBytes_initContext (alg : Alg) (m : List Byte) :
    finalizeContext (absorbBytes (initContext alg) m) =
      { lanes := finalLanes alg m, pos := alg.rate, phase := .finalized, alg := alg } := by
  rw [finalizeContext, padBlock_absorbBytes (initContext alg) m rfl rfl]
  rfl

theorem squeezeRule_eq {s : State} (h1 : 1 ≤ s.ctx.pos) (h2 : s.ctx.pos ≤ s.ctx.rate) :
    squeezeRule s = .ok
      { ctx :=
          { s.ctx with
            lanes := keccakF^[(s.ctx.pos + s.txn.arg - 1) / s.ctx.alg.rate] s.ctx.lanes
            pos := s.ctx.pos + s.txn.arg - s.ctx.alg.rate * ((s.ctx.pos + s.txn.arg - 1) / s.ctx.alg.rate)
            phase := .squeezing }
        dout := (List.range s.txn.arg).map fun k => streamByte s.ctx.alg.rate s.ctx.lanes (s.ctx.pos + k)
        cout := [] } := by
  rw [squeezeRule, squeezeBytes_eq _ _ h1 h2]
  rfl

/-- Squeezing neither reads nor writes `PHASE`; only the command does. -/
theorem squeezeBytes_withPhase (n : Nat) (c : Context) (ph : Phase) :
    squeezeBytes n { c with phase := ph } = ((squeezeBytes n c).1, { (squeezeBytes n c).2 with phase := ph }) := by
  induction n generalizing c with
  | zero => rfl
  | succ n ih =>
    have hready : Context.ready { c with phase := ph } = { c.ready with phase := ph } := by
      unfold Context.ready
      split
      · next hp => rw [if_pos (show c.pos = c.rate from hp)]; rfl
      · next hp => rw [if_neg (show ¬ c.pos = c.rate from hp)]
    have hrest := ih { c.ready with pos := c.ready.pos + 1 }
    simp only [squeezeBytes, hready]
    exact congrArg (fun r => (memRead c.ready.lanes c.ready.pos :: r.1, r.2)) hrest

/-! ### Runs of issued commands -/

/-- On the build `b`, `n` steps from the context `c` with `p` pending lead to the context `c'` with `p'` pending, and
leave `FAULT` as it was. -/
def Leads (b : Build) (n : Nat) (c : Context) (p : List HostEvent) (c' : Context) (p' : List HostEvent) : Prop :=
  ∀ s : State, s.build = b → s.ctx = c → s.pending = p →
    ∃ t, Runs n s t ∧ t.build = b ∧ t.ctx = c' ∧ t.pending = p' ∧ t.fault = s.fault

theorem Leads.refl (b : Build) (c : Context) (p : List HostEvent) : Leads b 0 c p c p :=
  fun s hb hc hp => ⟨s, rfl, hb, hc, hp, rfl⟩

theorem Leads.trans {b : Build} {m n : Nat} {c c' c'' : Context} {p p' p'' : List HostEvent}
    (h1 : Leads b m c p c' p') (h2 : Leads b n c' p' c'' p'') : Leads b (m + n) c p c'' p'' := by
  intro s hb hc hp
  obtain ⟨t, hst, htb, htc, htp, htf⟩ := h1 s hb hc hp
  obtain ⟨u, htu, hub, huc, hup, huf⟩ := h2 t htb htc htp
  exact ⟨u, runs_add m n hst htu, hub, huc, hup, huf.trans htf⟩

/-- The run that `Leads` promises of a state of the build `s.build` with `p` in the place of what it had pending. -/
theorem Leads.run {s : State} {n : Nat} {c' : Context} {p p' : List HostEvent}
    (h : Leads s.build n s.ctx p c' p') :
    ∃ t, Runs n { s with pending := p } t ∧ t.ctx = c' ∧ t.fault = s.fault := by
  obtain ⟨t, hst, -, hc, -, hf⟩ := h { s with pending := p } rfl rfl rfl
  exact ⟨t, hst, hc, hf⟩

section
variable {b : Build} {rest : List HostEvent}

theorem Performs.leads {i : Instr} {din : Option Nat} {rule : State → Except Failure Effect} {c c' : Context}
    {w : CmdWord} {arg : Nat} {d : List Byte} (h : Performs i c.phase din rule) (hok : b.params.Ok)
    (hd : decode w = .ok i) (hdin : ∀ n, din = some n → d.length = n)
    (hrule : ∀ s : State, s.ctx = c → s.txn.din = d → rule s = .ok { ctx := c', dout := [], cout := [] }) :
    Leads b 1 c (issue w arg d :: rest) c' rest := by
  rintro s rfl rfl hp
  obtain ⟨t, hst, hc, -, hpt, hb, hf⟩ := h.step_issue hok hd hp hdin (hrule _ rfl rfl)
  exact ⟨t, ⟨t, hst, rfl⟩, hb, hc, hpt, hf⟩

theorem leads_init {i : Instr} {alg : Alg} {w : CmdWord} (hok : b.params.Ok) (hd : decode w = .ok i)
    (h : (i, alg) ∈ [(Instr.initShake128, Alg.shake128), (.initShake256, .shake256)]) (c : Context) :
    Leads b 1 c (issue w 0 [] :: rest) (initContext alg) rest :=
  (performs_init h c.phase).leads hok hd (fun _ hn => Option.some.inj hn) fun _ _ _ => rfl

theorem leads_absorb {c : Context} (hok : b.params.Ok) (hc : c.phase = .absorbing) (d : List Byte) :
    Leads b 1 c (issue 0x00000011 0 d :: rest) (absorbBytes c d) rest :=
  (performs_absorb hc).leads hok (decode_encode .absorb) nofun
    fun _ hs hdin => hs ▸ hdin ▸ rfl

theorem leads_finalize {c : Context} (hok : b.params.Ok) (hc : c.phase = .absorbing) :
    Leads b 1 c (issue 0x00000012 0 [] :: rest) (finalizeContext c) rest :=
  (performs_finalize hc).leads hok (decode_encode .finalize)
    (fun _ hn => Option.some.inj hn) fun _ hs _ => hs ▸ rfl

theorem leads_absorbOnce {i : Instr} {alg : Alg} {w : CmdWord} (hok : b.params.Ok) (hd : decode w = .ok i)
    (h : (i, alg) ∈ [(Instr.absorbOnceShake128, Alg.shake128), (.absorbOnceShake256, .shake256)]) (c : Context)
    (m : List Byte) :
    Leads b 1 c (issue w 0 m :: rest) { lanes := finalLanes alg m, pos := alg.rate, phase := .finalized, alg := alg }
      rest :=
  (performs_absorbOnce h c.phase).leads hok hd nofun fun s _ hm => hm ▸ absorbOnceRule_eq alg s

theorem step_squeeze {s : State} {n : Nat} (hok : s.build.params.Ok)
    (hph : s.ctx.phase = .finalized ∨ s.ctx.phase = .squeezing) (hp : s.pending = issue 0x00000014 n [] :: rest) :
    ∃ t, step s = .next t ∧ t.ctx = { (squeezeBytes n s.ctx).2 with phase := .squeezing } ∧
      t.response = some { status := .ok, dout := (squeezeBytes n s.ctx).1, cout := [] } ∧ t.pending = rest ∧
      t.build = s.build := by
  obtain ⟨t, hst, hc, hr, hpt, hb, -⟩ :=
    (performs_squeeze hph).step_issue hok (decode_encode .squeeze) hp (fun _ hn => Option.some.inj hn) rfl
  exact ⟨t, hst, hc, hr, hpt, hb⟩

/-- `ABSORB` chunk by chunk absorbs the concatenation. -/
theorem leads_absorb_chunks {c : Context} (hok : b.params.Ok) (hc : c.phase = .absorbing) (chunks : List (List Byte)) :
    Leads b chunks.length c (chunks.map (issue 0x00000011 0) ++ rest) (absorbBytes c chunks.flatten) rest := by
  induction chunks generalizing c with
  | nil => exact Leads.refl b c rest
  | cons d chunks ih =>
    have hrest := ih ((absorbBytes_phase c d).trans hc)
    rw [← absorbBytes_append] at hrest
    rw [List.length_cons, Nat.add_comm]
    exact (leads_absorb hok hc d).trans hrest

theorem leads_init_absorb_chunks {i : Instr} {alg : Alg} {w : CmdWord} (hok : b.params.Ok) (hd : decode w = .ok i)
    (h : (i, alg) ∈ [(Instr.initShake128, Alg.shake128), (.initShake256, .shake256)]) (c : Context)
    (chunks : List (List Byte)) :
    Leads b (chunks.length + 1) c (issue w 0 [] :: chunks.map (issue 0x00000011 0) ++ rest)
      (absorbBytes (initContext alg) chunks.flatten) rest :=
  Nat.add_comm 1 _ ▸ (leads_init hok hd h c).trans (leads_absorb_chunks hok rfl chunks)

end

end Sys2Proof.Machine

namespace Sys2Proof.Settled

open Sys2Proof.Machine Sys2Proof.Claims

/-- Settles O29: `INIT` demands empty operands in every phase, and its rule answers `initContext`. -/
theorem initRule : Obligations.InitRule := by
  refine ⟨decode_encode .initShake128, decode_encode .initShake256, fun i alg hi s hok => ?_⟩
  have hinit := performs_init hi s.ctx.phase
  exact ⟨hinit.faults_of_bare hok, fun hdin hcin =>
    ⟨_, hinit.answers_of_bare hok hdin hcin rfl, getElem_lanesZero, rfl, rfl, rfl⟩⟩

/-- Settles O30: the bytewise absorption in closed form, from a cursor that R25 keeps below the rate. -/
theorem absorbRule : Obligations.AbsorbRule := by
  refine ⟨decode_encode .absorb, fun s hok hinv => ⟨fun hph => faults_of_phase hok (beq_false_of_ne hph),
    fun hph hcin => (performs_absorb hph).faults hok (.inr hcin), fun hph hcin => ?_⟩⟩
  exact (performs_absorb hph).answers_of_data hok hcin (absorbRule_eq (hinv.pos_lt_rate hph))

/-- Settles O32: absorbing is a fold over the bytes, so the split does not matter; and `ABSORB_ONCE` and `INIT`,
`ABSORB`, `FINALIZE` both end in the absorbed padded message. -/
theorem absorbEquivalence : Obligations.AbsorbEquivalence := by
  intro s winit wonce chunks hok hw
  obtain ⟨alg, i, j, hi, hj, hdi, hdj⟩ : ∃ alg i j,
      (i, alg) ∈ [(Instr.initShake128, Alg.shake128), (.initShake256, .shake256)] ∧
      (j, alg) ∈ [(Instr.absorbOnceShake128, Alg.shake128), (.absorbOnceShake256, .shake256)] ∧
      decode winit = .ok i ∧ decode wonce = .ok j := by
    obtain ⟨rfl, rfl⟩ | ⟨rfl, rfl⟩ :
        (winit = 0x00000010 ∧ wonce = 0x00000013) ∨ (winit = 0x00000110 ∧ wonce = 0x00000113) := by
      simpa using hw
    · exact ⟨.shake128, .initShake128, .absorbOnceShake128, by decide, by decide, decode_encode .initShake128,
        decode_encode .absorbOnceShake128⟩
    · exact ⟨.shake256, .initShake256, .absorbOnceShake256, by decide, by decide, decode_encode .initShake256,
        decode_encode .absorbOnceShake256⟩
  have hphase := absorbBytes_phase (initContext alg) chunks.flatten
  obtain ⟨t, ht, htc, htf⟩ := (leads_init_absorb_chunks hok hdi hi s.ctx chunks (rest := [])).run
  obtain ⟨u, hu, huc, huf⟩ :=
    ((leads_init hok hdi hi s.ctx).trans (leads_absorb hok rfl chunks.flatten (rest := []))).run
  obtain ⟨t', ht', htc', htf'⟩ :=
    ((leads_init_absorb_chunks hok hdi hi s.ctx chunks).trans (leads_finalize hok hphase (rest := []))).run
  obtain ⟨v, hv, hvc, hvf⟩ := (leads_absorbOnce hok hdj hj s.ctx chunks.flatten (rest := [])).run
  rw [List.append_nil] at ht
  rw [finalizeContext_absorbBytes_initContext] at htc'
  exact ⟨t, u, t', v, ht, hu, htc.trans huc.symm, htf, huf, ht', hv, htc'.trans hvc.symm, htf', hvf⟩

/-- Settles O33: the two XORs of the padding, read byte by byte. -/
theorem finalizeRule : Obligations.FinalizeRule := by
  refine ⟨decode_encode .finalize, fun s hok _ => ⟨fun hph => faults_of_phase hok (beq_false_of_ne hph),
    fun hph => (performs_finalize hph).faults_of_bare hok, fun hph hdin hcin => ⟨(padBlock s.ctx).lanes, ?_, ?_⟩⟩⟩
  · exact (performs_finalize hph).answers_of_bare hok hdin hcin rfl
  · exact memRead_padBlock s.ctx

/-- Settles O35: `DoAbsorbOnce` starts from the zero state, so it leaves the blocks of the padded message. -/
theorem absorbOnceRule : Obligations.AbsorbOnceRule := by
  refine ⟨decode_encode .absorbOnceShake128, decode_encode .absorbOnceShake256, fun i alg hi s hok => ?_⟩
  have honce := performs_absorbOnce hi s.ctx.phase
  exact ⟨fun hcin => honce.faults hok (.inr hcin), fun hcin =>
    honce.answers_of_data hok hcin (absorbOnceRule_eq alg s)⟩

/-- Settles O36: the bytewise squeezing in closed form, from a cursor that R25 keeps in `[1, r]`. -/
theorem squeezeRule : Obligations.SqueezeRule := by
  refine ⟨decode_encode .squeeze, fun s hok hinv => ⟨fun hph => faults_of_phase hok ?_, fun hph =>
    ⟨(performs_squeeze hph).faults_of_bare hok, fun hdin hcin => ?_⟩⟩⟩
  · obtain hph | hph := hph <;> rw [hph] <;> rfl
  · obtain ⟨h1, h2, -⟩ := inv_pos_of_squeezable s.ctx hinv hph
    exact (performs_squeeze hph).answers_of_bare hok hdin hcin (squeezeRule_eq h1 h2)

/-- Settles O37: squeezing is one byte after another, so `n1 + n2` bytes are `n1` bytes and then `n2`. -/
theorem squeezeEquivalence : Obligations.SqueezeEquivalence := by
  intro s n1 n2 hok hph
  obtain ⟨t1, h1, hc1, hr1, hp1, hb1⟩ :=
    step_squeeze (s := { s with pending := [issue 0x00000014 n1 [], issue 0x00000014 n2 []] }) hok hph rfl
  obtain ⟨t2, h2, hc2, hr2, -, -⟩ := step_squeeze (s := t1) (hb1 ▸ hok) (.inr (congrArg Context.phase hc1)) hp1
  obtain ⟨u, hu, hcu, hru, -, -⟩ :=
    step_squeeze (s := { s with pending := [issue 0x00000014 (n1 + n2) []] }) hok hph rfl
  rw [hc1, squeezeBytes_withPhase] at hc2 hr2
  rw [squeezeBytes_add] at hcu hru
  exact ⟨t1, t2, u, _, _, ⟨t1, h1, rfl⟩, hr1, ⟨t1, h1, t2, h2, rfl⟩, hr2, ⟨u, hu, rfl⟩, hru, hc2.trans hcu.symm⟩

/-- Settles O39: `RELEASE` demands empty operands in every phase, and its rule answers the context of `EMPTY`. -/
theorem releaseRule : Obligations.ReleaseRule := by
  refine ⟨decode_encode .release, fun s hok => ?_⟩
  have hrelease := performs_release s.ctx.phase
  exact ⟨hrelease.faults_of_bare hok, fun hdin hcin =>
    ⟨_, hrelease.answers_of_bare hok hdin hcin rfl, getElem_lanesZero, rfl, rfl, rfl⟩⟩

end Sys2Proof.Settled
end

section
/-! SUPPORT. The one-shot commands: what each demands and answers; the responses that do not depend on the context; and
the proofs about them (`spec/42_hash_xof.md` R170 to R178, `spec/10_state.md` R21, R23). -/

namespace Sys2Proof.Machine

open Sys2Proof.Claims

/-! ### What a one-shot command demands and answers (R171 to R178) -/

theorem performs_xof {i : Instr} {alg : Alg} (h : (i, alg) ∈ [(Instr.shake128, Alg.shake128), (.shake256, .shake256)])
    (ph : Phase) : Performs i ph none (xofRule alg) := by
  obtain ⟨rfl, rfl⟩ | ⟨rfl, rfl⟩ : (i = .shake128 ∧ alg = .shake128) ∨ (i = .shake256 ∧ alg = .shake256) := by
    simpa using h
  all_goals exact ⟨rfl, rfl, fun _ => rfl, fun _ => rfl, rfl⟩

theorem performs_hash {i : Instr} {alg : Alg}
    (h : (i, alg) ∈ [(Instr.sha3_256, Alg.sha3_256), (.sha3_512, .sha3_512)]) (ph : Phase) :
    Performs i ph none (hashRule alg) := by
  obtain ⟨rfl, rfl⟩ | ⟨rfl, rfl⟩ : (i = .sha3_256 ∧ alg = .sha3_256) ∨ (i = .sha3_512 ∧ alg = .sha3_512) := by
    simpa using h
  all_goals exact ⟨rfl, rfl, fun _ => rfl, fun _ => rfl, rfl⟩

/-- The first `n` bytes of the stream one permutation after the padded message (R171). -/
def xofBytes (alg : Alg) (m : List Byte) (n : Nat) : List Byte :=
  (List.range n).map fun k => streamByte alg.rate (keccakF (finalLanes alg m)) k

/-- The first `HASHLANES[alg]` lanes one permutation after the padded message (R175). -/
def hashBytes (alg : Alg) (m : List Byte) : List Byte := stateBytes (8 * alg.hashLanes) (keccakF (finalLanes alg m))

/-- The cursor stands behind the padded block, so the stream starts one permutation on. -/
theorem xofBody_eq_xofBytes (c : Context) (alg : Alg) (m : List Byte) (n : Nat) :
    xofBody c alg m n = xofBytes alg m n := by
  have hstart := fun k => streamByte_add alg.rate (finalLanes alg m) 1 k alg.rate_pos
  simp only [Function.iterate_one, Nat.mul_one] at hstart
  simp only [xofBytes, hstart]
  rw [xofBody_eq, doAbsorbOnce_eq, squeezeBytes_eq]
  · rfl
  · exact alg.rate_pos
  · exact le_rfl

theorem hashBody_eq_hashBytes (c : Context) (alg : Alg) (m : List Byte) : hashBody c alg m = hashBytes alg m := by
  rw [hashBody, doAbsorbOnce_eq]
  rfl

section
variable {i : Instr} {alg : Alg} {s : State}

theorem answers_xof (h : (i, alg) ∈ [(Instr.shake128, Alg.shake128), (.shake256, .shake256)])
    (hok : s.build.params.Ok) (hcin : s.txn.cin = []) :
    Answers i s Context.empty (xofBytes alg s.txn.din s.txn.arg) [] :=
  xofBody_eq_xofBytes s.ctx alg _ _ ▸ (performs_xof h s.ctx.phase).answers_of_data hok hcin rfl

theorem answers_hash (h : (i, alg) ∈ [(Instr.sha3_256, Alg.sha3_256), (.sha3_512, .sha3_512)])
    (hok : s.build.params.Ok) (hcin : s.txn.cin = []) :
    Answers i s Context.empty (hashBytes alg s.txn.din) [] :=
  hashBody_eq_hashBytes s.ctx alg _ ▸ (performs_hash h s.ctx.phase).answers_of_data hok hcin rfl

end

/-- R170: a one-shot command computes one function of `DIN` and `ARG`, whatever the state and the build. -/
theorem oneShot_answers {i : Instr} (hi : i.oneShot = true) :
    ∃ f : List Byte → Nat → List Byte, ∀ s : State, s.build.params.Ok → s.txn.cin = [] →
      Answers i s Context.empty (f s.txn.din s.txn.arg) [] := by
  cases i with
  | shake128 => exact ⟨xofBytes .shake128, fun _ => answers_xof (by decide)⟩
  | shake256 => exact ⟨xofBytes .shake256, fun _ => answers_xof (by decide)⟩
  | sha3_256 => exact ⟨fun m _ => hashBytes .sha3_256 m, fun _ => answers_hash (by decide)⟩
  | sha3_512 => exact ⟨fun m _ => hashBytes .sha3_512 m, fun _ => answers_hash (by decide)⟩
  | _ => cases hi

/-! ### The response of a command, apart from the context it leaves -/

/-- `DOUT` and `COUT` of a command that succeeds. -/
def Effect.results (e : Effect) : List Byte × List Coeff := (e.dout, e.cout)

/-- The response to a command with these results or this failure. -/
def responseTo : Except Failure (List Byte × List Coeff) → Response
  | .ok r => { status := .ok, dout := r.1, cout := r.2 }
  | .error f => { status := .failed f, dout := [], cout := [] }

theorem respond_response (s : State) (x : Except Failure Effect) :
    (s.respond x).response = some (responseTo (Effect.results <$> x)) := by
  cases x <;> rfl

@[simp] theorem results_keep (s : State) (dout : List Byte) (cout : List Coeff) :
    Effect.results <$> s.keep dout cout = .ok (dout, cout) := rfl

section
variable {i : Instr} {s s' : State}

/-- Two states answer a command alike where its checks and the results of its rule agree. -/
theorem exec_response_congr (hok : s.build.params.Ok) (hok' : s'.build.params.Ok)
    (hcheck : s.precheck i = s'.precheck i)
    (hrule : Effect.results <$> ruleOf i s = Effect.results <$> ruleOf i s') :
    ∃ t t', exec i s = .next t ∧ exec i s' = .next t' ∧ t.response = t'.response := by
  rw [exec_eq_perform, exec_eq_perform]
  cases hc : s.precheck i with
  | some f =>
    exact ⟨_, _, perform_of_check s i _ f hok hc, perform_of_check s' i _ f hok' (hcheck.symm.trans hc), rfl⟩
  | none =>
    refine ⟨_, _, perform_of_ready s i _ hok hc, perform_of_ready s' i _ hok' (hcheck.symm.trans hc), ?_⟩
    rw [respond_response, respond_response, hrule]

/-! ### The stateless commands do not read the context (R21, R23) -/

theorem allowedIn_of_stateless (hi : i.stateless = true) (ph : Phase) : i.allowedIn ph = true := by
  cases i with
  | absorb | finalize | squeeze | squeezeblocks => cases hi
  | _ => rfl

theorem needsFullCursor_of_stateless (hi : i.stateless = true) : i.needsFullCursor = false := by
  cases i with
  | squeezeblocks => cases hi
  | _ => rfl

theorem precheck_of_stateless (hi : i.stateless = true) (htxn : s.txn = s'.txn) (hbuild : s.build = s'.build) :
    s.precheck i = s'.precheck i := by
  simp [State.precheck, allowedIn_of_stateless hi, needsFullCursor_of_stateless hi, htxn, hbuild]

/-- Only `RDSTAT` delivers anything of the context; the other stateless rules read it to hand it back. -/
theorem results_of_stateless (hi : i.stateless = true) (hne : i ≠ .rdstat) (htxn : s.txn = s'.txn)
    (hbuild : s.build = s'.build) : Effect.results <$> ruleOf i s = Effect.results <$> ruleOf i s' := by
  cases i with
  | rdstat => exact absurd rfl hne
  | permute => simp only [ruleOf, permuteRule, results_keep, htxn]
  | power2round | decompose | makeHint | useHint =>
    simp only [ruleOf, power2roundRule, decomposeRule, makeHintRule, useHintRule, htxn, hbuild]
    split
    · split <;> rfl
    · rfl
  | packPk | unpackPk | packSk | unpackSk | packSig | unpackSig =>
    simp only [ruleOf, packPkRule, unpackPkRule, packSkRule, unpackSkRule, packSigRule, unpackSigRule, map_bind,
      results_keep, htxn, hbuild]
  | _ => cases hi

end

end Sys2Proof.Machine

namespace Sys2Proof.Settled

open Sys2Proof.Machine Sys2Proof.Claims

/-- Settles O22: a one-shot command answers one function of its operands, and the checks and the rule of a stateless
command read its operands and the build only. -/
theorem responsesIgnoreContext : Obligations.ResponsesIgnoreContext := by
  intro i s s' hok hok' htxn
  refine ⟨fun hi hcin => ?_, fun hi hne hbuild => exec_response_congr hok hok'
    (precheck_of_stateless hi htxn hbuild) (results_of_stateless hi hne htxn hbuild)⟩
  obtain ⟨f, hf⟩ := oneShot_answers hi
  have hs' := hf s' hok' (htxn ▸ hcin)
  rw [← htxn] at hs'
  exact ⟨_, _, hf s hok hcin, hs', rfl, rfl⟩

/-- Settles O40: the bytes of `XofBody` are the stream after the padded message, and `Wipe` leaves the reset context. -/
theorem shakeRule : Obligations.ShakeRule := by
  refine ⟨decode_encode .shake128, decode_encode .shake256, fun i alg hi s hok => ?_⟩
  exact ⟨fun hcin => (performs_xof hi s.ctx.phase).faults hok (.inr hcin), answers_xof hi hok⟩

/-- Settles O42: `HashBody` reads the first `8 * HASHLANES` state bytes one permutation after the padded message. -/
theorem sha3Rule : Obligations.Sha3Rule := by
  refine ⟨decode_encode .sha3_256, decode_encode .sha3_512, fun i alg len hi s hok => ?_⟩
  obtain ⟨hmem, rfl⟩ : (i, alg) ∈ [(Instr.sha3_256, Alg.sha3_256), (.sha3_512, .sha3_512)] ∧
      len = 8 * alg.hashLanes := by
    obtain ⟨rfl, rfl, rfl⟩ | ⟨rfl, rfl, rfl⟩ : (i = .sha3_256 ∧ alg = .sha3_256 ∧ len = 32) ∨
        (i = .sha3_512 ∧ alg = .sha3_512 ∧ len = 64) := by
      simpa using hi
    all_goals decide
  exact ⟨fun hcin => (performs_hash hmem s.ctx.phase).faults hok (.inr hcin), answers_hash hmem hok⟩

end Sys2Proof.Settled
end

section
/-! SUPPORT. The commands of the rounding unit: what each demands and answers, and the proofs about them
(`spec/43_rounding.md` R190 to R202). -/

namespace Sys2Proof.Machine

open Sys2Proof.Claims

/-! ### What a command of the rounding unit demands (R84) -/

/-- The command `i` is stateless and takes an empty `DIN` and `n` coefficients. -/
structure TakesCoeffs (i : Instr) (n : Nat) : Prop where
  stateless : i.stateless = true
  din : ∀ p, i.dinLen p = some 0
  cin : ∀ p, i.cinLen p = n

theorem takesCoeffs_power2round : TakesCoeffs .power2round 1 := ⟨rfl, fun _ => rfl, fun _ => rfl⟩

theorem takesCoeffs_decompose : TakesCoeffs .decompose 1 := ⟨rfl, fun _ => rfl, fun _ => rfl⟩

theorem takesCoeffs_makeHint : TakesCoeffs .makeHint 2 := ⟨rfl, fun _ => rfl, fun _ => rfl⟩

theorem takesCoeffs_useHint : TakesCoeffs .useHint 2 := ⟨rfl, fun _ => rfl, fun _ => rfl⟩

section
variable {i : Instr} {n : Nat} {s : State}

theorem TakesCoeffs.cursor (h : TakesCoeffs i n) : i.needsFullCursor = true → s.ctx.pos = s.ctx.alg.rate :=
  fun hc => Bool.noConfusion ((needsFullCursor_of_stateless h.stateless).symm.trans hc)

theorem TakesCoeffs.faults_of_operands (h : TakesCoeffs i n) (hok : s.build.params.Ok)
    (hne : s.txn.din ≠ [] ∨ s.txn.cin.length ≠ n) : Faults i s .errLength :=
  faults_of_length hok (allowedIn_of_stateless h.stateless _) h.cursor
    (hne.imp (fun hdin => ⟨0, h.din _, mt List.length_eq_zero_iff.mp hdin⟩) fun hcin => (h.cin _).symm ▸ hcin)

theorem TakesCoeffs.din_length (h : TakesCoeffs i n) (hdin : s.txn.din = []) :
    ∀ m, i.dinLen s.build.params = some m → s.txn.din.length = m :=
  fun _ hm => Option.some.inj ((h.din _).symm.trans hm) ▸ congrArg List.length hdin

theorem TakesCoeffs.faults_of_range (h : TakesCoeffs i n) (hok : s.build.params.Ok) (hdin : s.txn.din = [])
    (hcin : s.txn.cin.length = n) (hrule : ruleOf i s = .error .errRange) : Faults i s .errRange :=
  faults_of (by decide) hok (allowedIn_of_stateless h.stateless _) h.cursor (h.din_length hdin)
    (hcin.trans (h.cin _).symm) hrule

theorem TakesCoeffs.answers (h : TakesCoeffs i n) (hok : s.build.params.Ok) (hdin : s.txn.din = [])
    (hcin : s.txn.cin.length = n) {cout : List Coeff} (hrule : ruleOf i s = s.keep [] cout) :
    Answers i s s.ctx [] cout :=
  answers_of hok (allowedIn_of_stateless h.stateless _) h.cursor (h.din_length hdin) (hcin.trans (h.cin _).symm) hrule

end

/-! ### What each answers (R192, R195, R199, R202) -/

section
variable {s : State} (hok : s.build.params.Ok) (hdin : s.txn.din = [])
include hok hdin

theorem answers_power2round {w : Coeff} (hcin : s.txn.cin = [w]) (h : isFieldElement s.build.params w.toInt) :
    Answers .power2round s s.ctx []
      (toPorts [(power2round s.build.params w.toInt).1, (power2round s.build.params w.toInt).2]) :=
  takesCoeffs_power2round.answers hok hdin (congrArg List.length hcin)
    ((power2roundRule_eq s w hcin).trans (if_pos h))

theorem faults_power2round {w : Coeff} (hcin : s.txn.cin = [w]) (h : ¬ isFieldElement s.build.params w.toInt) :
    Faults .power2round s .errRange :=
  takesCoeffs_power2round.faults_of_range hok hdin (congrArg List.length hcin)
    ((power2roundRule_eq s w hcin).trans (if_neg h))

theorem answers_decompose {w : Coeff} (hcin : s.txn.cin = [w]) (h : isFieldElement s.build.params w.toInt) :
    Answers .decompose s s.ctx []
      (toPorts [(decompose s.build.params w.toInt).1, (decompose s.build.params w.toInt).2]) :=
  takesCoeffs_decompose.answers hok hdin (congrArg List.length hcin) ((decomposeRule_eq s w hcin).trans (if_pos h))

theorem faults_decompose {w : Coeff} (hcin : s.txn.cin = [w]) (h : ¬ isFieldElement s.build.params w.toInt) :
    Faults .decompose s .errRange :=
  takesCoeffs_decompose.faults_of_range hok hdin (congrArg List.length hcin)
    ((decomposeRule_eq s w hcin).trans (if_neg h))

theorem answers_makeHint {w0 w1 : Coeff} (hcin : s.txn.cin = [w0, w1])
    (h : 0 ≤ w1.toInt ∧ w1.toInt < s.build.params.M) :
    Answers .makeHint s s.ctx [] (toPorts [makeHint s.build.params w0.toInt w1.toInt]) :=
  takesCoeffs_makeHint.answers hok hdin (congrArg List.length hcin)
    ((makeHintRule_eq s w0 w1 hcin).trans (if_pos h))

theorem faults_makeHint {w0 w1 : Coeff} (hcin : s.txn.cin = [w0, w1])
    (h : ¬ (0 ≤ w1.toInt ∧ w1.toInt < s.build.params.M)) : Faults .makeHint s .errRange :=
  takesCoeffs_makeHint.faults_of_range hok hdin (congrArg List.length hcin)
    ((makeHintRule_eq s w0 w1 hcin).trans (if_neg h))

theorem answers_useHint {w h : Coeff} (hcin : s.txn.cin = [w, h])
    (hw : isFieldElement s.build.params w.toInt ∧ (h.toInt = 0 ∨ h.toInt = 1)) :
    Answers .useHint s s.ctx [] (toPorts [useHint s.build.params w.toInt h.toInt]) :=
  takesCoeffs_useHint.answers hok hdin (congrArg List.length hcin) ((useHintRule_eq s w h hcin).trans (if_pos hw))

theorem faults_useHint {w h : Coeff} (hcin : s.txn.cin = [w, h])
    (hw : ¬ (isFieldElement s.build.params w.toInt ∧ (h.toInt = 0 ∨ h.toInt = 1))) : Faults .useHint s .errRange :=
  takesCoeffs_useHint.faults_of_range hok hdin (congrArg List.length hcin)
    ((useHintRule_eq s w h hcin).trans (if_neg hw))

end

/-! ### The results on the port (R191) -/

theorem coeffVals_toPorts_one {x : Int} (hx : -2 ^ 31 ≤ x ∧ x < 2 ^ 31) : coeffVals (toPorts [x]) = [x] :=
  coeffVals_toPorts _ (List.forall_mem_singleton.mpr hx)

theorem coeffVals_toPorts_two {x y : Int}
    (h : (-2 ^ 31 ≤ x ∧ x < 2 ^ 31) ∧ (-2 ^ 31 ≤ y ∧ y < 2 ^ 31)) : coeffVals (toPorts [x, y]) = [x, y] :=
  coeffVals_toPorts _ (List.forall_mem_cons.mpr ⟨h.1, List.forall_mem_singleton.mpr h.2⟩)

theorem not_isFieldElement {p : Params} {a : Int} (h : a < 0 ∨ (p.Q : Int) ≤ a) : ¬ isFieldElement p a :=
  fun ⟨h0, hQ⟩ => h.elim h0.not_gt hQ.not_ge

theorem M_lt (p : Params) (h1 : p.P1) : (p.M : Int) < 2 ^ 31 := by
  have hdiv : p.M ≤ p.Q - 1 := Nat.div_le_self _ _
  have hQ := Q_lt p h1
  omega

/-- A corrected high part is a high part: both corrections wrap modulo `M` (R202). -/
theorem useHint_range {p : Params} (h1 : p.P1) (h3 : p.P3) {a : Int} (ha : isFieldElement p a) (hint : Int) :
    0 ≤ useHint p a hint ∧ useHint p a hint < p.M := by
  have hM := two_le_M p h3
  have hmod : ∀ x : Int, 0 ≤ x % p.M ∧ x % p.M < p.M := fun x =>
    ⟨Int.emod_nonneg x (by omega), Int.emod_lt_of_pos x (by omega)⟩
  simp only [useHint]
  split
  · rcases decomposes_branches h1 h3 ha.1 ha.2 (decompose_spec p h3 a) with ⟨-, -, -, -, hlo, hhi⟩ | ⟨-, hwrap, -⟩
    · exact ⟨hlo, by omega⟩
    · rw [hwrap]
      exact ⟨le_rfl, by omega⟩
  · split
    · exact hmod _
    · exact hmod _

theorem useHint_fits {p : Params} (h1 : p.P1) (h3 : p.P3) {a : Int} (ha : isFieldElement p a) (hint : Int) :
    -2 ^ 31 ≤ useHint p a hint ∧ useHint p a hint < 2 ^ 31 := by
  obtain ⟨hlo, hhi⟩ := useHint_range h1 h3 ha hint
  have hM := M_lt p h1
  omega

end Sys2Proof.Machine

namespace Sys2Proof.Settled

open Sys2Proof.Machine Sys2Proof.Claims

/-- Settles O43: the rule delivers the closed form of R192, whose two parts fit the port. -/
theorem power2roundRule : Obligations.Power2roundRule := by
  refine ⟨decode_encode .power2round, fun s hok => ⟨takesCoeffs_power2round.faults_of_operands hok,
    fun w hdin hcin => ⟨fun hout => faults_power2round hok hdin hcin (not_isFieldElement hout), fun h0 hQ => ?_⟩⟩⟩
  have ⟨h1, h2, _⟩ := hok
  exact ⟨_, _, answers_power2round hok hdin hcin ⟨h0, hQ⟩, rfl,
    coeffVals_toPorts_two (power2round_fits _ h1 h2 _ h0 hQ)⟩

/-- Settles O45: the rule delivers `decompose`, which meets R194 and fits the port. -/
theorem decomposeRule : Obligations.DecomposeRule := by
  refine ⟨decode_encode .decompose, fun s hok => ⟨takesCoeffs_decompose.faults_of_operands hok,
    fun w hdin hcin => ⟨fun hout => faults_decompose hok hdin hcin (not_isFieldElement hout), fun h0 hQ => ?_⟩⟩⟩
  have ⟨h1, _, h3, _⟩ := hok
  have hspec := decompose_spec s.build.params h3 w.toInt
  exact ⟨_, _, _, answers_decompose hok hdin hcin ⟨h0, hQ⟩,
    coeffVals_toPorts_two (decomposes_fits h1 h3 h0 hQ hspec), hspec⟩

/-- Settles O47: the rule delivers `makeHint`, whose condition is the predicate of R199. -/
theorem makeHintRule : Obligations.MakeHintRule := by
  refine ⟨decode_encode .makeHint, fun s hok => ⟨takesCoeffs_makeHint.faults_of_operands hok,
    fun w0 w1 hdin hcin => ⟨fun hout => faults_makeHint hok hdin hcin (by omega), fun h0 hM => ?_⟩⟩⟩
  have hans := answers_makeHint hok hdin hcin ⟨h0, hM⟩
  refine ⟨fun hhint => ?_, fun hhint => ?_⟩
  · rwa [makeHint, if_pos hhint] at hans
  · rwa [makeHint, if_neg hhint] at hans

/-- Settles O49: the rule delivers `useHint` of the parts that `decompose` gives, a high part that fits the port. -/
theorem useHintRule : Obligations.UseHintRule := by
  refine ⟨decode_encode .useHint, fun s hok => ⟨takesCoeffs_useHint.faults_of_operands hok,
    fun w h hdin hcin => ⟨fun hout => faults_useHint hok hdin hcin (by omega), fun h0 hQ hh => ?_⟩⟩⟩
  have ⟨h1, _, h3, _⟩ := hok
  exact ⟨_, _, _, decompose_spec _ h3 _, answers_useHint hok hdin hcin ⟨⟨h0, hQ⟩, hh⟩,
    coeffVals_toPorts_one (useHint_fits h1 h3 ⟨h0, hQ⟩ _)⟩

end Sys2Proof.Settled
end

section
/-! SUPPORT. The packing commands of the keys: what each demands, the fields of a packed vector and of an unpacked one,
the layout of the secret key by its offsets, and the proofs about them (`spec/44_packing_keys.md` R222 to R236). -/

namespace Sys2Proof.Machine

open Sys2Proof.Claims

/-! ### What a stateless command demands of its operands (R84) -/

/-- The command `i` is stateless and takes `m` bytes and `n` coefficients under `p`. -/
structure TakesOperands (i : Instr) (p : Params) (m n : Nat) : Prop where
  stateless : i.stateless = true
  din : i.dinLen p = some m
  cin : i.cinLen p = n

theorem takesOperands_packPk (p : Params) : TakesOperands .packPk p p.SEEDBYTES (p.K * p.N) := ⟨rfl, rfl, rfl⟩

theorem takesOperands_unpackPk (p : Params) : TakesOperands .unpackPk p p.PKBYTES 0 := ⟨rfl, rfl, rfl⟩

theorem takesOperands_packSk (p : Params) :
    TakesOperands .packSk p (2 * p.SEEDBYTES + p.TRBYTES) ((2 * p.K + p.L) * p.N) := ⟨rfl, rfl, rfl⟩

theorem takesOperands_unpackSk (p : Params) : TakesOperands .unpackSk p p.SKBYTES 0 := ⟨rfl, rfl, rfl⟩

section
variable {i : Instr} {m n : Nat} {s : State}

theorem TakesOperands.cursor (h : TakesOperands i s.build.params m n) :
    i.needsFullCursor = true → s.ctx.pos = s.ctx.alg.rate :=
  fun hc => Bool.noConfusion ((needsFullCursor_of_stateless h.stateless).symm.trans hc)

theorem TakesOperands.din_length (h : TakesOperands i s.build.params m n) (hdin : s.txn.din.length = m) :
    ∀ k, i.dinLen s.build.params = some k → s.txn.din.length = k :=
  fun _ hk => hdin.trans (Option.some.inj (h.din.symm.trans hk))

theorem TakesOperands.faults_of_operands (h : TakesOperands i s.build.params m n) (hok : s.build.params.Ok)
    (hne : s.txn.din.length ≠ m ∨ s.txn.cin.length ≠ n) : Faults i s .errLength :=
  faults_of_length hok (allowedIn_of_stateless h.stateless _) h.cursor
    (hne.imp (fun hdin => ⟨m, h.din, hdin⟩) fun hcin => h.cin.symm ▸ hcin)

theorem TakesOperands.faults_of_range (h : TakesOperands i s.build.params m n) (hok : s.build.params.Ok)
    (hdin : s.txn.din.length = m) (hcin : s.txn.cin.length = n) (hrule : ruleOf i s = .error .errRange) :
    Faults i s .errRange :=
  faults_of (by decide) hok (allowedIn_of_stateless h.stateless _) h.cursor (h.din_length hdin)
    (hcin.trans h.cin.symm) hrule

theorem TakesOperands.answers (h : TakesOperands i s.build.params m n) (hok : s.build.params.Ok)
    (hdin : s.txn.din.length = m) (hcin : s.txn.cin.length = n) {dout : List Byte} {cout : List Coeff}
    (hrule : ruleOf i s = s.keep dout cout) : Answers i s s.ctx dout cout :=
  answers_of hok (allowedIn_of_stateless h.stateless _) h.cursor (h.din_length hdin) (hcin.trans h.cin.symm) hrule

theorem TakesOperands.faults_of_operands_of_bare (h : TakesOperands i s.build.params m 0) (hok : s.build.params.Ok)
    (hne : s.txn.din.length ≠ m ∨ s.txn.cin ≠ []) : Faults i s .errLength :=
  h.faults_of_operands hok (hne.imp_right (mt List.length_eq_zero_iff.mp))

/-- The results of a command that answers `OK` have the lengths of R84's table. -/
theorem answers_lengths {c : Context} {dout : List Byte} {cout : List Coeff} (h : Answers i s c dout cout) :
    dout.length = (i.lengthRow s.build.params s.ctx.alg.rate s.txn.arg).dout ∧
      cout.length = (i.lengthRow s.build.params s.ctx.alg.rate s.txn.arg).cout :=
  exec_ok_lengths h rfl rfl

end

/-! ### Vectors in a buffer (R94, R225) -/

theorem row_index_lt {rows n i j : Nat} (hi : i < rows) (hj : j < n) : i * n + j < rows * n := by
  have hrow : (i + 1) * n ≤ rows * n := Nat.mul_le_mul_right _ hi
  rw [Nat.succ_mul] at hrow
  omega

/-- The range check of a codec whose bound is the interval `[lo, hi]` (R221). -/
theorem within_iff_all_inBound {lo hi : Int} {c : Codec} (hc : ∀ x, c.inBound x = true ↔ lo ≤ x ∧ x ≤ hi)
    (v : List Coeff) : Within lo hi v ↔ (coeffVals v).all c.inBound = true := by
  simp only [within_iff, List.all_eq_true, hc]

/-- The coefficients a packed vector holds, whether or not its fields are codes. -/
def unpackedRows (p : Params) (c : Codec) (b : List Byte) (rows : Nat) : List Int :=
  (unpackFields p c b rows).map c.dec

theorem length_unpackedRows (p : Params) (c : Codec) (b : List Byte) (rows : Nat) :
    (unpackedRows p c b rows).length = rows * p.N :=
  (List.length_map _).trans (length_unpackFields p c b rows)

section
variable {p : Params} (c : Codec) (h4 : p.P4) {b : List Byte} {base rows i j u : Nat}
include h4

/-- The coefficient of a field of the packed vector at byte offset `base`. -/
theorem getD_unpackedRows_of_holdsField (hi : i < rows) (hj : j < p.N)
    (hu : HoldsField b (base + i * p.polyBytes c.width) c.width j u) :
    (unpackedRows p c (slice b base (rows * p.polyBytes c.width)) rows).getD (i * p.N + j) 0 = c.dec u := by
  have hlt : i * p.N + j < (unpackFields p c (slice b base (rows * p.polyBytes c.width)) rows).length :=
    (row_index_lt hi hj).trans_eq (length_unpackFields _ _ _ _).symm
  have hfield := (holdsField_iff_unpackFields p c h4 b base rows i j u hi hj).mp hu
  rw [List.getD_eq_getElem _ _ hlt] at hfield
  rw [unpackedRows, List.getD_eq_getElem _ _ (by rwa [List.length_map]), List.getElem_map, hfield]

/-- What holds of every unpacked field holds of what every field of the buffer holds. -/
theorem forall_mem_unpackFields_iff (P : Nat → Prop) :
    (∀ u ∈ unpackFields p c (slice b base (rows * p.polyBytes c.width)) rows, P u) ↔
      ∀ i j u, i < rows → j < p.N → HoldsField b (base + i * p.polyBytes c.width) c.width j u → P u := by
  have hlen := length_unpackFields p c (slice b base (rows * p.polyBytes c.width)) rows
  constructor
  · intro h i j u hi hj hu
    have hlt := (row_index_lt hi hj).trans_eq hlen.symm
    rw [holdsField_iff_unpackFields p c h4 b base rows i j u hi hj, List.getD_eq_getElem _ _ hlt] at hu
    exact hu ▸ h _ (List.getElem_mem hlt)
  · intro h u hu
    obtain ⟨k, hk, rfl⟩ := List.getElem_of_mem hu
    have hkN : k < p.N * rows := by rwa [Nat.mul_comm, ← hlen]
    have hi : k / p.N < rows := Nat.div_lt_of_lt_mul hkN
    have hj : k % p.N < p.N := Nat.mod_lt _ h4.1
    refine h _ _ _ hi hj ((holdsField_iff_unpackFields p c h4 b base rows _ _ _ hi hj).mpr ?_)
    rw [Nat.div_add_mod', List.getD_eq_getElem _ _ hk]

end

/-- The field of a buffer in which the coefficients `first .. first + rows*N - 1` of `CIN` stand packed at byte offset
`base`. -/
theorem holdsField_packed_slice {p : Params} {c : Codec} (hc : c.Good) (h4 : p.P4) {cin : List Coeff} {b : List Byte}
    {first base rows i j : Nat} (hlen : (slice (coeffVals cin) first (rows * p.N)).length = rows * p.N)
    (hb : (slice (coeffVals cin) first (rows * p.N)).all c.inBound = true)
    (hs : slice b base (rows * p.polyBytes c.width) = packedRows p c (slice (coeffVals cin) first (rows * p.N)) rows)
    (hi : i < rows) (hj : j < p.N) :
    HoldsField b (base + i * p.polyBytes c.width) c.width j (c.enc (coeffAt cin (first + (i * p.N + j)))) := by
  have h := holdsField_packedRows p c hc h4 _ b base rows i j hlen hb hs hi hj
  rwa [getD_slice _ _ _ _ _ (row_index_lt hi hj), getD_coeffVals] at h

/-- A coefficient that is a signed 32-bit integer crosses the port (R31). -/
theorem coeffAt_toPorts {v : List Int} {k : Nat} {x : Int} (hv : v.getD k 0 = x) (hx : OnPort x) :
    coeffAt (toPorts v) k = x := by
  have hget : (toPorts v).getD k (toPort 0) = toPort (v.getD k 0) := List.getD_map v 0 toPort
  rw [show toPort 0 = 0 from toPort_toInt 0, hv] at hget
  rw [coeffAt, hget, toInt_toPort x hx]

/-! ### The public key (R95, R232, R233) -/

theorem t1_inBound_iff (x : Int) : t1Codec.inBound x = true ↔ 0 ≤ x ∧ x ≤ 1023 := by
  simp only [t1Codec, decide_eq_true_eq]
  omega

theorem t1_onPort {u : Nat} (hu : u < 2 ^ 10) : OnPort u := by
  unfold OnPort
  omega

/-! ### The secret key by its offsets (R96, R234) -/

/-- The six fields of a packed secret key, each cut out at its offset of R96's table. -/
def skSlices (p : Params) (o : SkOrder) (b : List Byte) : SkFields :=
  let off := skOffsets p o
  { seed := slice b off.seed p.SEEDBYTES, tr := slice b off.tr p.TRBYTES, key := slice b off.key p.SEEDBYTES
    e0 := slice b off.t0 (p.K * p.POLYT0BYTES), e1 := slice b off.s1 (p.L * p.POLYETABYTES)
    e2 := slice b off.s2 (p.K * p.POLYETABYTES) }

theorem skSlices_eq_skSplit (p : Params) (o : SkOrder) (b : List Byte) : skSlices p o b = skSplit p o b := by
  cases o with
  | doc => rfl
  | fips204 => simp only [skSlices, skSplit, skOffsets, Params.skSeedBytes, Nat.two_mul]

/-- The packed secret key holds the byte fields of `DIN` and the packed vectors of `CIN` at the offsets of R96. -/
theorem skSlices_skBuffer {p : Params} (o : SkOrder) {d : List Byte} {c : List Int}
    (hd : d.length = 2 * p.SEEDBYTES + p.TRBYTES) (hc : c.length = (2 * p.K + p.L) * p.N) :
    skSlices p o (skBuffer o (skFields p d c)) = skFields p d c := by
  obtain ⟨ht0, hs1, hs2⟩ := sk_split_cin p c hc
  rw [skSlices_eq_skSplit]
  refine skSplit_skBuffer p o _ ?_ ?_ ?_ (length_packedRows p _ _ _ ht0) (length_packedRows p _ _ _ hs1)
    (length_packedRows p _ _ _ hs2)
  all_goals
    simp only [skFields, length_slice]
    omega

/-! ### `PACK_SK` (R227, R228, R235) -/

theorem t0_inBound_iff (p : Params) (x : Int) :
    (t0Codec p).inBound x = true ↔ -2 ^ (p.D - 1) + 1 ≤ x ∧ x ≤ 2 ^ (p.D - 1) := by
  simp only [t0Codec, decide_eq_true_eq, Int.add_one_le_iff]

theorem eta_inBound_iff (p : Params) (x : Int) : (etaCodec p).inBound x = true ↔ -(p.ETA : Int) ≤ x ∧ x ≤ p.ETA :=
  decide_eq_true_iff

/-- The bounds of R221 are the range checks of the codecs on the three vectors. -/
theorem skBounds_iff {p : Params} {cin : List Coeff} (hcin : cin.length = (2 * p.K + p.L) * p.N) :
    SkBounds p cin ↔ (skT0 p (coeffVals cin)).all (t0Codec p).inBound = true ∧
      (skS1 p (coeffVals cin)).all (etaCodec p).inBound = true ∧
      (skS2 p (coeffVals cin)).all (etaCodec p).inBound = true := by
  have hdrop : coeffVals (cin.drop (p.K * p.N)) = skS1 p (coeffVals cin) ++ skS2 p (coeffVals cin) := by
    have hjoin := sk_join p (coeffVals cin) ((length_coeffVals cin).trans hcin)
    obtain ⟨ht0, -, -⟩ := sk_split_cin p (coeffVals cin) ((length_coeffVals cin).trans hcin)
    rw [List.append_assoc] at hjoin
    calc coeffVals (cin.drop (p.K * p.N)) = (coeffVals cin).drop (p.K * p.N) := List.map_drop
      _ = _ := by conv_lhs => rw [← hjoin, ← ht0, List.drop_left]
  have htake : coeffVals (cin.take (p.K * p.N)) = skT0 p (coeffVals cin) := coeffVals_slice cin 0 (p.K * p.N)
  rw [SkBounds, within_iff_all_inBound (t0_inBound_iff p), within_iff_all_inBound (eta_inBound_iff p), htake, hdrop,
    List.all_append, Bool.and_eq_true]

/-! ### `UNPACK_SK` (R236) -/

theorem t0_onPort {p : Params} (h1 : p.P1) (h2 : p.P2) {u : Nat} (hu : u < 2 ^ p.T0BITS) :
    OnPort ((t0Codec p).dec u) := by
  have hbound := (t0_inBound_iff p _).mp ((t0Codec_good p h2).dec_bound u hu rfl)
  have hD := two_pow_D p h2.1
  have hlt : 2 ^ p.D < p.Q ∧ p.Q < 2 ^ 31 := ⟨h2.2.1, h1.2.2⟩
  have hcast : ((2 ^ (p.D - 1) : Nat) : Int) = 2 ^ (p.D - 1) := Nat.cast_pow 2 _
  unfold OnPort
  omega

/-- The coefficients `UNPACK_SK` reads in the six fields, `t0 ‖ s1 ‖ s2`. -/
def skCoeffs (p : Params) (f : SkFields) : List Int :=
  unpackedRows p (t0Codec p) f.e0 p.K ++ unpackedRows p (etaCodec p) f.e1 p.L ++ unpackedRows p (etaCodec p) f.e2 p.K

theorem getD_append_add {α : Type} {a : List α} {n : Nat} (h : a.length = n) (b : List α) (k : Nat) (d : α) :
    (a ++ b).getD (n + k) d = b.getD k d := by
  subst h
  rw [List.getD_append_right _ _ _ _ (Nat.le_add_right _ _), Nat.add_sub_cancel_left]

section
variable (p : Params) (f : SkFields) {i j : Nat}

theorem getD_skCoeffs_t0 (hi : i < p.K) (hj : j < p.N) :
    (skCoeffs p f).getD (i * p.N + j) 0 = (unpackedRows p (t0Codec p) f.e0 p.K).getD (i * p.N + j) 0 := by
  have hlt := (row_index_lt hi hj).trans_eq (length_unpackedRows p (t0Codec p) f.e0 p.K).symm
  rw [skCoeffs, List.append_assoc, List.getD_append _ _ _ _ hlt]

theorem getD_skCoeffs_s1 (hi : i < p.L) (hj : j < p.N) :
    (skCoeffs p f).getD ((p.K + i) * p.N + j) 0 = (unpackedRows p (etaCodec p) f.e1 p.L).getD (i * p.N + j) 0 := by
  have hlt := (row_index_lt hi hj).trans_eq (length_unpackedRows p (etaCodec p) f.e1 p.L).symm
  rw [skCoeffs, List.append_assoc, Nat.add_mul, Nat.add_assoc, getD_append_add (length_unpackedRows _ _ _ _),
    List.getD_append _ _ _ _ hlt]

theorem getD_skCoeffs_s2 :
    (skCoeffs p f).getD ((p.K + p.L + i) * p.N + j) 0
      = (unpackedRows p (etaCodec p) f.e2 p.K).getD (i * p.N + j) 0 := by
  rw [skCoeffs, Nat.add_mul, Nat.add_assoc, getD_append_add]
  rw [List.length_append, length_unpackedRows, length_unpackedRows, Nat.add_mul]

end

end Sys2Proof.Machine

namespace Sys2Proof.Settled

open Sys2Proof.Machine Sys2Proof.Claims

/-- Settles O51: packed bytes and unpacked fields are the digits of the one number `S`, in base `2^8` and `2^w`. -/
theorem bitPacker : Obligations.BitPacker :=
  ⟨fun u w hw h8 hu => ⟨length_bitPack u w, fun k _ => bit_bitPack u w hw h8 hu k, bitUnpack_bitPack u w h8 hu⟩,
    fun b w n _ hlen => ⟨length_bitUnpack b w n, bitUnpack_lt b w n, bitPack_bitUnpack b w n hlen⟩⟩

/-- Settles O52: the rule delivers the seed and behind it the packed rows, whose fields are the codes of `CIN`. -/
theorem packPkRule : Obligations.PackPkRule := by
  refine ⟨decode_encode .packPk, ?_⟩
  rintro s p rfl hok
  have htakes := takesOperands_packPk s.build.params
  have hbound := within_iff_all_inBound t1_inBound_iff s.txn.cin
  refine ⟨htakes.faults_of_operands hok, fun hdin hcin => ⟨fun hout => ?_, fun hin => ?_⟩⟩
  · exact htakes.faults_of_range hok hdin hcin ((packPkRule_eq s).trans (if_neg (mt hbound.mpr hout)))
  · have ⟨_, _, _, h4, _⟩ := hok
    have hall := hbound.mp hin
    have hans := htakes.answers hok hdin hcin ((packPkRule_eq s).trans (if_pos hall))
    have hlen := (length_coeffVals s.txn.cin).trans hcin
    refine ⟨_, hans, (answers_lengths hans).1, slice_prefix _ _ _ hdin, fun i j hi hj => ?_⟩
    have hrows := length_packedRows _ t1Codec _ _ hlen
    rw [← getD_coeffVals]
    refine holdsField_packedRows _ t1Codec t1Codec_good h4 _ _ _ _ i j hlen hall ?_ hi hj
    rw [slice_skip _ _ _ _ _ hdin le_rfl, Nat.sub_self, slice_zero_all _ _ hrows.le]

/-- Settles O53: every 10-bit field is a code, and the integer it holds crosses the port. -/
theorem unpackPkRule : Obligations.UnpackPkRule := by
  refine ⟨decode_encode .unpackPk, ?_⟩
  rintro s p rfl hok
  have htakes := takesOperands_unpackPk s.build.params
  refine ⟨htakes.faults_of_operands_of_bare hok, fun hdin hcin => ?_⟩
  have ⟨_, _, _, h4, _⟩ := hok
  have hans := htakes.answers hok hdin (congrArg List.length hcin) (unpackPkRule_eq s)
  refine ⟨_, hans, (answers_lengths hans).2, fun i j u hi hj hu => coeffAt_toPorts ?_ (t1_onPort hu.1)⟩
  have hrows : s.txn.din.drop s.build.params.SEEDBYTES
      = slice s.txn.din s.build.params.SEEDBYTES (s.build.params.K * s.build.params.POLYT1BYTES) := by
    refine (List.take_of_length_le ?_).symm
    rw [List.length_drop, hdin, Params.PKBYTES, Nat.add_sub_cancel_left]
  rw [hrows]
  exact getD_unpackedRows_of_holdsField t1Codec h4 hi hj hu

/-- Settles O54: the six fields stand at the offsets of R96, and the packed ones hold the codes of `CIN`. -/
theorem packSkRule : Obligations.PackSkRule := by
  refine ⟨decode_encode .packSk, ?_⟩
  rintro s p o rfl rfl hok
  have htakes := takesOperands_packSk s.build.params
  refine ⟨htakes.faults_of_operands hok, fun hdin hcin => ⟨fun hout => ?_, fun hin => ?_⟩⟩
  · exact htakes.faults_of_range hok hdin hcin
      ((packSkRule_eq s).trans (if_neg (mt (skBounds_iff hcin).mpr hout)))
  · have ⟨_, h2, _, h4, _, h6, _⟩ := hok
    have hbounds := (skBounds_iff hcin).mp hin
    have ⟨bt0, bs1, bs2⟩ := hbounds
    have hlen := (length_coeffVals s.txn.cin).trans hcin
    obtain ⟨lt0, ls1, ls2⟩ := sk_split_cin _ _ hlen
    have hans := htakes.answers hok hdin hcin ((packSkRule_eq s).trans (if_pos hbounds))
    have hfields := skSlices_skBuffer s.build.skOrder hdin hlen
    have heta := etaCodec_good _ h6
    refine ⟨_, hans, (answers_lengths hans).1, congrArg SkFields.seed hfields, congrArg SkFields.tr hfields,
      congrArg SkFields.key hfields, fun i j hi hj => ?_, fun i j hi hj => ?_, fun i j hi hj => ?_⟩
    · have h := holdsField_packed_slice (t0Codec_good _ h2) h4 lt0 bt0 (congrArg SkFields.e0 hfields) hi hj
      rwa [Nat.zero_add] at h
    · rw [Nat.add_mul, Nat.add_assoc]
      exact holdsField_packed_slice heta h4 ls1 bs1 (congrArg SkFields.e1 hfields) hi hj
    · rw [Nat.add_mul, Nat.add_assoc]
      exact holdsField_packed_slice heta h4 ls2 bs2 (congrArg SkFields.e2 hfields) hi hj

/-- Settles O55: the rule reads the fields of the buffer at the offsets of R96, and checks those of `s1` and `s2`. -/
theorem unpackSkRule : Obligations.UnpackSkRule := by
  refine ⟨decode_encode .unpackSk, ?_⟩
  rintro s p o rfl rfl hok
  have htakes := takesOperands_unpackSk s.build.params
  refine ⟨htakes.faults_of_operands_of_bare hok, fun hdin hcin => ?_⟩
  have hcin : s.txn.cin.length = 0 := congrArg List.length hcin
  have ⟨h1, h2, _, h4, _⟩ := hok
  have hrule := unpackSkRule_eq s _ (skSlices_eq_skSplit s.build.params s.build.skOrder s.txn.din)
  have hcodes := fun base rows => forall_mem_unpackFields_iff (etaCodec s.build.params) h4 (b := s.txn.din)
    (base := base) (rows := rows) (· ≤ 2 * s.build.params.ETA)
  refine ⟨fun hout => ?_, fun hs1 hs2 => ?_⟩
  · refine htakes.faults_of_range hok hdin hcin (hrule.trans (if_neg ?_))
    rintro ⟨hs1, hs2⟩
    obtain ⟨i, j, u, hi, hj, hu, hgt⟩ | ⟨i, j, u, hi, hj, hu, hgt⟩ := hout
    · exact hgt.not_ge ((hcodes _ _).mp hs1 i j u hi hj hu)
    · exact hgt.not_ge ((hcodes _ _).mp hs2 i j u hi hj hu)
  · have hans := htakes.answers hok hdin hcin
      (hrule.trans (if_pos ⟨(hcodes _ _).mpr hs1, (hcodes _ _).mpr hs2⟩))
    refine ⟨_, hans, (answers_lengths hans).2, fun i j u hi hj hu => ?_, fun i j u hi hj hu => ?_,
      fun i j u hi hj hu => ?_⟩
    · exact coeffAt_toPorts ((getD_skCoeffs_t0 _ _ hi hj).trans (getD_unpackedRows_of_holdsField _ h4 hi hj hu))
        (t0_onPort h1 h2 hu.1)
    · exact coeffAt_toPorts ((getD_skCoeffs_s1 _ _ hi hj).trans (getD_unpackedRows_of_holdsField _ h4 hi hj hu))
    · exact coeffAt_toPorts ((getD_skCoeffs_s2 _ _).trans (getD_unpackedRows_of_holdsField _ h4 hi hj hu))

end Sys2Proof.Settled
end

section
/-! SUPPORT. The packing commands of the signature: what each demands, the bytes of a packed hint section, the
coefficients an unpacked signature delivers, and the proofs about them (`spec/45_packing_sig.md` R260 to R268). -/

namespace Sys2Proof.Machine

open Sys2Proof.Claims

/-! ### What the commands of the signature demand (R84) -/

theorem takesOperands_packSig (p : Params) : TakesOperands .packSig p p.CTILDEBYTES ((p.L + p.K) * p.N) :=
  ⟨rfl, rfl, rfl⟩

theorem takesOperands_unpackSig (p : Params) : TakesOperands .unpackSig p p.SIGBYTES 0 := ⟨rfl, rfl, rfl⟩

/-- A command whose checks pass and whose rule answers `MALFORMED` changes nothing but the response (R292). -/
theorem TakesOperands.malforms {i : Instr} {m n : Nat} {s : State} (h : TakesOperands i s.build.params m n)
    (hok : s.build.params.Ok) (hdin : s.txn.din.length = m) (hcin : s.txn.cin.length = n)
    (hrule : ruleOf i s = .error .malformed) : Malforms i s := by
  have hlen := (lengthsOk_iff s.build.params i s.txn).mpr ⟨h.din_length hdin, hcin.trans h.cin.symm⟩
  rw [Malforms, exec_of_ready hok (allowedIn_of_stateless h.stateless _) h.cursor hlen, hrule]
  exact congrArg _ (raise_malformed s)

/-! ### The operands of `PACK_SIG` (R221, R260, R262) -/

theorem z_inBound_iff (p : Params) (x : Int) :
    (zCodec p).inBound x = true ↔ -((p.GAMMA1 : Int) - 1) ≤ x ∧ x ≤ p.GAMMA1 :=
  decide_eq_true_iff

/-- The hint matrix is all of `CIN` behind `z`. -/
theorem sigH_coeffVals {p : Params} {cin : List Coeff} (hcin : cin.length = (p.L + p.K) * p.N) :
    sigH p (coeffVals cin) = coeffVals (cin.drop (p.L * p.N)) := by
  rw [sigH, ← coeffVals_slice, slice, List.take_of_length_le]
  rw [List.length_drop, hcin, Nat.add_mul, Nat.add_sub_cancel_left]

theorem forall_mem_coeffVals_bit_iff (c : List Coeff) :
    (∀ x ∈ coeffVals c, x = 0 ∨ x = 1) ↔ ∀ w ∈ c, w = 0 ∨ w = 1 := by
  have hbit : ∀ w : Coeff, w.toInt = 0 ∨ w.toInt = 1 ↔ w = 0 ∨ w = 1 := fun w =>
    or_congr (BitVec.toInt_inj (y := (0 : Coeff))) (BitVec.toInt_inj (y := (1 : Coeff)))
  simp only [coeffVals, List.forall_mem_map, hbit]

theorem count_coeffVals (c : List Coeff) : (coeffVals c).count 1 = c.count 1 :=
  List.count_map_of_injective c BitVec.toInt (fun _ _ => BitVec.eq_of_toInt_eq) 1

theorem count_take_coeffVals (c : List Coeff) (k : Nat) : ((coeffVals c).take k).count 1 = (c.take k).count 1 := by
  rw [show (coeffVals c).take k = coeffVals (c.take k) from List.map_take.symm]
  exact count_coeffVals _

/-- The bounds of R221 are the range checks of the rule on `z` and on the matrix. -/
theorem sigBounds_iff {p : Params} {cin : List Coeff} (hcin : cin.length = (p.L + p.K) * p.N) :
    SigBounds p cin ↔ (sigZ p (coeffVals cin)).all (zCodec p).inBound = true ∧
      (∀ x ∈ sigH p (coeffVals cin), x = 0 ∨ x = 1) ∧ (sigH p (coeffVals cin)).count 1 ≤ p.OMEGA := by
  have htake : coeffVals (cin.take (p.L * p.N)) = sigZ p (coeffVals cin) := coeffVals_slice cin 0 (p.L * p.N)
  rw [SigBounds, within_iff_all_inBound (z_inBound_iff p), htake, sigH_coeffVals hcin, forall_mem_coeffVals_bit_iff,
    count_coeffVals]

/-! ### The numbers of a hint section (R98, R262) -/

section
variable {p : Params} {rows : List (List Nat)} {m : Nat}

theorem getD_hintNumbers_index (hm : m < rows.flatten.length) :
    (hintNumbers p rows).getD m 0 = rows.flatten.getD m 0 := by
  rw [hintNumbers, List.append_assoc, List.getD_append _ _ _ _ hm]

theorem getD_hintNumbers_unused (hlow : rows.flatten.length ≤ m) (hm : m < p.OMEGA) :
    (hintNumbers p rows).getD m 0 = 0 := by
  have hlt : m - rows.flatten.length < (List.replicate (p.OMEGA - rows.flatten.length) 0).length := by
    rw [List.length_replicate]
    omega
  rw [hintNumbers, List.append_assoc, List.getD_append_right _ _ _ _ hlow, List.getD_append _ _ _ _ hlt,
    List.getD_eq_getElem _ _ hlt, List.getElem_replicate]

theorem getD_hintNumbers_marker (hcap : rows.flatten.length ≤ p.OMEGA) (hm : m < rows.length) :
    (hintNumbers p rows).getD (p.OMEGA + m) 0 = (rows.take (m + 1)).flatten.length := by
  have hlen : (rows.flatten ++ List.replicate (p.OMEGA - rows.flatten.length) 0).length = p.OMEGA := by
    rw [List.length_append, List.length_replicate, Nat.add_sub_cancel' hcap]
  rw [hintNumbers, getD_append_add hlen, getD_countsFrom 0 rows m hm, Nat.zero_add]

end

/-- The rank of a one is below the number of ones. -/
theorem count_take_lt {h : List Int} {k : Nat} (hk : h.getD k 0 = 1) : (h.take k).count 1 < h.count 1 := by
  have hlt : k < h.length := by
    by_contra hge
    rw [List.getD_eq_default _ _ (Nat.not_lt.mp hge)] at hk
    exact zero_ne_one hk
  rw [List.getD_eq_getElem _ _ hlt] at hk
  calc (h.take k).count 1 < (h.take (k + 1)).count 1 := by
        rw [List.take_succ_eq_append_getElem hlt, hk, List.count_append]
        exact Nat.lt_succ_self _
    _ ≤ h.count 1 := (List.take_sublist _ _).count_le _

/-! ### The packed signature (R97, R266) -/

/-- The packed signature of the challenge hash `d`, the vector `z` and the matrix `h`. -/
def sigBytes (p : Params) (d : List Byte) (z h : List Int) : List Byte :=
  d ++ packedRows p (zCodec p) z p.L ++ hintSection p (hintRows p h)

theorem length_hintSection_hintRows {p : Params} {h : List Int} (hlen : h.length = p.K * p.N)
    (hcap : h.count 1 ≤ p.OMEGA) : (hintSection p (hintRows p h)).length = p.HINTBYTES := by
  rw [hintSection_eq, List.length_map]
  exact length_hintNumbers _ _ (length_hintRows p h) ((length_hintRows_flatten p h hlen).trans_le hcap)

section
variable {p : Params} {d : List Byte} (hd : d.length = p.CTILDEBYTES) {z h : List Int}
include hd

theorem slice_sigBytes_challenge : slice (sigBytes p d z h) 0 p.CTILDEBYTES = d := by
  rw [sigBytes, List.append_assoc, slice_prefix _ _ _ hd]

theorem slice_sigBytes_z (hz : z.length = p.L * p.N) :
    slice (sigBytes p d z h) p.CTILDEBYTES (p.L * p.POLYZBYTES) = packedRows p (zCodec p) z p.L := by
  rw [sigBytes, List.append_assoc, slice_skip _ _ _ _ _ hd le_rfl, Nat.sub_self]
  exact slice_prefix _ _ _ (length_packedRows p (zCodec p) z p.L hz)

theorem sigHint_sigBytes (hz : z.length = p.L * p.N) (hlen : h.length = p.K * p.N) (hcap : h.count 1 ≤ p.OMEGA) :
    sigHint p (sigBytes p d z h) = hintSection p (hintRows p h) := by
  have hfront : (d ++ packedRows p (zCodec p) z p.L).length = hintOffset p := by
    rw [List.length_append, hd, length_packedRows p _ _ _ hz]
    rfl
  rw [sigHint, sigBytes, slice_skip _ _ _ _ _ hfront le_rfl, Nat.sub_self,
    slice_zero_all _ _ (length_hintSection_hintRows hlen hcap).le]

end

section
variable {s : State} (hcin : s.txn.cin.length = (s.build.params.L + s.build.params.K) * s.build.params.N)
include hcin

theorem packSigRule_of_bounds (h : SigBounds s.build.params s.txn.cin) :
    packSigRule s = s.keep (sigBytes s.build.params s.txn.din (sigZ s.build.params (coeffVals s.txn.cin))
      (coeffVals (s.txn.cin.drop (s.build.params.L * s.build.params.N)))) [] := by
  rw [packSigRule_eq, if_pos ((sigBounds_iff hcin).mp h), sigH_coeffVals hcin]
  rfl

theorem packSigRule_of_not_bounds (h : ¬ SigBounds s.build.params s.txn.cin) : packSigRule s = .error .errRange := by
  rw [packSigRule_eq, if_neg (mt (sigBounds_iff hcin).mpr h)]

end

/-! ### The packed hint section by its bytes (R98) -/


theorem hintByte_eq_getD_byteVals (p : Params) (b : List Byte) {m : Nat} (hm : m < p.HINTBYTES) :
    hintByte p b m = (byteVals (sigHint p b)).getD m 0 := by
  rw [getD_byteVals, sigHint, getD_slice _ _ _ _ _ hm, hintByte]

section
variable {p : Params} (h4 : p.P4) (h5 : p.P5) {h : List Int} (hlen : h.length = p.K * p.N)
  (hcap : h.count 1 ≤ p.OMEGA) {b : List Byte} (hb : sigHint p b = hintSection p (hintRows p h))
include h4 h5 hlen hcap hb

theorem hintByte_eq_getD_hintNumbers {m : Nat} (hm : m < p.HINTBYTES) :
    hintByte p b m = (hintNumbers p (hintRows p h)).getD m 0 := by
  rw [hintByte_eq_getD_byteVals p b hm, hb, byteVals_hintSection p h4 h5 _ (hintRows_lt p h hlen)]
  rwa [length_hintRows_flatten p h hlen]

theorem hintByte_marker {i : Nat} (hi : i < p.K) :
    hintByte p b (p.OMEGA + i) = (h.take ((i + 1) * p.N)).count 1 := by
  rw [hintByte_eq_getD_hintNumbers h4 h5 hlen hcap hb (Nat.add_lt_add_left hi _), getD_hintNumbers_marker,
    count_take_rows p h _ hi]
  · rwa [length_hintRows_flatten p h hlen]
  · rwa [length_hintRows]

theorem hintByte_index {i j : Nat} (hi : i < p.K) (hj : j < p.N) (hone : h.getD (i * p.N + j) 0 = 1) :
    hintByte p b ((h.take (i * p.N + j)).count 1) = j := by
  have hrank := count_take_lt hone
  have hm : (h.take (i * p.N + j)).count 1 < p.HINTBYTES :=
    (hrank.trans_le hcap).trans_le (Nat.le_add_right _ _)
  rw [hintByte_eq_getD_hintNumbers h4 h5 hlen hcap hb hm, getD_hintNumbers_index,
    getD_flatten_hintRows p h i j hi hj hone]
  rwa [length_hintRows_flatten p h hlen]

theorem hintByte_unused {m : Nat} (hlow : h.count 1 ≤ m) (hm : m < p.OMEGA) : hintByte p b m = 0 := by
  rw [hintByte_eq_getD_hintNumbers h4 h5 hlen hcap hb (hm.trans_le (Nat.le_add_right _ _)),
    getD_hintNumbers_unused _ hm]
  rwa [length_hintRows_flatten p h hlen]

end

/-! ### `UNPACK_SIG` (R264, R268) -/

/-- The coefficients `UNPACK_SIG` reads in a packed signature, `z ‖ h`. -/
def sigCoeffs (p : Params) (b : List Byte) : List Int :=
  unpackedRows p (zCodec p) (slice b p.CTILDEBYTES (p.L * p.POLYZBYTES)) p.L
    ++ (rowsBetween (hintIndices p (sigHint p b)) 0 (hintMarkers p (sigHint p b))).flatMap (rowBits p.N)

section
variable {s : State} (hdin : s.txn.din.length = s.build.params.SIGBYTES)
include hdin

theorem unpackSigRule_of_wellFormed (h : HintWellFormed s.build.params s.txn.din) :
    unpackSigRule s = s.keep (slice s.txn.din 0 s.build.params.CTILDEBYTES)
      (toPorts (sigCoeffs s.build.params s.txn.din)) :=
  unpackSigRule_of_ok s _ rfl ((hintOk_iff _ _ hdin).mpr h)

theorem unpackSigRule_of_not_wellFormed (h : ¬ HintWellFormed s.build.params s.txn.din) :
    unpackSigRule s = .error .malformed :=
  unpackSigRule_of_not_ok s (mt (hintOk_iff _ _ hdin).mp h)

end

section
variable (p : Params) (b : List Byte) {i j : Nat}

theorem getD_sigCoeffs_z (hi : i < p.L) (hj : j < p.N) :
    (sigCoeffs p b).getD (i * p.N + j) 0
      = (unpackedRows p (zCodec p) (slice b p.CTILDEBYTES (p.L * p.POLYZBYTES)) p.L).getD (i * p.N + j) 0 :=
  List.getD_append _ _ _ _ ((row_index_lt hi hj).trans_eq (length_unpackedRows _ _ _ _).symm)

theorem getD_sigCoeffs_h :
    (sigCoeffs p b).getD ((p.L + i) * p.N + j) 0
      = ((rowsBetween (hintIndices p (sigHint p b)) 0 (hintMarkers p (sigHint p b))).flatMap
          (rowBits p.N)).getD (i * p.N + j) 0 := by
  rw [sigCoeffs, Nat.add_mul, Nat.add_assoc, getD_append_add (length_unpackedRows _ _ _ _)]

end

theorem onPort_zero : OnPort 0 := by
  unfold OnPort
  decide

theorem onPort_one : OnPort 1 := by
  unfold OnPort
  decide

end Sys2Proof.Machine

namespace Sys2Proof.Settled

open Sys2Proof.Machine Sys2Proof.Claims

/-- Settles O56: the rule delivers the challenge hash, the packed rows of `z` and the hint section, whose bytes are the
numbers of R98. -/
theorem packSigRule : Obligations.PackSigRule := by
  refine ⟨decode_encode .packSig, ?_⟩
  rintro s p rfl hok
  have htakes := takesOperands_packSig s.build.params
  refine ⟨htakes.faults_of_operands hok, fun hdin hcin => ⟨fun hout => ?_, fun hin => ?_⟩⟩
  · exact htakes.faults_of_range hok hdin hcin (packSigRule_of_not_bounds hcin hout)
  · have ⟨_, _, _, h4, h5, h6, h7⟩ := hok
    have hans := htakes.answers hok hdin hcin (packSigRule_of_bounds hcin hin)
    obtain ⟨lz, lh⟩ := sig_split_cin _ _ ((length_coeffVals s.txn.cin).trans hcin)
    have ⟨hz, _, hcap⟩ := (sigBounds_iff hcin).mp hin
    rw [sigH_coeffVals hcin] at lh hcap
    have hsec := sigHint_sigBytes hdin lz lh hcap
    refine ⟨_, _, rfl, hans, (answers_lengths hans).1, slice_sigBytes_challenge hdin, fun i j hi hj => ?_,
      fun i hi => ?_, fun i j hi hj hone => ?_, fun m hlow hm => ?_⟩
    · rw [← Nat.zero_add (i * s.build.params.N + j)]
      exact holdsField_packed_slice (zCodec_good _ h6 h7) h4 lz hz (slice_sigBytes_z hdin lz) hi hj
    · rw [← count_take_coeffVals]
      exact hintByte_marker h4 h5 lh hcap hsec hi
    · rw [← getD_coeffVals] at hone
      rw [← count_take_coeffVals]
      exact hintByte_index h4 h5 lh hcap hsec hi hj hone
    · rw [← count_coeffVals] at hlow
      exact hintByte_unused h4 h5 lh hcap hsec hlow hm

/-- Settles O57: the decoder accepts exactly the well-formed hint sections; every field of `z` is a code, and the rows
of the matrix hold a one at the columns they list. -/
theorem unpackSigRule : Obligations.UnpackSigRule := by
  refine ⟨decode_encode .unpackSig, ?_⟩
  rintro s p rfl hok
  have htakes := takesOperands_unpackSig s.build.params
  refine ⟨htakes.faults_of_operands_of_bare hok, fun hdin hcin => ?_⟩
  have hcin : s.txn.cin.length = 0 := congrArg List.length hcin
  refine ⟨fun hbad => htakes.malforms hok hdin hcin (unpackSigRule_of_not_wellFormed hdin hbad), fun hgood => ?_⟩
  have ⟨_, _, _, h4, _⟩ := hok
  have hans := htakes.answers hok hdin hcin (unpackSigRule_of_wellFormed hdin hgood)
  refine ⟨_, hans, (answers_lengths hans).2, fun i j u hi hj hu => ?_, fun i j hi hj => ?_⟩
  · exact coeffAt_toPorts ((getD_sigCoeffs_z _ _ hi hj).trans (getD_unpackedRows_of_holdsField _ h4 hi hj hu))
  · obtain ⟨hone, hzero⟩ := getD_decoded _ _ hdin hgood i j hi hj _ rfl
    exact ⟨fun hlisted => coeffAt_toPorts ((getD_sigCoeffs_h _ _).trans (hone hlisted)) onPort_one,
      fun hnot => coeffAt_toPorts ((getD_sigCoeffs_h _ _).trans (hzero hnot)) onPort_zero⟩

end Sys2Proof.Settled
end

section
/-! SUPPORT. What a failure leaves, the order of the checks, and the phase table (`spec/60_exceptions.md` R292, R293,
R296, R300; `spec/10_state.md` R26). -/

namespace Sys2Proof.Machine

open Sys2Proof.Claims

/-! ### What a failure leaves (R292, R293) -/

/-- `raise` of any failure, field by field: faults and `MALFORMED` differ in `FAULT` only. -/
theorem raise_eq (s : State) (f : Failure) :
    s.raise f = { s with fault := if f = .malformed then s.fault else true,
                         response := some { status := .failed f, dout := [], cout := [] } } := by
  by_cases hf : f = .malformed
  · subst hf
    exact raise_malformed s
  · rw [raise_of_fault s f hf, if_neg hf]

theorem respond_of_failed {s : State} {x : Except Failure Effect} {r : Response} {f : Failure}
    (hr : (s.respond x).response = some r) (hst : r.status = .failed f) : s.respond x = s.raise f := by
  cases x with
  | ok e =>
    obtain rfl := Option.some.inj hr
    cases hst
  | error g =>
    obtain rfl := Option.some.inj hr
    exact congrArg s.raise (Status.failed.inj hst)

/-- A transaction that fails leaves what `raise` leaves, its word illegal or not. -/
theorem step_of_failed {s t : State} {c : Transaction} {rest : List HostEvent} {r : Response} {f : Failure}
    (hp : s.pending = .command c :: rest) (h : step s = .next t) (hr : t.response = some r)
    (hst : r.status = .failed f) : t = (s.begin c rest).raise f := by
  obtain ⟨hq, -⟩ | ⟨rest', hq, -⟩ | ⟨c', rest', x, hq, rfl⟩ := step_next h
  · cases hp.symm.trans hq
  · cases hp.symm.trans hq
  · cases hp.symm.trans hq
    exact respond_of_failed hr hst

/-! ### The status by the checks (R85, R300) -/

section
variable {i : Instr} {s t : State} {r : Response}

theorem faults_of_dash (hok : s.build.params.Ok) (h : i.phaseEntry s.ctx.phase = none) : Faults i s .errPhase :=
  faults_of_phase hok (Bool.eq_false_iff.mpr (mt (allowedIn_iff_phaseEntry i _).mp (not_not_intro h)))

/-- A command whose checks pass succeeds or fails in its rule. -/
theorem exec_status_of_ready (hok : s.build.params.Ok) (hc : s.precheck i = none) :
    ∃ t r, exec i s = .next t ∧ t.response = some r ∧
      (r.status = .ok ∨ r.status = .failed .errRange ∨ r.status = .failed .malformed) := by
  refine ⟨_, _, (exec_eq_perform i s).trans (perform_of_ready s i _ hok hc), respond_response _ _, ?_⟩
  cases hx : ruleOf i s with
  | ok e => exact .inl rfl
  | error f =>
    obtain ⟨rfl, -⟩ | ⟨rfl, -⟩ := rule_error hc hx
    · exact .inr (.inl rfl)
    · exact .inr (.inr rfl)

/-- `ERR_PHASE` comes from the check of the phase and from nothing else. -/
theorem allowedIn_of_errPhase (h : exec i s = .next t) (hr : t.response = some r)
    (hst : r.status = .failed .errPhase) : i.allowedIn s.ctx.phase = false := by
  obtain ⟨-, ⟨f, hc, rfl⟩ | ⟨hc, f, hf, rfl⟩ | ⟨-, e, -, rfl⟩⟩ := exec_cases h
  · cases hr
    obtain ⟨-, hphase⟩ | ⟨rfl, -⟩ | ⟨rfl, -⟩ := precheck_eq_some hc
    · exact hphase
    · cases hst
    · cases hst
  · cases hr
    obtain ⟨rfl, -⟩ | ⟨rfl, -⟩ := rule_error hc hf <;> cases hst
  · cases hr
    cases hst

theorem exec_ok_ctx (h : exec i s = .next t) (hr : t.response = some r) (hst : r.status = .ok) :
    t.ctx = ctxAfter i s := by
  obtain ⟨-, ⟨f, -, rfl⟩ | ⟨-, f, -, rfl⟩ | ⟨hc, e, he, rfl⟩⟩ := exec_cases h
  · cases hr; cases hst
  · cases hr; cases hst
  · exact rule_ok_ctx hc he

end

end Sys2Proof.Machine

namespace Sys2Proof.Settled

open Sys2Proof.Machine Sys2Proof.Claims

/-- Settles O12: a transaction that fails ends in `raise`, which changes `FAULT` and the response only. -/
theorem preciseFaults : Obligations.PreciseFaults := by
  intro s t c rest r f hp h hr hst
  exact (step_of_failed hp h hr hst).trans (raise_eq _ f)

/-- Settles O14: each check that fails decides the status whatever the later ones say, and once all pass only the
failures of the command's own rule are left. -/
theorem checkOrder : Obligations.CheckOrder := by
  refine ⟨fun s t rest e hok hp hd => ⟨_, _, step_of_illegal hok hp hd, rfl, rfl⟩, fun i s hok => ?_⟩
  rw [lengthRow_din, lengthRow_cin, ← allowedIn_iff_phaseEntry, ← needsFullCursor_iff]
  exact ⟨faults_of_dash hok, faults_of_cursor hok, faults_of_length hok, fun hphase hcursor hdin hcin =>
    exec_status_of_ready hok
      ((precheck_eq_none s i).mpr ⟨hphase, hcursor, (lengthsOk_iff _ _ _).mpr ⟨hdin, hcin⟩⟩)⟩

/-- Settles O15: an entry of the table allows the command, so the check of the phase passes, and the context a success
leaves has the entry as its phase. -/
theorem phaseTable : Obligations.PhaseTable := by
  refine fun i s hok => ⟨faults_of_dash hok, fun ph hentry t r h hr => ⟨fun hst => ?_, fun hst => ?_⟩⟩
  · have hallowed : i.allowedIn s.ctx.phase = true :=
      (allowedIn_iff_phaseEntry i _).mpr (hentry ▸ Option.some_ne_none ph)
    exact Bool.noConfusion (hallowed.symm.trans (allowedIn_of_errPhase h hr hst))
  · rw [exec_ok_ctx h hr hst]
    exact ctxAfter_phase hentry

end Sys2Proof.Settled
end

section
/-! SUPPORT. What one step keeps and how it ends, the statuses a command can end in, the constraints on a build, runs
without a fault, and the proofs about them (`spec/00_scope.md` R8, R9, R15; `spec/10_state.md` R25, R31;
`spec/60_exceptions.md` R290, R291, R301, R302; `spec/70_reset_and_hazards.md` R331). -/

namespace Sys2Proof.Machine

open Sys2Proof.Claims

/-! ### What the end of a command leaves of the ports and the build -/

section
variable (s : State) (x : Except Failure Effect)

@[simp] theorem respond_build : (s.respond x).build = s.build := by cases x <;> rfl

@[simp] theorem respond_txn : (s.respond x).txn = s.txn := by cases x <;> rfl

@[simp] theorem respond_pending : (s.respond x).pending = s.pending := by cases x <;> rfl

end

/-! ### One step (R15, R290, R301) -/

theorem step_of_idle {s : State} (h : s.pending = []) : step s = .next s := by
  rw [step, h]

theorem step_of_command {s : State} {t : Transaction} {rest : List HostEvent} {i : Instr}
    (hp : s.pending = .command t :: rest) (hd : decode t.cmd = .ok i) : step s = exec i (s.begin t rest) := by
  simp only [step, hp, hd]

theorem step_answers (s : State) (hok : s.build.params.Ok) : ∃ t, step s = .next t := by
  obtain ⟨-, hs⟩ | ⟨rest, -, hs⟩ | ⟨c, rest, i, -, -, hs⟩ | ⟨c, rest, e, -, -, hs⟩ := step_cases s
  · exact ⟨_, hs⟩
  · exact ⟨_, hs⟩
  · obtain ⟨f, hf⟩ | ⟨e, he⟩ := exec_answers i (s.begin c rest) hok
    · exact ⟨_, hs.trans hf⟩
    · exact ⟨_, hs.trans he⟩
  · exact ⟨_, hs.trans (performIllegal_of_ok (s.begin c rest) hok)⟩

theorem step_build {s t : State} (h : step s = .next t) : t.build = s.build := by
  obtain ⟨-, rfl⟩ | ⟨rest, -, rfl⟩ | ⟨c, rest, x, -, rfl⟩ := step_next h
  · rfl
  · rfl
  · exact respond_build _ x

/-- A transaction ends in a response, whatever its word. -/
theorem step_of_transaction {s t : State} {c : Transaction} {rest : List HostEvent}
    (hp : s.pending = .command c :: rest) (h : step s = .next t) : ∃ x, t = (s.begin c rest).respond x := by
  obtain ⟨hq, -⟩ | ⟨rest', hq, -⟩ | ⟨c', rest', x, hq, rfl⟩ := step_next h
  · cases hp.symm.trans hq
  · cases hp.symm.trans hq
  · cases hp.symm.trans hq
    exact ⟨x, rfl⟩

/-! ### The invariant of the context (R25) -/

theorem exec_keeps_inv {i : Instr} {s t : State} (hinv : s.ctx.Inv) (h : exec i s = .next t) : t.ctx.Inv := by
  obtain ⟨-, ⟨f, -, rfl⟩ | ⟨-, f, -, rfl⟩ | ⟨hc, e, he, rfl⟩⟩ := exec_cases h
  · exact hinv
  · exact hinv
  · obtain ⟨hallowed, -⟩ := (precheck_eq_none s i).mp hc
    rw [State.deliver_ctx, rule_ok_ctx hc he]
    exact ctxAfter_inv hinv hallowed

theorem step_keeps_inv {s t : State} (hinv : s.Inv) (h : step s = .next t) : t.Inv := by
  obtain ⟨-, hs⟩ | ⟨rest, -, hs⟩ | ⟨c, rest, i, -, -, hs⟩ | ⟨c, rest, e, -, -, hs⟩ := step_cases s
  all_goals rw [hs] at h
  · cases h
    exact hinv
  · cases h
    exact inv_empty
  · exact exec_keeps_inv (s := s.begin c rest) hinv h
  · rw [guarded_next_respond h]
    exact hinv

/-! ### The statuses a command can end in (R291) -/

theorem mem_of_not_allowedIn {i : Instr} {ph : Phase} (h : i.allowedIn ph = false) :
    i ∈ [Instr.absorb, .finalize, .squeeze, .squeezeblocks] := by
  cases i with
  | absorb | finalize | squeeze | squeezeblocks => decide
  | _ => cases h

/-- Which command can end in which failure: a failed check, or the failure of the command's own rule. -/
theorem exec_failed_cases {i : Instr} {s t : State} {r : Response} {f : Failure} (h : exec i s = .next t)
    (hr : t.response = some r) (hst : r.status = .failed f) :
    (f = .errPhase ∧ i ∈ [Instr.absorb, .finalize, .squeeze, .squeezeblocks]) ∨
    (f = .errCursor ∧ i = .squeezeblocks) ∨ f = .errLength ∨
    (f = .errRange ∧
      i ∈ [Instr.power2round, .decompose, .makeHint, .useHint, .packPk, .packSk, .packSig, .unpackSk]) ∨
    (f = .malformed ∧ i = .unpackSig) := by
  obtain ⟨-, ⟨g, hc, rfl⟩ | ⟨hc, g, hg, rfl⟩ | ⟨-, e, -, rfl⟩⟩ := exec_cases h
  · obtain rfl := Option.some.inj hr
    obtain rfl := Status.failed.inj hst
    obtain ⟨hf, hphase⟩ | ⟨hf, hcursor, -⟩ | ⟨hf, -⟩ := precheck_eq_some hc
    · exact .inl ⟨hf, mem_of_not_allowedIn hphase⟩
    · exact .inr (.inl ⟨hf, (needsFullCursor_iff i).mp hcursor⟩)
    · exact .inr (.inr (.inl hf))
  · obtain rfl := Option.some.inj hr
    obtain rfl := Status.failed.inj hst
    exact .inr (.inr (.inr (rule_error hc hg)))
  · obtain rfl := Option.some.inj hr
    cases hst

/-! ### A `Params` record (R8) -/

theorem P7_iff (p : Params) : p.P7 ↔ ∃ k, p.GAMMA1 = 2 ^ k := by
  refine ⟨fun h => ⟨_, h.symm⟩, ?_⟩
  rintro ⟨k, hk⟩
  rw [Params.P7, hk, Nat.log2_two_pow]

theorem step_of_bad {s : State} {t : Transaction} {rest : List HostEvent} (hbad : ¬ s.build.params.Ok)
    (hp : s.pending = .command t :: rest) : step s = .refused .badParams := by
  cases hd : decode t.cmd with
  | ok i => exact (step_of_command hp hd).trans (exec_of_bad i (s.begin t rest) hbad)
  | error e =>
    have hs : step s = (s.begin t rest).performIllegal := by simp only [step, hp, hd]
    exact hs.trans (guarded_of_bad (s.begin t rest) _ hbad)

/-! ### Runs without a fault (R302) -/

theorem lastIsFault_of_response {s : State} {r : Response} (h : s.response = some r) :
    s.lastIsFault = r.status.isFault := by
  rw [State.lastIsFault, h]

/-- A transaction adds its own fault, and no other, to `FAULT`. -/
theorem respond_fault_eq_or (s : State) (x : Except Failure Effect) :
    (s.respond x).fault = (s.fault || (s.respond x).lastIsFault) := by
  have hr := respond_response s x
  rw [respond_fault hr, lastIsFault_of_response hr, faultAfter]

section
variable {s t : State} (hcmd : s.CommandsOnly) (h : step s = .next t)
include hcmd h

theorem step_commandsOnly : t.CommandsOnly := by
  obtain ⟨-, rfl⟩ | ⟨rest, hp, -⟩ | ⟨c, rest, x, hp, rfl⟩ := step_next h
  · exact hcmd
  · exact absurd rfl (hcmd .reset (hp ▸ List.mem_cons_self))
  · intro e he
    rw [respond_pending] at he
    exact hcmd e (hp ▸ List.mem_cons_of_mem _ he)

theorem step_fault_of_set_of_commandsOnly (hs : s.fault = true) : t.fault = true := by
  refine step_fault_of_set (fun hhead => ?_) h hs
  exact hcmd .reset (List.mem_of_head? hhead) rfl

/-- While `FAULT` and the last response agree, a step without reset keeps them so. -/
theorem step_fault_eq_lastIsFault (hs : s.fault = false) (hlast : s.lastIsFault = false) :
    t.fault = t.lastIsFault := by
  obtain ⟨-, rfl⟩ | ⟨rest, hp, -⟩ | ⟨c, rest, x, -, rfl⟩ := step_next h
  · exact hs.trans hlast.symm
  · exact absurd rfl (hcmd .reset (hp ▸ List.mem_cons_self))
  · rw [respond_fault_eq_or, State.begin_fault, hs, Bool.false_or]

end

theorem runs_fault_of_set {n : Nat} {s t : State} (hcmd : s.CommandsOnly) (h : Runs n s t) (hs : s.fault = true) :
    t.fault = true := by
  induction n generalizing s with
  | zero => exact (show s = t from h) ▸ hs
  | succ n ih =>
    obtain ⟨u, hu, hrest⟩ := h
    exact ih (step_commandsOnly hcmd hu) hrest (step_fault_of_set_of_commandsOnly hcmd hu hs)

theorem FaultFreeRun.fault_eq_false {n : Nat} {s t : State} (h : FaultFreeRun n s t) (hcmd : s.CommandsOnly)
    (hs : s.fault = false) (hlast : s.lastIsFault = false) : t.fault = false := by
  induction h with
  | done s => exact hs
  | step hstep hf _ ih =>
    exact ih (step_commandsOnly hcmd hstep) ((step_fault_eq_lastIsFault hcmd hstep hs hlast).trans hf) hf

theorem faultFreeRun_of_runs {n : Nat} {s t : State} (h : Runs n s t) (hcmd : s.CommandsOnly) (hs : s.fault = false)
    (hlast : s.lastIsFault = false) (ht : t.fault = false) : FaultFreeRun n s t := by
  induction n generalizing s with
  | zero => exact (show s = t from h) ▸ .done s
  | succ n ih =>
    obtain ⟨u, hu, hrest⟩ := h
    have hcmd' := step_commandsOnly hcmd hu
    have hfault : u.fault = false := by
      by_contra hset
      have := runs_fault_of_set hcmd' hrest (Bool.eq_true_of_not_eq_false hset)
      exact Bool.noConfusion (ht.symm.trans this)
    have hf : u.lastIsFault = false := (step_fault_eq_lastIsFault hcmd hu hs hlast).symm.trans hfault
    exact .step hu hf (ih hrest hcmd' hfault hf)

end Sys2Proof.Machine

namespace Sys2Proof.Settled

open Sys2Proof.Machine Sys2Proof.Claims

/-- Settles O1: every command's word decodes to it, and the fields of a word that decodes put together are the word of
what it decodes to. -/
theorem decodeEncodeAgree : Obligations.DecodeEncodeAgree := decode_eq_ok_iff

/-- Settles O3: the decoder evaluated on the seven words. -/
theorem sampleWordsDecode : Obligations.SampleWordsDecode := by
  unfold Obligations.SampleWordsDecode
  decide

/-- Settles O5: the three things a step can find pending. -/
theorem stepPerformsCommand : Obligations.StepPerformsCommand :=
  ⟨fun _ _ _ _ hp hd => step_of_command hp hd, fun s rest hp => ⟨s.applyReset rest, step_of_reset hp, rfl, rfl, rfl⟩,
    fun _ hp => step_of_idle hp⟩

/-- Settles O7: `Context.empty` meets the `EMPTY` row. -/
theorem resetMeetsInv : Obligations.ResetMeetsInv := ⟨inv_empty, fun _ => inv_empty⟩

/-- Settles O8: a failure and the idle step keep the context, a reset empties it, and every rule leaves a context that
meets R25's row of the phase it leaves. -/
theorem stepKeepsInv : Obligations.StepKeepsInv := fun _ _ => step_keeps_inv

/-- Settles O9: every case of a step answers, and a transaction ends in a response. -/
theorem everyStepAnswers : Obligations.EveryStepAnswers := by
  refine ⟨step_answers, fun _ _ => step_build, fun s t c rest hp h => ?_⟩
  obtain ⟨x, rfl⟩ := step_of_transaction hp h
  exact ⟨respond_txn _ x, respond_pending _ x, _, respond_response _ x⟩

/-- Settles O13: the three checks of R85 and the failures of the rules are all the ways a command can fail. -/
theorem statusTable : Obligations.StatusTable := by
  refine ⟨rfl, rfl, rfl, rfl, rfl, rfl, rfl, fun i s t r h hr => ?_⟩
  have hcases := fun f => exec_failed_cases (f := f) h hr
  refine ⟨fun hst => ?_, fun hst => ?_, fun hst => ?_, fun hst => ?_, fun hst => ?_⟩
  all_goals simpa using hcases _ hst

/-- Settles O17: P1 to P7 in the words of R8, and the refusal that every end of a command makes of a bad record. -/
theorem badParamsRefused : Obligations.BadParamsRefused := by
  refine ⟨fun p => ?_, exec_of_bad, fun s t rest => step_of_bad⟩
  rw [Nat.odd_iff, Nat.dvd_iff_mod_eq_zero, Nat.dvd_iff_mod_eq_zero, ← P7_iff]
  rfl

/-- Settles O18: `ceilLog2` is the least exponent, and the table of R9 evaluated at the three columns. -/
theorem derivedSizes : Obligations.DerivedSizes :=
  ⟨ceilLog2_le_iff, fun p => ⟨rfl, p.T0BITS_eq_D, rfl, rfl, rfl, rfl, rfl⟩, by decide, by decide, by decide, by decide,
    by decide⟩

/-- Settles O19: without a reset nothing clears `FAULT`, so it is 0 at the end exactly when no response set it. -/
theorem faultFreeRuns : Obligations.FaultFreeRuns := fun _ _ _ hs hlast hcmd hrun =>
  ⟨fun h => h.fault_eq_false hcmd hs hlast, faultFreeRun_of_runs hrun hcmd hs hlast⟩

/-- Settles O21: in `EMPTY` the four commands meet a dash of R26's table, and `RELEASE` leaves `Context.empty`, the
context of the reset state. -/
theorem firstCommandsAfterReset : Obligations.FirstCommandsAfterReset := by
  rintro b t s hok rfl
  refine ⟨fun i hi => faults_of_dash hok ?_, fun hdin hcin => ⟨answers_rdstat hok hdin hcin, ?_, ?_, ?_⟩,
    fun hcin => ⟨?_, ?_⟩, fun u hu hdin hcin => (performs_release _).answers_of_bare hu hdin hcin rfl⟩
  · simp only [List.mem_cons, List.not_mem_nil, or_false] at hi
    obtain rfl | rfl | rfl | rfl := hi <;> rfl
  · exact (performs_release _).answers_of_bare hok hdin hcin rfl
  · exact ⟨_, (performs_init (alg := .shake128) (by decide) _).answers_of_bare hok hdin hcin rfl⟩
  · exact ⟨_, (performs_init (alg := .shake256) (by decide) _).answers_of_bare hok hdin hcin rfl⟩
  · exact ⟨_, (performs_absorbOnce (alg := .shake128) (by decide) _).answers_of_data hok hcin rfl⟩
  · exact ⟨_, (performs_absorbOnce (alg := .shake256) (by decide) _).answers_of_data hok hcin rfl⟩

/-- Settles O23: the two's complement reading, and that `toPort` and `BitVec.toInt` undo each other. -/
theorem coefficientPort : Obligations.CoefficientPort := by
  refine ⟨fun w => ?_, fun c hlo hhi => toInt_toPort c ⟨hlo, hhi⟩, toPort_toInt⟩
  rw [BitVec.toInt_eq_toNat_cond]
  split <;> split <;> omega

end Sys2Proof.Settled
end

section
/-! SUPPORT. The bijection of the permutation core and its tables, absorbing within one block, whole-block squeezing,
and the proofs about them (`spec/40_permutation.md` R123 to R127; `spec/41_sponge.md` R141, R151; `spec/30_encoding.md` R93;
`spec/42_hash_xof.md` R171). -/

namespace Sys2Proof.Machine

open Sys2Proof.Claims

/-! ### The bijection (R127) -/

theorem foldl_injective {α β : Type} {f : α → β → α} (hf : ∀ b, Function.Injective fun a => f a b) (l : List β) :
    Function.Injective fun a => l.foldl f a := by
  induction l with
  | nil => exact fun _ _ h => h
  | cons b l ih => exact ih.comp (hf b)

theorem keccakF_injective : Function.Injective keccakF := by
  rw [funext keccakF_eq_foldl_keccakRound]
  exact foldl_injective keccakRound_injective _

theorem finite_lanes : Finite Lanes := by
  refine Finite.of_injective (β := Fin 25 → Fin (2 ^ 64)) (fun a i => a[i].toFin) fun a b h => ?_
  refine Vector.ext fun i hi => ?_
  exact BitVec.eq_of_toFin_eq (congrFun h ⟨i, hi⟩)

/-! ### `ABSORB` within one block (R51, R141) -/

/-- XORing `d` in behind the cursor changes the bytes it covers and no other. -/
theorem memRead_xorBlock_zeros_append (a : Lanes) (d : List Byte) (n j : Nat) (hj : j < 200) :
    memRead (xorBlock a (zeros n ++ d)) j =
      if n ≤ j ∧ j < n + d.length then memRead a j ^^^ d.getD (j - n) 0 else memRead a j := by
  rw [memRead_xorBlock a _ j hj, getD_zeros_append]
  split
  · next hn =>
    split
    · rfl
    · rw [List.getD_eq_default _ _ (by omega)]
      exact BitVec.xor_zero
  · next hn =>
    rw [if_neg fun h => hn h.1]
    exact BitVec.xor_zero

theorem answers_absorb {s : State} (hok : s.build.params.Ok) (hp : s.ctx.phase = .absorbing) (hcin : s.txn.cin = []) :
    Answers .absorb s (absorbBytes s.ctx s.txn.din) [] [] :=
  (performs_absorb hp).answers_of_data hok hcin rfl

/-! ### `SQUEEZEBLOCKS` (R151, R297) -/

theorem allowedIn_squeezeblocks {ph : Phase} (h : ph = .finalized ∨ ph = .squeezing) :
    Instr.squeezeblocks.allowedIn ph = true := by
  obtain rfl | rfl := h <;> rfl

section
variable {s : State} (hok : s.build.params.Ok) (hph : s.ctx.phase = .finalized ∨ s.ctx.phase = .squeezing)
include hok hph

theorem faults_squeezeblocks_of_cursor (hpos : s.ctx.pos ≠ s.ctx.alg.rate) : Faults .squeezeblocks s .errCursor :=
  faults_of_cursor hok (allowedIn_squeezeblocks hph) rfl hpos

variable (hpos : s.ctx.pos = s.ctx.alg.rate)
include hpos

theorem faults_squeezeblocks_of_operands (h : s.txn.din ≠ [] ∨ s.txn.cin ≠ []) :
    Faults .squeezeblocks s .errLength :=
  faults_of_length hok (allowedIn_squeezeblocks hph) (fun _ => hpos)
    (h.imp (fun hdin => ⟨0, rfl, mt List.length_eq_zero_iff.mp hdin⟩) (mt List.length_eq_zero_iff.mp))

variable (hdin : s.txn.din = []) (hcin : s.txn.cin = [])
include hdin hcin

theorem answers_squeezeblocks :
    Answers .squeezeblocks s { (squeezeBlocks s.txn.arg s.ctx).2 with phase := .squeezing }
      (squeezeBlocks s.txn.arg s.ctx).1 [] :=
  answers_of (i := .squeezeblocks) hok (allowedIn_squeezeblocks hph) (fun _ => hpos)
    (fun _ hn => Option.some.inj hn ▸ congrArg List.length hdin) (congrArg List.length hcin) rfl

/-- `SQUEEZE` of whole blocks from a block boundary delivers what `SQUEEZEBLOCKS` does. -/
theorem answers_squeeze_blocks :
    Answers .squeeze (s.withArg (s.txn.arg * s.ctx.alg.rate))
      { (squeezeBlocks s.txn.arg s.ctx).2 with phase := .squeezing } (squeezeBlocks s.txn.arg s.ctx).1 [] := by
  rw [squeezeBlocks_eq_squeezeBytes s.txn.arg s.ctx hpos]
  exact (performs_squeeze hph).answers_of_bare (s := s.withArg (s.txn.arg * s.ctx.rate)) hok hdin hcin rfl

end

/-! ### One-shot and incremental (R171) -/

theorem squeezeBytes_of_padded (alg : Alg) (m : List Byte) (n : Nat) (ph : Phase) :
    (squeezeBytes n { lanes := finalLanes alg m, pos := alg.rate, phase := ph, alg := alg }).1 = xofBytes alg m n := by
  have h := xofBody_eq { Context.empty with phase := ph } alg m n
  rw [xofBody_eq_xofBytes, doAbsorbOnce_eq] at h
  exact h.symm

end Sys2Proof.Machine

namespace Sys2Proof.Settled

open Sys2Proof.Machine Sys2Proof.Claims

/-- Settles O26: each table evaluated against its generating rule. -/
theorem permutationTables : Obligations.PermutationTables :=
  ⟨by decide, rhoOffsets_eq_rhoTable, rfl, by decide +kernel, by decide +kernel, by decide, by decide⟩

/-- Settles O27: every round is injective, so `KeccakF` is, on a finite set. -/
theorem keccakIsBijective : Obligations.KeccakIsBijective :=
  have := finite_lanes
  Finite.injective_iff_bijective.mp keccakF_injective

/-- Settles O31: the data is XORed in behind the cursor, and a block it fills is permuted at once. -/
theorem absorbBytewise : Obligations.AbsorbBytewise := by
  intro s hok hinv hph hcin _
  have hans := answers_absorb hok hph hcin
  refine ⟨xorBlock s.ctx.lanes (zeros s.ctx.pos ++ s.txn.din), memRead_xorBlock_zeros_append _ _ _, fun hlt => ?_,
    fun hfull => ?_⟩
  · rwa [absorbBytes_within s.ctx _ hlt] at hans
  · rwa [absorbBytes_fill s.ctx _ hfull (hinv.pos_lt_rate hph)] at hans

/-- Settles O34: the run of the three commands, and the padded message that it absorbs from the zero state. -/
theorem paddedMessage : Obligations.PaddedMessage := by
  refine ⟨length_padded, fun s w alg m hok hw => ?_⟩
  obtain ⟨i, hi, hd⟩ : ∃ i, (i, alg) ∈ [(Instr.initShake128, Alg.shake128), (.initShake256, .shake256)] ∧
      decode w = .ok i := by
    obtain ⟨rfl, rfl⟩ | ⟨rfl, rfl⟩ : (w = 0x00000010 ∧ alg = .shake128) ∨ (w = 0x00000110 ∧ alg = .shake256) := by
      simpa using hw
    · exact ⟨.initShake128, by decide, decode_encode .initShake128⟩
    · exact ⟨.initShake256, by decide, decode_encode .initShake256⟩
  have hphase := absorbBytes_phase (initContext alg) m
  obtain ⟨t, hrun, hctx, hfault⟩ := ((leads_init hok hd hi s.ctx).trans
    ((leads_absorb hok rfl m).trans (leads_finalize hok hphase (rest := [])))).run
  exact ⟨t, hrun, hctx.trans (finalizeContext_absorbBytes_initContext alg m), hfault⟩

/-- Settles O38: the checks of R85 in their order, the closed form of the loop, and the same bytes by `SQUEEZE`. -/
theorem squeezeblocksRule : Obligations.SqueezeblocksRule := by
  refine ⟨decode_encode .squeezeblocks, fun s hok => ⟨fun hph => faults_of_dash hok ?_, fun hph =>
    ⟨faults_squeezeblocks_of_cursor hok hph, fun hpos =>
      ⟨faults_squeezeblocks_of_operands hok hph hpos, fun hdin hcin => ⟨_, rfl, ?_⟩⟩⟩⟩⟩
  · obtain hph | hph := hph <;> rw [hph] <;> rfl
  · have hblocks := answers_squeezeblocks hok hph hpos hdin hcin
    have hbytes := answers_squeeze_blocks hok hph hpos hdin hcin
    rw [squeezeBlocks_eq] at hblocks hbytes
    exact ⟨hblocks, hbytes⟩

/-- Settles O41: both deliver the first `n` bytes of the stream after the padded message. -/
theorem oneShotEqualsIncremental : Obligations.OneShotEqualsIncremental := by
  intro s wshot wonce m n hok hw
  obtain ⟨alg, i, j, hi, hj, hdi, hdj⟩ : ∃ alg i j,
      (i, alg) ∈ [(Instr.shake128, Alg.shake128), (.shake256, .shake256)] ∧
      (j, alg) ∈ [(Instr.absorbOnceShake128, Alg.shake128), (.absorbOnceShake256, .shake256)] ∧
      decode wshot = .ok i ∧ decode wonce = .ok j := by
    obtain ⟨rfl, rfl⟩ | ⟨rfl, rfl⟩ :
        (wshot = 0x00000020 ∧ wonce = 0x00000013) ∨ (wshot = 0x00000120 ∧ wonce = 0x00000113) := by
      simpa using hw
    · exact ⟨.shake128, .shake128, .absorbOnceShake128, by decide, by decide, decode_encode .shake128,
        decode_encode .absorbOnceShake128⟩
    · exact ⟨.shake256, .shake256, .absorbOnceShake256, by decide, by decide, decode_encode .shake256,
        decode_encode .absorbOnceShake256⟩
  obtain ⟨t, ht, -, htr, -⟩ := (performs_xof hi s.ctx.phase).step_issue
    (s := { s with pending := [issue wshot n m] }) hok hdi rfl nofun rfl
  obtain ⟨v, hv, hvc, -, hvp, hvb, -⟩ := (performs_absorbOnce hj s.ctx.phase).step_issue
    (s := { s with pending := [issue wonce 0 m, issue 0x00000014 n []] }) hok hdj rfl nofun (absorbOnceRule_eq alg _)
  obtain ⟨u, hu, -, hur, -⟩ := step_squeeze (hvb ▸ hok) (.inl (congrArg Context.phase hvc)) hvp
  rw [hvc, squeezeBytes_of_padded] at hur
  rw [xofBody_eq_xofBytes] at htr
  exact ⟨t, u, ⟨t, ht, rfl⟩, ⟨v, hv, u, hu, rfl⟩, htr.trans hur.symm, _, htr, rfl⟩

end Sys2Proof.Settled
end

section
/-! SUPPORT. The results of the rounding unit as integers, the meaning of the hint, and the proofs about them
(`spec/43_rounding.md` R193, R196, R200, R203). -/

namespace Sys2Proof.Machine

open Sys2Proof.Claims

/-! ### `POWER2ROUND` as a centered remainder (R193 (d)) -/

theorem power2round_eq_modPM {p : Params} (h2 : p.P2) {a : Int} (h0 : 0 ≤ a) :
    (power2round p a).1 = modPM a (2 ^ p.D) := by
  have hD : (2 : Int) ^ p.D = 2 * 2 ^ (p.D - 1) := by exact_mod_cast two_pow_D p h2.1
  obtain ⟨hsum, hlo, hhi, -⟩ := power2round_spec p h2 a h0
  obtain ⟨q, hq, hlo', hhi'⟩ := modPM_spec a (2 ^ (p.D - 1)) (by positivity)
  rw [hD] at hsum ⊢
  exact (centered_unique (hsum.symm.trans hq) hlo hhi hlo' hhi').2

/-! ### Integers on the port (R31) -/

theorem toInt_ofInt_of_onPort {x : Int} (h : OnPort x) : (BitVec.ofInt 32 x).toInt = x := by
  rw [← toPort_of_range x h, toInt_toPort x h]

/-- The hint is a bit. -/
theorem makeHint_zero_or_one (p : Params) (a0 a1 : Int) : makeHint p a0 a1 = 0 ∨ makeHint p a0 a1 = 1 := by
  unfold makeHint
  split
  · exact .inr rfl
  · exact .inl rfl

theorem toInt_toPort_makeHint (p : Params) (a0 a1 : Int) : (toPort (makeHint p a0 a1)).toInt = makeHint p a0 a1 := by
  obtain h | h := makeHint_zero_or_one p a0 a1 <;> rw [h] <;> rfl

/-! ### High parts and shifted low parts -/

section
variable {p : Params} (h1 : p.P1) (h3 : p.P3) {r r0 r1 : Int} (h0 : 0 ≤ r) (hQ : r < p.Q)
  (h : Decomposes p r r0 r1)
include h1 h3 h0 hQ h

/-- The two results of `Decompose`, whichever branch is taken. -/
theorem decomposes_range : 0 ≤ r1 ∧ r1 < p.M ∧ -(p.GAMMA2 : Int) ≤ r0 ∧ r0 ≤ p.GAMMA2 := by
  have hM := two_le_M p h3
  obtain ⟨-, -, hlo, hhi, hr1, hr1'⟩ | ⟨-, hr1, -, hlo, hhi⟩ := decomposes_branches h1 h3 h0 hQ h <;> omega

/-- A low part moved by at most `GAMMA2` still fits the port: `4 * GAMMA2 < Q`. -/
theorem onPort_low_add {z : Int} (hz : -(p.GAMMA2 : Int) ≤ z) (hz' : z ≤ p.GAMMA2) : OnPort (r0 + z) := by
  obtain ⟨-, -, hlo, hhi⟩ := decomposes_range h1 h3 h0 hQ h
  have hM := two_le_M p h3
  have hlt := Q_lt p h1
  have heq := Q_eq p h1 h3
  have hmul : (2 : Int) * (2 * p.GAMMA2) ≤ p.M * (2 * p.GAMMA2) := Int.mul_le_mul_of_nonneg_right hM (by omega)
  unfold OnPort
  omega

end

end Sys2Proof.Machine

namespace Sys2Proof.Settled

open Sys2Proof.Machine Sys2Proof.Claims

/-- Settles O44: R192 rounds to the nearest multiple of `2^D`, a tie downwards; the rest is the centered remainder. -/
theorem power2roundProperties : Obligations.Power2roundProperties := by
  intro s w hok hdin hcin h0 hQ
  have ⟨h1, h2, _⟩ := hok
  obtain ⟨hsum, hlo, hhi, ha1⟩ := power2round_spec s.build.params h2 w.toInt h0
  exact ⟨_, _, _, answers_power2round hok hdin hcin ⟨h0, hQ⟩, coeffVals_toPorts_two (power2round_fits _ h1 h2 _ h0 hQ),
    hsum, hlo, hhi, ha1, power2round_le _ h2 _ h0 hQ, power2round_eq_modPM h2 h0⟩

/-- Settles O46: the two branches of R194 and their intervals; modulo `Q` the wrap-around branch is the other one. -/
theorem decomposeProperties : Obligations.DecomposeProperties := by
  intro s w hok hdin hcin h0 hQ
  have ⟨h1, _, h3, _⟩ := hok
  have hspec := decompose_spec s.build.params h3 w.toInt
  refine ⟨_, _, _, answers_decompose hok hdin hcin ⟨h0, hQ⟩,
    coeffVals_toPorts_two (decomposes_fits h1 h3 h0 hQ hspec), ?_⟩
  generalize (decompose s.build.params w.toInt).1 = a0 at hspec ⊢
  generalize (decompose s.build.params w.toInt).2 = a1 at hspec ⊢
  obtain ⟨ha1, hM, -⟩ := decomposes_range h1 h3 h0 hQ hspec
  obtain ⟨hlt, hsum, hlo, hhi, -⟩ | ⟨hge, rfl, rfl, hlo, hhi⟩ := decomposes_branches h1 h3 h0 hQ hspec
  · refine ⟨⟨0, by omega⟩, ha1, by omega, fun _ => ⟨hsum.symm, hlo, hhi⟩, fun hge => ?_, ?_⟩
    · omega
    · constructor <;> omega
  · refine ⟨⟨-1, by omega⟩, ha1, by omega, fun hlt => ?_, fun _ => ⟨rfl, rfl, hlo, hhi⟩, ?_⟩
    · omega
    · constructor <;> omega

/-- Settles O48: the rule delivers `makeHint`, which compares the two high parts. -/
theorem hintMeaning : Obligations.HintMeaning := by
  intro s w0 w1 b0 b1 hok hdin hcin h0 hM hrange hdec
  have ⟨h1, _, h3, _⟩ := hok
  have hans := answers_makeHint hok hdin hcin ⟨h0, hM⟩
  rw [makeHint_meaning s.build.params h1 h3 _ _ b0 b1 h0 hM hrange hdec] at hans
  refine ⟨fun hne => ?_, fun heq => ?_⟩
  · rwa [if_neg hne] at hans
  · rwa [if_pos heq] at hans

/-- Settles O50: the operands cross the port, the hint is a bit, and `useHint` of it is the high part of `r + z`. -/
theorem hintRoundTrip : Obligations.HintRoundTrip := by
  intro s r z r0 r1 b0 b1 hok h0 hQ hz hz' hr hb
  have ⟨h1, _, h3, _⟩ := hok
  obtain ⟨hlo, hM, -⟩ := decomposes_range h1 h3 h0 hQ hr
  have hQpos : (0 : Int) < s.build.params.Q := h0.trans_lt hQ
  have hfits := (decomposes_fits h1 h3 (Int.emod_nonneg _ hQpos.ne') (Int.emod_lt_of_pos _ hQpos) hb).2
  have hr0 := toInt_ofInt_of_onPort (onPort_low_add h1 h3 h0 hQ hr hz hz')
  have hr1 : (BitVec.ofInt 32 r1).toInt = r1 := toInt_ofInt_of_onPort (decomposes_fits h1 h3 h0 hQ hr).2
  have hrr : (BitVec.ofInt 32 r).toInt = r := toInt_ofInt_of_onPort ⟨by omega, hQ.trans (Q_lt _ h1)⟩
  refine ⟨toPort (makeHint s.build.params (r0 + z) r1), ?_, ?_⟩
  · have hans := answers_makeHint
      (s := { s with txn := { s.txn with din := [], cin := [BitVec.ofInt 32 (r0 + z), BitVec.ofInt 32 r1] } })
      hok rfl rfl (by rw [hr1]; exact ⟨hlo, hM⟩)
    rwa [hr0, hr1] at hans
  · have hans := answers_useHint
      (s := { s with txn := { s.txn with din := [], cin :=
        [BitVec.ofInt 32 r, toPort (makeHint s.build.params (r0 + z) r1)] } })
      hok rfl rfl (by rw [hrr, toInt_toPort_makeHint]; exact ⟨⟨h0, hQ⟩, makeHint_zero_or_one _ _ _⟩)
    rw [hrr, toInt_toPort_makeHint, useHint_makeHint _ h1 h3 r z r0 r1 b0 b1 h0 hQ hz hz' hr hb] at hans
    rwa [← toPort_of_range b1 hfits]

end Sys2Proof.Settled
end

section
/-! SUPPORT. The packing commands and their inverses: what an unpacking rule that succeeds has read, that the vectors it
delivers are operands the packing rule accepts, and the proofs of the round trips (`spec/44_packing_keys.md` R221, R238;
`spec/45_packing_sig.md` R261, R265, R268, R270). -/

namespace Sys2Proof.Machine

open Sys2Proof.Claims

/-! ### What a command that answers `OK` has done -/

theorem bind_eq_ok_iff {ε α β : Type} {x : Except ε α} {f : α → Except ε β} {b : β} :
    x >>= f = .ok b ↔ ∃ a, x = .ok a ∧ f a = .ok b := by
  cases x with
  | ok a => exact ⟨fun h => ⟨a, rfl, h⟩, fun ⟨_, ha, hb⟩ => Except.ok.inj ha ▸ hb⟩
  | error e => exact ⟨nofun, nofun⟩

/-- `s` with the operands `din` and `cin` in the transaction being performed. -/
def State.withOperands (s : State) (din : List Byte) (cin : List Coeff) : State :=
  { s with txn := { s.txn with din := din, cin := cin } }

section
variable (s : State) (din : List Byte) (cin : List Coeff)

@[simp] theorem State.withOperands_build : (s.withOperands din cin).build = s.build := rfl

@[simp] theorem State.withOperands_din : (s.withOperands din cin).txn.din = din := rfl

@[simp] theorem State.withOperands_cin : (s.withOperands din cin).txn.cin = cin := rfl

end

theorem keep_inj {s : State} {d d' : List Byte} {c c' : List Coeff} (h : s.keep d c = s.keep d' c') :
    d = d' ∧ c = c' := by
  obtain ⟨-, hd, hc⟩ := keep_ctx h
  exact ⟨hd.symm, hc.symm⟩

section
variable {i j : Instr} {m n m' n' : Nat} {s t : State} {r : Response}

/-- A stateless command that answers `OK` got operands of the right lengths, and its rule handed the context back. -/
theorem TakesOperands.of_ok (h : TakesOperands i s.build.params m n) (hexec : exec i s = .next t)
    (hr : t.response = some r) (hst : r.status = .ok) :
    s.build.params.Ok ∧ s.txn.din.length = m ∧ s.txn.cin.length = n ∧ ruleOf i s = s.keep r.dout r.cout := by
  obtain ⟨hok, -⟩ := exec_cases hexec
  obtain ⟨hc, e, he, rfl⟩ := exec_next_ok hexec hr hst
  obtain ⟨hdin, hcin⟩ := lengths_of_precheck hc
  have hctx : e.ctx = s.ctx := (rule_ok_ctx hc he).trans (ctxAfter_of_stateless s h.stateless)
  refine ⟨hok, hdin m h.din, hcin.trans h.cin, he.trans ?_⟩
  rw [State.keep, ← hctx]

/-- Where the rule of `j` takes what the rule of `i` delivers back to the operands of `i`, so do the commands. -/
theorem TakesOperands.answers_back (hi : TakesOperands i s.build.params m n) (hj : TakesOperands j s.build.params m' n')
    (hexec : exec i s = .next t) (hr : t.response = some r) (hst : r.status = .ok)
    (hlen : r.dout.length = m' ∧ r.cout.length = n')
    (hrule : s.build.params.Ok → s.txn.din.length = m → s.txn.cin.length = n →
      ruleOf i s = s.keep r.dout r.cout → ruleOf j (s.withOperands r.dout r.cout) = s.keep s.txn.din s.txn.cin) :
    Answers j (s.withOperands r.dout r.cout) s.ctx s.txn.din s.txn.cin := by
  obtain ⟨hok, hdin, hcin, hkeep⟩ := hi.of_ok hexec hr hst
  exact hj.answers (s := s.withOperands r.dout r.cout) hok hlen.1 hlen.2 (hrule hok hdin hcin hkeep)

end

/-! ### Vectors (R221, R225) -/

theorem length_packVec {p : Params} {c : Codec} {v : List Int} {rows : Nat} {b : List Byte}
    (hl : v.length = rows * p.N) (h : packVec p c v rows = .ok b) : b.length = rows * p.polyBytes c.width := by
  obtain ⟨-, rfl⟩ := packVec_eq_ok h
  exact length_packedRows p c v rows hl

/-- The codec's bound lies in the signed 32-bit integers. -/
def Codec.OnPort (c : Codec) : Prop := ∀ x, c.inBound x = true → Claims.OnPort x

/-- A vector that unpacks has the length of its rows, crosses the port, and packs back to the same bytes. -/
theorem unpackVec_delivers {p : Params} {c : Codec} {b : List Byte} {rows : Nat} {v : List Int} (hc : c.Good)
    (hport : c.OnPort) (h4 : p.P4) (hl : b.length = rows * p.polyBytes c.width) (h : unpackVec p c b rows = .ok v) :
    v.length = rows * p.N ∧ (∀ x ∈ v, Claims.OnPort x) ∧ packVec p c v rows = .ok b := by
  obtain ⟨hlen, hb, -⟩ := unpackVec_back hc h4 hl h
  exact ⟨hlen, fun x hx => hport x (List.all_eq_true.mp hb x hx), packVec_unpackVec hc h4 hl h⟩

theorem t1Codec_onPort : t1Codec.OnPort := by
  intro x hx
  have hbound := (t1_inBound_iff x).mp hx
  unfold Claims.OnPort
  omega

theorem t0Codec_onPort {p : Params} (h1 : p.P1) (h2 : p.P2) : (t0Codec p).OnPort := by
  intro x hx
  have hbound := (t0_inBound_iff p x).mp hx
  have hD := two_pow_D p h2.1
  have hlt : 2 ^ p.D < p.Q ∧ p.Q < 2 ^ 31 := ⟨h2.2.1, h1.2.2⟩
  have hcast : ((2 ^ (p.D - 1) : Nat) : Int) = 2 ^ (p.D - 1) := Nat.cast_pow 2 _
  unfold Claims.OnPort
  omega

theorem etaCodec_onPort {p : Params} (h : p.ETA < 2 ^ 31) : (etaCodec p).OnPort := by
  intro x hx
  have hbound := (eta_inBound_iff p x).mp hx
  unfold Claims.OnPort
  omega

theorem zCodec_onPort {p : Params} (h : p.GAMMA1 < 2 ^ 31) : (zCodec p).OnPort := by
  intro x hx
  have hbound := (z_inBound_iff p x).mp hx
  unfold Claims.OnPort
  omega

/-! ### The public key (R232, R233) -/

section
variable {s : State} {e : Effect}

theorem packPkRule_eq_ok_iff : packPkRule s = .ok e ↔
    ∃ b, packVec s.build.params t1Codec (coeffVals s.txn.cin) s.build.params.K = .ok b ∧
      s.keep (s.txn.din ++ b) [] = .ok e :=
  bind_eq_ok_iff

theorem unpackPkRule_eq_ok_iff : unpackPkRule s = .ok e ↔
    ∃ v, unpackVec s.build.params t1Codec (s.txn.din.drop s.build.params.SEEDBYTES) s.build.params.K = .ok v ∧
      s.keep (s.txn.din.take s.build.params.SEEDBYTES) (toPorts v) = .ok e :=
  bind_eq_ok_iff

end

section
variable {s : State} {d : List Byte} {c : List Coeff} (hok : s.build.params.Ok)
include hok

theorem unpackPkRule_of_packPkRule (hdin : s.txn.din.length = s.build.params.SEEDBYTES)
    (hcin : s.txn.cin.length = s.build.params.K * s.build.params.N) (h : packPkRule s = s.keep d c) :
    unpackPkRule (s.withOperands d c) = s.keep s.txn.din s.txn.cin := by
  have ⟨_, _, _, h4, _⟩ := hok
  obtain ⟨b, hb, hkeep⟩ := packPkRule_eq_ok_iff.mp h
  obtain ⟨rfl, rfl⟩ := keep_inj hkeep
  refine unpackPkRule_eq_ok_iff.mpr ⟨coeffVals s.txn.cin, ?_, ?_⟩
  · rw [State.withOperands_din, State.withOperands_build, ← hdin, List.drop_left]
    exact unpackVec_packVec t1Codec_good h4 ((length_coeffVals _).trans hcin) hb
  · rw [State.withOperands_din, State.withOperands_build, ← hdin, List.take_left, toPorts_coeffVals]
    rfl

/-- What `UNPACK_PK` delivers: the seed, and the coefficients of the packed vector behind it. -/
theorem unpackPkRule_delivers (hdin : s.txn.din.length = s.build.params.PKBYTES) (h : unpackPkRule s = s.keep d c) :
    d = s.txn.din.take s.build.params.SEEDBYTES ∧
      packVec s.build.params t1Codec (coeffVals c) s.build.params.K
        = .ok (s.txn.din.drop s.build.params.SEEDBYTES) := by
  have ⟨_, _, _, h4, _⟩ := hok
  obtain ⟨v, hv, hkeep⟩ := unpackPkRule_eq_ok_iff.mp h
  obtain ⟨rfl, rfl⟩ := keep_inj hkeep
  have hl : (s.txn.din.drop s.build.params.SEEDBYTES).length = s.build.params.K * s.build.params.POLYT1BYTES := by
    rw [List.length_drop, hdin, Params.PKBYTES, Nat.add_sub_cancel_left]
  obtain ⟨-, hport, hpack⟩ := unpackVec_delivers t1Codec_good t1Codec_onPort h4 hl hv
  exact ⟨rfl, (coeffVals_toPorts v hport).symm ▸ hpack⟩

theorem packPkRule_of_unpackPkRule (hdin : s.txn.din.length = s.build.params.PKBYTES) (hcin : s.txn.cin.length = 0)
    (h : unpackPkRule s = s.keep d c) : packPkRule (s.withOperands d c) = s.keep s.txn.din s.txn.cin := by
  obtain ⟨rfl, hpack⟩ := unpackPkRule_delivers hok hdin h
  refine packPkRule_eq_ok_iff.mpr ⟨_, hpack, ?_⟩
  rw [State.withOperands_din, List.take_append_drop, List.length_eq_zero_iff.mp hcin]
  rfl

end

/-! ### The secret key (R234 to R236) -/

/-- The byte fields of `DIN` beside three packed vectors. -/
def skFieldsOf (p : Params) (d e0 e1 e2 : List Byte) : SkFields :=
  { seed := slice d 0 p.SEEDBYTES, tr := slice d p.SEEDBYTES p.TRBYTES
    key := slice d (p.SEEDBYTES + p.TRBYTES) p.SEEDBYTES, e0 := e0, e1 := e1, e2 := e2 }

/-- The byte fields of a packed secret key, as `DIN` of `PACK_SK` and `DOUT` of `UNPACK_SK` hold them. -/
def SkFields.bytes (f : SkFields) : List Byte := f.seed ++ f.tr ++ f.key

/-- Every field has its length of R96. -/
structure SkFields.Sized (p : Params) (f : SkFields) : Prop where
  seed : f.seed.length = p.SEEDBYTES
  tr : f.tr.length = p.TRBYTES
  key : f.key.length = p.SEEDBYTES
  e0 : f.e0.length = p.K * p.POLYT0BYTES
  e1 : f.e1.length = p.L * p.POLYETABYTES
  e2 : f.e2.length = p.K * p.POLYETABYTES

theorem SkFields.Sized.skSplit_skBuffer {p : Params} {f : SkFields} (h : f.Sized p) (o : SkOrder) :
    skSplit p o (skBuffer o f) = f :=
  Machine.skSplit_skBuffer p o f h.seed h.tr h.key h.e0 h.e1 h.e2

theorem sized_skSplit {p : Params} (o : SkOrder) {b : List Byte} (h : b.length = p.SKBYTES) :
    (skSplit p o b).Sized p := by
  unfold Params.SKBYTES Params.skSeedBytes at h
  rw [Nat.add_mul] at h
  cases o <;> constructor <;> simp only [skSplit, Params.skSeedBytes, length_slice, h] <;> omega

/-- The three byte fields cut out of their concatenation. -/
theorem skFieldsOf_bytes {p : Params} {f : SkFields} (h : f.Sized p) : skFieldsOf p f.bytes f.e0 f.e1 f.e2 = f := by
  have hseed : slice f.bytes 0 p.SEEDBYTES = f.seed := by
    rw [SkFields.bytes, List.append_assoc, slice_prefix _ _ _ h.seed]
  have htr : slice f.bytes p.SEEDBYTES p.TRBYTES = f.tr := slice_mid _ _ _ _ _ h.seed h.tr
  have hkey : slice f.bytes (p.SEEDBYTES + p.TRBYTES) p.SEEDBYTES = f.key := by
    rw [SkFields.bytes, slice_skip _ _ _ _ _ (by rw [List.length_append, h.seed, h.tr]) le_rfl, Nat.sub_self,
      slice_zero_all _ _ h.key.le]
  rw [skFieldsOf, hseed, htr, hkey]

section
variable {p : Params} {d e0 e1 e2 : List Byte} (hd : d.length = 2 * p.SEEDBYTES + p.TRBYTES)
include hd

theorem bytes_skFieldsOf : (skFieldsOf p d e0 e1 e2).bytes = d := by
  have h0 := slice_append_slice d 0 p.SEEDBYTES p.TRBYTES
  have h1 := slice_append_slice d 0 (p.SEEDBYTES + p.TRBYTES) p.SEEDBYTES
  rw [Nat.zero_add] at h0 h1
  rw [SkFields.bytes, skFieldsOf, h0, h1]
  exact slice_zero_all _ _ (by omega)

theorem sized_skFieldsOf (h0 : e0.length = p.K * p.POLYT0BYTES) (h1 : e1.length = p.L * p.POLYETABYTES)
    (h2 : e2.length = p.K * p.POLYETABYTES) : (skFieldsOf p d e0 e1 e2).Sized p := by
  refine ⟨?_, ?_, ?_, h0, h1, h2⟩ <;> simp only [skFieldsOf, length_slice, hd] <;> omega

end

/-- The three vectors cut out of their concatenation. -/
theorem sk_split_append {p : Params} {t0 s1 s2 : List Int} (h0 : t0.length = p.K * p.N) (h1 : s1.length = p.L * p.N)
    (h2 : s2.length = p.K * p.N) :
    skT0 p (t0 ++ s1 ++ s2) = t0 ∧ skS1 p (t0 ++ s1 ++ s2) = s1 ∧ skS2 p (t0 ++ s1 ++ s2) = s2 := by
  refine ⟨?_, slice_mid _ _ _ _ _ h0 h1, ?_⟩
  · rw [skT0, List.append_assoc, slice_prefix _ _ _ h0]
  · have h01 : (t0 ++ s1).length = (p.K + p.L) * p.N := by rw [List.length_append, h0, h1, Nat.add_mul]
    rw [skS2, slice_skip _ _ _ _ _ h01 le_rfl, Nat.sub_self, slice_zero_all _ _ h2.le]

section
variable {s : State} {e : Effect}

theorem packSkRule_eq_ok_iff : packSkRule s = .ok e ↔
    ∃ e0, packVec s.build.params (t0Codec s.build.params) (skT0 s.build.params (coeffVals s.txn.cin))
        s.build.params.K = .ok e0 ∧
      ∃ e1, packVec s.build.params (etaCodec s.build.params) (skS1 s.build.params (coeffVals s.txn.cin))
          s.build.params.L = .ok e1 ∧
        ∃ e2, packVec s.build.params (etaCodec s.build.params) (skS2 s.build.params (coeffVals s.txn.cin))
            s.build.params.K = .ok e2 ∧
          s.keep (skBuffer s.build.skOrder (skFieldsOf s.build.params s.txn.din e0 e1 e2)) [] = .ok e := by
  simp only [packSkRule, bind_eq_ok_iff]
  rfl

theorem unpackSkRule_eq_ok_iff {f : SkFields} (hf : f = skSplit s.build.params s.build.skOrder s.txn.din) :
    unpackSkRule s = .ok e ↔
      ∃ t0, unpackVec s.build.params (t0Codec s.build.params) f.e0 s.build.params.K = .ok t0 ∧
        ∃ s1, unpackVec s.build.params (etaCodec s.build.params) f.e1 s.build.params.L = .ok s1 ∧
          ∃ s2, unpackVec s.build.params (etaCodec s.build.params) f.e2 s.build.params.K = .ok s2 ∧
            s.keep f.bytes (toPorts (t0 ++ s1 ++ s2)) = .ok e := by
  subst hf
  simp only [unpackSkRule, bind_eq_ok_iff]
  rfl

end

section
variable {s : State} {d : List Byte} {c : List Coeff} (hok : s.build.params.Ok)
include hok

theorem unpackSkRule_of_packSkRule
    (hdin : s.txn.din.length = 2 * s.build.params.SEEDBYTES + s.build.params.TRBYTES)
    (hcin : s.txn.cin.length = (2 * s.build.params.K + s.build.params.L) * s.build.params.N)
    (h : packSkRule s = s.keep d c) : unpackSkRule (s.withOperands d c) = s.keep s.txn.din s.txn.cin := by
  have ⟨_, h2, _, h4, _, h6, _⟩ := hok
  have hlen := (length_coeffVals s.txn.cin).trans hcin
  obtain ⟨l0, l1, l2⟩ := sk_split_cin _ _ hlen
  obtain ⟨e0, he0, e1, he1, e2, he2, hkeep⟩ := packSkRule_eq_ok_iff.mp h
  obtain ⟨rfl, rfl⟩ := keep_inj hkeep
  have hsized := sized_skFieldsOf hdin (length_packVec l0 he0) (length_packVec l1 he1) (length_packVec l2 he2)
  refine (unpackSkRule_eq_ok_iff (f := skFieldsOf s.build.params s.txn.din e0 e1 e2)
    (hsized.skSplit_skBuffer _).symm).mpr
    ⟨_, unpackVec_packVec (t0Codec_good _ h2) h4 l0 he0, _, unpackVec_packVec (etaCodec_good _ h6) h4 l1 he1,
      _, unpackVec_packVec (etaCodec_good _ h6) h4 l2 he2, ?_⟩
  rw [bytes_skFieldsOf hdin, sk_join _ _ hlen, toPorts_coeffVals]
  rfl

section
variable (heta : s.build.params.ETA < 2 ^ 31) (hdin : s.txn.din.length = s.build.params.SKBYTES)
include heta hdin

/-- What `UNPACK_SK` delivers: the byte fields, and the coefficients of the three packed vectors. -/
theorem unpackSkRule_delivers {f : SkFields} (hf : f = skSplit s.build.params s.build.skOrder s.txn.din)
    (h : unpackSkRule s = s.keep d c) :
    d = f.bytes ∧
      packVec s.build.params (t0Codec s.build.params) (skT0 s.build.params (coeffVals c)) s.build.params.K = .ok f.e0 ∧
      packVec s.build.params (etaCodec s.build.params) (skS1 s.build.params (coeffVals c)) s.build.params.L
        = .ok f.e1 ∧
      packVec s.build.params (etaCodec s.build.params) (skS2 s.build.params (coeffVals c)) s.build.params.K
        = .ok f.e2 := by
  have ⟨h1, h2, _, h4, _, h6, _⟩ := hok
  have hsized : f.Sized s.build.params := hf ▸ sized_skSplit _ hdin
  obtain ⟨t0, ht0, s1, hs1, s2, hs2, hkeep⟩ := (unpackSkRule_eq_ok_iff hf).mp h
  obtain ⟨rfl, rfl⟩ := keep_inj hkeep
  obtain ⟨l0, p0, b0⟩ := unpackVec_delivers (t0Codec_good _ h2) (t0Codec_onPort h1 h2) h4 hsized.e0 ht0
  obtain ⟨l1, p1, b1⟩ := unpackVec_delivers (etaCodec_good _ h6) (etaCodec_onPort heta) h4 hsized.e1 hs1
  obtain ⟨l2, p2, b2⟩ := unpackVec_delivers (etaCodec_good _ h6) (etaCodec_onPort heta) h4 hsized.e2 hs2
  have hport : ∀ x ∈ t0 ++ s1 ++ s2, Claims.OnPort x :=
    List.forall_mem_append.mpr ⟨List.forall_mem_append.mpr ⟨p0, p1⟩, p2⟩
  obtain ⟨e0, e1, e2⟩ := sk_split_append l0 l1 l2
  rw [coeffVals_toPorts _ hport, e0, e1, e2]
  exact ⟨rfl, b0, b1, b2⟩

theorem packSkRule_of_unpackSkRule (hcin : s.txn.cin.length = 0) (h : unpackSkRule s = s.keep d c) :
    packSkRule (s.withOperands d c) = s.keep s.txn.din s.txn.cin := by
  obtain ⟨rfl, b0, b1, b2⟩ := unpackSkRule_delivers hok heta hdin rfl h
  refine packSkRule_eq_ok_iff.mpr ⟨_, b0, _, b1, _, b2, ?_⟩
  rw [State.withOperands_din, State.withOperands_build, skFieldsOf_bytes (sized_skSplit _ hdin),
    skBuffer_skSplit _ _ _ hdin, List.length_eq_zero_iff.mp hcin]
  rfl

end

end

/-! ### The hint section (R262, R264, R265) -/

theorem hintEncode_eq_ok {p : Params} {h : List Int} {hs : List Byte} (he : hintEncode p h = .ok hs) :
    (∀ x ∈ h, x = 0 ∨ x = 1) ∧ h.count 1 ≤ p.OMEGA ∧ hs = hintSection p (hintRows p h) := by
  by_cases hbits : (∀ x ∈ h, x = 0 ∨ x = 1) ∧ h.count 1 ≤ p.OMEGA
  · rw [hintEncode_of_bits p h hbits.1 hbits.2] at he
    exact ⟨hbits.1, hbits.2, (Except.ok.inj he).symm⟩
  · rw [hintEncode_of_not p h hbits] at he
    cases he

section
variable {p : Params} {h : List Int} {hs : List Byte}

theorem length_hintEncode (hl : h.length = p.K * p.N) (he : hintEncode p h = .ok hs) : hs.length = p.HINTBYTES := by
  obtain ⟨-, hcap, rfl⟩ := hintEncode_eq_ok he
  exact length_hintSection_hintRows hl hcap

theorem hintDecode_hintEncode (h4 : p.P4) (h5 : p.P5) (hl : h.length = p.K * p.N) (he : hintEncode p h = .ok hs) :
    hintDecode p hs = .ok h := by
  obtain ⟨hbits, hcap, rfl⟩ := hintEncode_eq_ok he
  exact hintDecode_hintSection p h4 h5 h hl hbits hcap

/-- A matrix that decodes has `K` rows of bits and encodes to the same section. -/
theorem hintDecode_delivers (hl : hs.length = p.HINTBYTES) (hd : hintDecode p hs = .ok h) :
    h.length = p.K * p.N ∧ (∀ x ∈ h, Claims.OnPort x) ∧ hintEncode p h = .ok hs := by
  obtain ⟨hlen, hbits, hcap, hsec⟩ := hintSection_hintDecode p hs hl h hd
  refine ⟨hlen, fun x hx => ?_, (hintEncode_of_bits p h hbits hcap).trans (congrArg _ hsec)⟩
  obtain rfl | rfl := hbits x hx
  · exact onPort_zero
  · exact onPort_one

end

/-! ### The signature (R266, R268) -/

theorem sigHint_append {p : Params} {d ez hs : List Byte} (hd : d.length = p.CTILDEBYTES)
    (hz : ez.length = p.L * p.POLYZBYTES) (hh : hs.length = p.HINTBYTES) : sigHint p (d ++ ez ++ hs) = hs := by
  have hfront : (d ++ ez).length = hintOffset p := by rw [List.length_append, hd, hz, hintOffset]
  rw [sigHint, slice_skip _ _ _ _ _ hfront le_rfl, Nat.sub_self, slice_zero_all _ _ hh.le]

/-- A packed signature is its three parts. -/
theorem sig_append_slices {p : Params} {b : List Byte} (hb : b.length = p.SIGBYTES) :
    slice b 0 p.CTILDEBYTES ++ slice b p.CTILDEBYTES (p.L * p.POLYZBYTES) ++ sigHint p b = b := by
  have h0 := slice_append_slice b 0 p.CTILDEBYTES (p.L * p.POLYZBYTES)
  have h1 := slice_append_slice b 0 (p.CTILDEBYTES + p.L * p.POLYZBYTES) p.HINTBYTES
  rw [Nat.zero_add] at h0 h1
  rw [h0, sigHint, hintOffset, h1]
  exact slice_zero_all _ _ hb.le

/-- The two vectors cut out of their concatenation. -/
theorem sig_split_append {p : Params} {z h : List Int} (hz : z.length = p.L * p.N) (hh : h.length = p.K * p.N) :
    sigZ p (z ++ h) = z ∧ sigH p (z ++ h) = h := by
  refine ⟨slice_prefix _ _ _ hz, ?_⟩
  rw [sigH, slice_skip _ _ _ _ _ hz le_rfl, Nat.sub_self, slice_zero_all _ _ hh.le]

section
variable {s : State} {e : Effect}

theorem packSigRule_eq_ok_iff : packSigRule s = .ok e ↔
    ∃ ez, packVec s.build.params (zCodec s.build.params) (sigZ s.build.params (coeffVals s.txn.cin))
        s.build.params.L = .ok ez ∧
      ∃ hs, hintEncode s.build.params (sigH s.build.params (coeffVals s.txn.cin)) = .ok hs ∧
        s.keep (s.txn.din ++ ez ++ hs) [] = .ok e := by
  simp only [packSigRule, bind_eq_ok_iff]
  rfl

theorem unpackSigRule_eq_ok_iff : unpackSigRule s = .ok e ↔
    ∃ z, unpackVec s.build.params (zCodec s.build.params)
        (slice s.txn.din s.build.params.CTILDEBYTES (s.build.params.L * s.build.params.POLYZBYTES))
        s.build.params.L = .ok z ∧
      ∃ h, hintDecode s.build.params (sigHint s.build.params s.txn.din) = .ok h ∧
        s.keep (slice s.txn.din 0 s.build.params.CTILDEBYTES) (toPorts (z ++ h)) = .ok e := by
  simp only [unpackSigRule, bind_eq_ok_iff]
  rfl

end

section
variable {s : State} {d : List Byte} {c : List Coeff} (hok : s.build.params.Ok)
include hok

theorem unpackSigRule_of_packSigRule (hdin : s.txn.din.length = s.build.params.CTILDEBYTES)
    (hcin : s.txn.cin.length = (s.build.params.L + s.build.params.K) * s.build.params.N)
    (h : packSigRule s = s.keep d c) : unpackSigRule (s.withOperands d c) = s.keep s.txn.din s.txn.cin := by
  have ⟨_, _, _, h4, h5, h6, h7⟩ := hok
  have hlen := (length_coeffVals s.txn.cin).trans hcin
  obtain ⟨lz, lh⟩ := sig_split_cin _ _ hlen
  obtain ⟨ez, hez, hs, hhs, hkeep⟩ := packSigRule_eq_ok_iff.mp h
  obtain ⟨rfl, rfl⟩ := keep_inj hkeep
  have hbytes : ez.length = s.build.params.L * s.build.params.POLYZBYTES := length_packVec lz hez
  refine unpackSigRule_eq_ok_iff.mpr ⟨sigZ s.build.params (coeffVals s.txn.cin), ?_,
    sigH s.build.params (coeffVals s.txn.cin), ?_, ?_⟩
  · rw [State.withOperands_din, State.withOperands_build, slice_mid _ _ _ _ _ hdin hbytes]
    exact unpackVec_packVec (zCodec_good _ h6 h7) h4 lz hez
  · rw [State.withOperands_din, State.withOperands_build, sigHint_append hdin hbytes (length_hintEncode lh hhs)]
    exact hintDecode_hintEncode h4 h5 lh hhs
  · rw [State.withOperands_din, State.withOperands_build, List.append_assoc, slice_prefix _ _ _ hdin,
      sig_join _ _ hlen, toPorts_coeffVals]
    rfl

section
variable (hgamma : s.build.params.GAMMA1 < 2 ^ 31) (hdin : s.txn.din.length = s.build.params.SIGBYTES)
include hgamma hdin

/-- What `UNPACK_SIG` delivers: the challenge hash, the coefficients of `z` and the matrix. -/
theorem unpackSigRule_delivers (h : unpackSigRule s = s.keep d c) :
    d = slice s.txn.din 0 s.build.params.CTILDEBYTES ∧
      packVec s.build.params (zCodec s.build.params) (sigZ s.build.params (coeffVals c)) s.build.params.L
        = .ok (slice s.txn.din s.build.params.CTILDEBYTES (s.build.params.L * s.build.params.POLYZBYTES)) ∧
      hintEncode s.build.params (sigH s.build.params (coeffVals c))
        = .ok (sigHint s.build.params s.txn.din) := by
  have ⟨_, _, _, h4, _, h6, h7⟩ := hok
  obtain ⟨z, hz, hm, hhm, hkeep⟩ := unpackSigRule_eq_ok_iff.mp h
  obtain ⟨rfl, rfl⟩ := keep_inj hkeep
  have hl : (slice s.txn.din s.build.params.CTILDEBYTES
      (s.build.params.L * s.build.params.POLYZBYTES)).length = s.build.params.L * s.build.params.POLYZBYTES := by
    rw [length_slice, hdin, Params.SIGBYTES]
    omega
  obtain ⟨lz, pz, bz⟩ := unpackVec_delivers (zCodec_good _ h6 h7) (zCodec_onPort hgamma) h4 hl hz
  obtain ⟨lh, ph, bh⟩ := hintDecode_delivers (length_sigHint _ _ hdin) hhm
  obtain ⟨ez, eh⟩ := sig_split_append lz lh
  rw [coeffVals_toPorts _ (List.forall_mem_append.mpr ⟨pz, ph⟩), ez, eh]
  exact ⟨rfl, bz, bh⟩

theorem packSigRule_of_unpackSigRule (hcin : s.txn.cin.length = 0) (h : unpackSigRule s = s.keep d c) :
    packSigRule (s.withOperands d c) = s.keep s.txn.din s.txn.cin := by
  obtain ⟨rfl, bz, bh⟩ := unpackSigRule_delivers hok hgamma hdin h
  refine packSigRule_eq_ok_iff.mpr ⟨_, bz, _, bh, ?_⟩
  rw [State.withOperands_din, sig_append_slices hdin, List.length_eq_zero_iff.mp hcin]
  rfl

end

end

end Sys2Proof.Machine

namespace Sys2Proof.Settled

open Sys2Proof.Machine Sys2Proof.Claims

/-- Settles O58: the buffer cut at its offsets is the packed fields, and unpacking undoes packing on each. -/
theorem packThenUnpack : Obligations.PackThenUnpack := by
  intro i j s t r hij hexec hr hst
  have hlen := exec_ok_lengths hexec hr hst
  obtain ⟨rfl, rfl⟩ | ⟨rfl, rfl⟩ | ⟨rfl, rfl⟩ : (i = .packPk ∧ j = .unpackPk) ∨ (i = .packSk ∧ j = .unpackSk) ∨
      (i = .packSig ∧ j = .unpackSig) := by
    simpa using hij
  all_goals rw [← List.length_eq_zero_iff.mp hlen.2]
  · exact (takesOperands_packPk _).answers_back (takesOperands_unpackPk _) hexec hr hst hlen
      unpackPkRule_of_packPkRule
  · exact (takesOperands_packSk _).answers_back (takesOperands_unpackSk _) hexec hr hst hlen
      unpackSkRule_of_packSkRule
  · exact (takesOperands_packSig _).answers_back (takesOperands_unpackSig _) hexec hr hst hlen
      unpackSigRule_of_packSigRule

/-- Settles O59: what each field unpacks to is in its bound, crosses the port and packs back to the field. -/
theorem unpackThenPack : Obligations.UnpackThenPack := by
  rintro i j s t r ⟨heta, hgamma⟩ hij hexec hr hst
  have hlen := exec_ok_lengths hexec hr hst
  obtain ⟨rfl, rfl⟩ | ⟨rfl, rfl⟩ | ⟨rfl, rfl⟩ : (i = .unpackPk ∧ j = .packPk) ∨ (i = .unpackSk ∧ j = .packSk) ∨
      (i = .unpackSig ∧ j = .packSig) := by
    simpa using hij
  · have htakes := takesOperands_unpackPk s.build.params
    obtain ⟨-, -, hcin, -⟩ := htakes.of_ok hexec hr hst
    rw [← List.length_eq_zero_iff.mp hcin]
    exact htakes.answers_back (takesOperands_packPk _) hexec hr hst hlen packPkRule_of_unpackPkRule
  · have htakes := takesOperands_unpackSk s.build.params
    obtain ⟨-, -, hcin, -⟩ := htakes.of_ok hexec hr hst
    rw [← List.length_eq_zero_iff.mp hcin]
    exact htakes.answers_back (takesOperands_packSk _) hexec hr hst hlen
      fun hok => packSkRule_of_unpackSkRule hok (heta rfl)
  · have htakes := takesOperands_unpackSig s.build.params
    obtain ⟨-, -, hcin, -⟩ := htakes.of_ok hexec hr hst
    rw [← List.length_eq_zero_iff.mp hcin]
    exact htakes.answers_back (takesOperands_packSig _) hexec hr hst hlen
      fun hok => packSigRule_of_unpackSigRule hok (hgamma rfl)

/-- Settles O60: what an unpacking command delivers packs back, so it passes the range checks of packing. -/
theorem unpackedWithinBounds : Obligations.UnpackedWithinBounds := by
  intro s t r hr hst
  refine ⟨fun hexec => ?_, fun hfit hexec => ?_, fun hfit hexec => ?_⟩
  · obtain ⟨hok, hdin, -, hrule⟩ := (takesOperands_unpackPk _).of_ok hexec hr hst
    obtain ⟨-, hpack⟩ := unpackPkRule_delivers hok hdin hrule
    exact (within_iff_all_inBound t1_inBound_iff _).mpr (packVec_eq_ok hpack).1
  · obtain ⟨hok, hdin, -, hrule⟩ := (takesOperands_unpackSk _).of_ok hexec hr hst
    obtain ⟨-, b0, b1, b2⟩ := unpackSkRule_delivers hok (hfit.1 rfl) hdin rfl hrule
    exact (skBounds_iff (exec_ok_lengths hexec hr hst).2).mpr
      ⟨(packVec_eq_ok b0).1, (packVec_eq_ok b1).1, (packVec_eq_ok b2).1⟩
  · obtain ⟨hok, hdin, -, hrule⟩ := (takesOperands_unpackSig _).of_ok hexec hr hst
    obtain ⟨-, bz, bh⟩ := unpackSigRule_delivers hok (hfit.2 rfl) hdin hrule
    obtain ⟨hbits, hcap, -⟩ := hintEncode_eq_ok bh
    exact (sigBounds_iff (exec_ok_lengths hexec hr hst).2).mpr ⟨(packVec_eq_ok bz).1, hbits, hcap⟩

end Sys2Proof.Settled
end
